-- ==== Sys2Proof/Word.lean ====
section
/-! DEFINITION. The word types of the engine (00_scope.md R11 and R12; 10_state.md R31 for the 32-bit register width). -/

namespace Sys2Proof

/-- `u8`: one byte of `DMEM` or of a byte string (R11). -/
abbrev Byte := BitVec 8

/-- `u32` and `s32`: a register, a token field, a tree-blob integer (R11, R31). -/
abbrev Word := BitVec 32

/-- A byte string: a sequence of `u8` (R12). -/
abbrev Bytes := List Byte

/-- An element of a bit sequence, `false` for 0 and `true` for 1 (R12). -/
abbrev Bit := Bool

end Sys2Proof
end

