-- ==== Sys2Proof/Machine/Bits.lean ====
section
/-! DEFINITION. Byte order and bit order: the little-endian integers of 20_memory.md R84 and the most-significant-first bits
of a payload byte, R85. -/

namespace Sys2Proof.Machine

/-- `le32` of four bytes: byte 0 is bits 7:0 (R13, R84). -/
def le32 (b0 b1 b2 b3 : Byte) : Word := b3 ++ b2 ++ b1 ++ b0

/-- `bytes_le32` (R13, R84). -/
def bytesLe32 (v : Word) : Bytes :=
  [v.extractLsb' 0 8, v.extractLsb' 8 8, v.extractLsb' 16 8, v.extractLsb' 24 8]

/-- The little-endian value of up to four bytes, zero-extended (R84). -/
def leValue : Bytes → Word
  | [b0] => le32 b0 0 0 0
  | [b0, b1] => le32 b0 b1 0 0
  | [b0, b1, b2, b3] => le32 b0 b1 b2 b3
  | _ => 0

/-- The 8 bits of a byte, bit 7 first (R85). -/
def bitsMsbFirst (b : Byte) : List Bit :=
  [b.getLsbD 7, b.getLsbD 6, b.getLsbD 5, b.getLsbD 4, b.getLsbD 3, b.getLsbD 2, b.getLsbD 1, b.getLsbD 0]

end Sys2Proof.Machine
end

