-- ==== Sys2Proof/Config.lean ====
section
/-! DEFINITION. What the implementation fixes: the parameters of 00_scope.md R8, the constants of R2 and R7,
and the free values (opaque, with no body) that stand for what the spec leaves UNSPECIFIED. -/

namespace Sys2Proof

/-- `LZ_TIE`, the tie-break of the match search (R8, R202; 92_eei_decisions.md D11). -/
inductive LzTie where
  | firstScanned
  | nearest
deriving DecidableEq, Repr

/-- The OPEN and decided parameters of the engine (R8). They are fixed for one machine: no step changes them.
State holds them, so a statement about every state is a statement about every value of them. -/
structure Params where
  /-- `MEM_BYTES`, the size of `DMEM` (D4). -/
  memBytes : Nat
  /-- `SCRATCH_BYTES`; `none` is the unbounded capacity that R321 allows (D22). -/
  scratchBytes : Option Nat
  /-- `LZ_TIE` (D11). -/
  lzTie : LzTie
  /-- `REG_BASE`, the host address of the register block (D29). -/
  regBase : Nat
  /-- `DMEM_BASE`, the host address of `DMEM` (D29). -/
  dmemBase : Nat
  /-- `IRQ_ROUTE`: the number of `IRQ` in the host's interrupt controller (D23, R357, U16; assumption 12). -/
  irqRoute : Nat
deriving DecidableEq, Repr

namespace Config

/-- `W`, the LZ77 window (R7). -/
def window : Nat := 32768

/-- The constant of the `ID` register, "LZHF" (R2, R32). -/
def idValue : Word := 0x4C5A4846#32

/-- The size in bytes of the register block (R31). -/
def regBlockBytes : Nat := 0x100

/-- The largest number a `u32` holds. -/
def maxU32 : Nat := 4294967295

/-- FREE VALUE (assumption 1): the byte at an address in one draw of UNSPECIFIED `DMEM` content (R89, R92, R401,
R420; 93_implementation_defined.md U3, U4, U6). The first argument is the number of the draw. -/
opaque freeByte : Nat → Nat → Byte

/-- FREE VALUE (assumption 2): what `ERRINFO` holds when an error's detail does not fit 32 bits. -/
opaque wideInfo : Nat → Word

/-- FREE VALUE (assumption 3): what a tree node stores for a count that does not fit the `s32` frequency field. -/
opaque wideFreq : Nat → Word

end Config

/-- The parameters after power-on of the machine that `State.reset` describes (assumption 4): `MEM_BYTES`, `LZ_TIE` and
`SCRATCH_BYTES` are those of the programs of 95_test_vectors.md Part 3; the two base addresses and `IRQ_ROUTE` are a DESIGN CHOICE. -/
def Params.standard : Params where
  memBytes := 0x1000
  scratchBytes := none
  lzTie := .firstScanned
  regBase := 0x80000000
  dmemBase := 0
  irqRoute := 0

end Sys2Proof
end

