-- ==== Sys2Proof/Machine/Types.lean ====
section
/-! DEFINITION. The data the commands work on and the records State is made of: tokens (00_scope.md R14), trees (R15),
error codes (60_exceptions.md R350), descriptors (10_state.md R40), the latched context (R52), the sequencer (R46),
`DMEM` (20_memory.md R80) and the host's inputs (30_encoding.md R165 and R166). -/

namespace Sys2Proof.Machine

/-- A token `(offset, length, next)`; `next = none` is the absent byte (R14). -/
structure Token where
  offset : Word
  length : Word
  next : Option Byte
deriving DecidableEq, Repr

/-- A tree node; the frequency is an `s32`, held as its 32 bits (R15). -/
inductive Node where
  | leaf (value : Byte) (freq : Word)
  | internal (freq : Word) (left right : Node)
deriving DecidableEq, Repr

/-- A tree: `EMPTY` or a node (R15). -/
inductive Tree where
  | empty
  | node (root : Node)
deriving DecidableEq, Repr

/-- The error codes (R350). The reserved codes have no constructor: the engine never produces one (U11). -/
inductive ErrCode where
  | noError
  | illegalCmd
  | range
  | overlap
  | capDst0
  | capDst1
  | scratch
  | format
  | corruptTree
  | encodeMiss
  | badToken
  | badBits
  | badBitcnt
deriving DecidableEq, Repr

/-- `raise E(info)` (R13, R176). -/
structure EngineError where
  code : ErrCode
  info : Nat
deriving DecidableEq, Repr

/-- The eight descriptor registers (R40). -/
structure Descriptors where
  src0Addr : Word
  src0Len : Word
  src1Addr : Word
  src1Len : Word
  dst0Addr : Word
  dst0Cap : Word
  dst1Addr : Word
  dst1Cap : Word
deriving DecidableEq, Repr

/-- Which descriptors a command uses (column "uses" of R121). -/
structure Uses where
  src0 : Bool
  src1 : Bool
  dst0 : Bool
  dst1 : Bool
deriving DecidableEq, Repr

/-- The latched command context (R52). -/
structure Context where
  word : Word
  ctrl : Word
  bitcnt : Word
  desc : Descriptors
deriving DecidableEq, Repr

/-- The sequencer: IDLE, where the context has no value, or BUSY with the latched context (R46, R52). `delay` is the number
of steps that still pass before the completion (R430; assumption 5). -/
inductive Sequencer where
  | idle
  | busy (ctx : Context) (delay : Nat)
deriving DecidableEq, Repr

/-- What an operation reads (R174): the parameters, the latched `CTRL` and `BITCNT`, the used sources, and `T`. -/
structure OpInput where
  params : Params
  ctrl : Word
  bitcnt : Word
  src0 : Bytes
  src1 : Bytes
  tree : Tree
deriving DecidableEq, Repr

/-- What an operation returns (R174). `tree = none` for a command that does not write `T`, `bitcnt = none` for one that
does not write `BITCNT`; the output of a destination the command does not use is empty. -/
structure OpResult where
  out0 : Bytes := []
  out1 : Bytes := []
  tree : Option Tree := none
  bitcnt : Option Nat := none
deriving DecidableEq, Repr

/-- Where the reader of a tree blob stands (R259): the records it may still read, the byte index, the leaf values seen, and
the bytes from that index on. -/
structure TreeCursor where
  budget : Nat
  p : Nat
  seen : List Byte
  rest : Bytes
deriving DecidableEq, Repr

/-- An entry `(fr, seq, node)` of the priority queue (R251). -/
structure QueueEntry where
  fr : Nat
  seq : Nat
  node : Node
deriving DecidableEq, Repr

/-- The engine's data memory (R80): the bytes that have been written, as strictly rising (address, byte) pairs, and the
number of the draw that gives every byte not listed (R92, R401; assumption 1). -/
structure Memory where
  cells : List Host.Cell
  draw : Nat
deriving DecidableEq, Repr

/-- The registers of the block that have a name (R31). -/
inductive RegName where
  | id | ctrl | cmd | status | errinfo | memsize | treeNodes | bitcnt
  | src0Addr | src0Len | src1Addr | src1Len | dst0Addr | dst0Cap | dst1Addr | dst1Cap
  | dst0Len | dst1Len
deriving DecidableEq, Repr

/-- What the outside world does to the engine, one item a step: the host's bus transactions (R165) of `size` bytes at a host
address, its two ways of waiting for a completion (R166, R361), and the platform's reset input (R400). -/
inductive Input where
  | read (size addr : Nat)
  | write (size addr : Nat) (value : Word)
  | waitPoll
  | waitIrq
  | reset
deriving DecidableEq, Repr

/-- `nodes` of a node: the number of nodes of its tree (R38, R50). -/
def Node.count : Node → Nat
  | .leaf _ _ => 1
  | .internal _ l r => 1 + l.count + r.count

/-- `nodes(T)`: 0 for `EMPTY` (R38). -/
def Tree.count : Tree → Nat
  | .empty => 0
  | .node n => n.count

/-- The values of the leaves, left to right. -/
def Node.leafValues : Node → List Byte
  | .leaf v _ => [v]
  | .internal _ l r => l.leafValues ++ r.leafValues

/-- The values of the leaves of a tree, left to right. -/
def Tree.leafValues : Tree → List Byte
  | .empty => []
  | .node n => n.leafValues

end Sys2Proof.Machine
end

