-- ==== Sys2Proof/Machine/Formats.lean ====
section
/-! DEFINITION. The byte formats of 30_encoding.md Part 2: token records (R140, R141), text token strings (R145 to R147)
and bit arrays (R160). Parsers work on the bytes from a position on and carry that position for the error's detail. -/

namespace Sys2Proof.Machine

/-- `raise FORMAT(p)`. -/
def formatError {α : Type} (p : Nat) : Except EngineError α := .error ⟨.format, p⟩

/-! ### Token records -/

/-- `rec(t)`: the 10 bytes of a token (R140). -/
def tokenRecord (t : Token) : Bytes :=
  bytesLe32 t.offset ++ bytesLe32 t.length ++
    match t.next with
    | some b => [0x01#8, b]
    | none => [0x00#8, 0x00#8]

/-- `recs(ts)` (R140). -/
def recs (ts : List Token) : Bytes := ts.flatMap tokenRecord

/-- The last field of a record from its flag and value bytes at index `p + 8` (R141). -/
def recordNext (p : Nat) (flag value : Byte) : Except EngineError (Option Byte) :=
  if flag = 0x01#8 then .ok (some value)
  else if flag = 0x00#8 then
    if value ≠ 0x00#8 then formatError (p + 9) else .ok none
  else formatError (p + 8)

/-- `parse_recs` from byte index `p` on (R141). -/
def parseRecsFrom (p : Nat) : Bytes → Except EngineError (List Token)
  | [] => .ok []
  | o0 :: o1 :: o2 :: o3 :: l0 :: l1 :: l2 :: l3 :: flag :: value :: rest => do
    let x ← recordNext p flag value
    let ts ← parseRecsFrom (p + 10) rest
    .ok (⟨le32 o0 o1 o2 o3, le32 l0 l1 l2 l3, x⟩ :: ts)
  | _ => formatError p

/-- `parse_recs(s)` (R141). -/
def parseRecs (s : Bytes) : Except EngineError (List Token) := parseRecsFrom 0 s

/-! ### Text token strings -/

/-- `(` (R146). -/
def chOpen : Byte := 0x28#8

/-- `)` (R146). -/
def chClose : Byte := 0x29#8

/-- `,` (R146). -/
def chComma : Byte := 0x2C#8

/-- `isdigit(c)` (R147). -/
def isDigit (c : Byte) : Bool := decide (0x30 ≤ c.toNat) && decide (c.toNat ≤ 0x39)

/-- The byte of a decimal digit (R146). -/
def digitByte (d : Nat) : Byte := BitVec.ofNat 8 (0x30 + d)

/-- The digits of `v`, most significant first, before `acc`; a `u32` has at most ten (R146). -/
def decDigits : Nat → Nat → Bytes → Bytes
  | 0, _, acc => acc
  | fuel + 1, v, acc =>
    if v / 10 = 0 then digitByte (v % 10) :: acc
    else decDigits fuel (v / 10) (digitByte (v % 10) :: acc)

/-- `dec(v)`: the canonical decimal rendering (R146). -/
def decimal (v : Word) : Bytes := decDigits 10 v.toNat []

/-- `text1(t)` (R145). -/
def tokenText (t : Token) : Bytes :=
  [chOpen] ++ decimal t.offset ++ [chComma] ++ decimal t.length ++ [chComma] ++ t.next.toList ++ [chClose]

/-- `text(ts)` (R145). -/
def text (ts : List Token) : Bytes := ts.flatMap tokenText

/-- The loop of `parse_num` (R147): `v` is the value so far, `p` the byte index. It consumes the `,` after the number. -/
def numberLoop (v p : Nat) : Bytes → Except EngineError (Nat × Nat × Bytes)
  | [] => formatError p
  | c :: rest =>
    if isDigit c then
      let v' := 10 * v + (c.toNat - 0x30)
      if v' > 4294967295 then formatError p else numberLoop v' (p + 1) rest
    else if c = chComma then .ok (v, p + 1, rest)
    else formatError p

/-- The text starts with a digit. -/
def startsWithDigit : Bytes → Bool
  | c :: _ => isDigit c
  | [] => false

/-- `parse_num` (R147): the number, the byte index after its `,`, and the bytes from there. -/
def parseNumber (p : Nat) (s : Bytes) : Except EngineError (Nat × Nat × Bytes) :=
  match s with
  | [] => formatError p
  | c :: rest =>
    if isDigit c then
      if c = 0x30#8 && startsWithDigit rest then formatError (p + 1) else numberLoop 0 p s
    else formatError p

/-- The third field of a token and its `)` (R147): one byte then `)`, or `)` at once. -/
def parseNext (p : Nat) (s : Bytes) : Except EngineError (Option Byte × Nat × Bytes) :=
  match s with
  | [] => formatError p
  | [c] => if c = chClose then .ok (none, p + 1, []) else formatError (p + 1)
  | c :: d :: rest =>
    if d = chClose then .ok (some c, p + 2, rest)
    else if c = chClose then .ok (none, p + 1, d :: rest)
    else formatError (p + 1)

/-- One token of a text, at byte index `p` (R147). -/
def parseToken (p : Nat) (s : Bytes) : Except EngineError (Token × Nat × Bytes) :=
  match s with
  | [] => formatError p
  | c :: rest =>
    if c = chOpen then do
      let (o, p1, s1) ← parseNumber (p + 1) rest
      let (l, p2, s2) ← parseNumber p1 s1
      let (x, p3, s3) ← parseNext p2 s2
      .ok (⟨BitVec.ofNat 32 o, BitVec.ofNat 32 l, x⟩, p3, s3)
    else formatError p

/-- The loop of `parse_text` (R147); every token takes at least one byte, so `fuel` of the text's length is enough. -/
def parseTextFrom : Nat → Nat → Bytes → Except EngineError (List Token)
  | _, _, [] => .ok []
  | 0, p, _ :: _ => formatError p
  | fuel + 1, p, s => do
    let (t, p', s') ← parseToken p s
    let ts ← parseTextFrom fuel p' s'
    .ok (t :: ts)

/-- `parse_text(s)` (R147). -/
def parseText (s : Bytes) : Except EngineError (List Token) := parseTextFrom s.length 0 s

/-! ### The two token formats -/

/-- The token string of the format `CTRL.TOKFMT` selects, BINARY when it is set (R144, R145). -/
def tokenString (binary : Bool) (ts : List Token) : Bytes := if binary then recs ts else text ts

/-- Parse a token string of the format `CTRL.TOKFMT` selects (R144, R147). -/
def parseTokenString (binary : Bool) (s : Bytes) : Except EngineError (List Token) :=
  if binary then parseRecs s else parseText s

/-! ### Bit arrays -/

/-- `bits_of` from index `k` on (R160). -/
def bitsFrom (k : Nat) : Bytes → Except EngineError (List Bit)
  | [] => .ok []
  | c :: rest =>
    if c = 0x00#8 then (false :: ·) <$> bitsFrom (k + 1) rest
    else if c = 0x01#8 then (true :: ·) <$> bitsFrom (k + 1) rest
    else .error ⟨.badBits, k⟩

/-- `bits_of(s)` (R160). -/
def bitsOf (s : Bytes) : Except EngineError (List Bit) := bitsFrom 0 s

/-- `bytes_of(bs)` (R160). -/
def bytesOf (bs : List Bit) : Bytes := bs.map fun b => if b then 0x01#8 else 0x00#8

end Sys2Proof.Machine
end

