-- ==== Sys2Proof/Syntax.lean ====
section
/-! DEFINITION. The instructions of the engine: its fifteen commands (30_encoding.md R121), one constructor per row of
spec/opcode_table.json. A command has no immediate fields, so no constructor has an argument (R123). -/

namespace Sys2Proof

/-- The commands, in the order of the opcode map (R121). -/
inductive Instr where
  | nop
  | lzCompress
  | lzDecompress
  | tokSerialize
  | tokParse
  | hufBuild
  | hufEncode
  | hufDecode
  | treeSerialize
  | treeDeserialize
  | treeReset
  | bitPack
  | bitUnpack
  | compress
  | decompress
deriving DecidableEq, Repr

end Sys2Proof
end

