-- ==== Sys2Proof/WellFormed.lean ====
section
/-! DEFINITION. Well-formedness of what the model is given: command words (30_encoding.md R120 to R122), parameters
(00_scope.md R8 and R10, 20_memory.md R81) and trees (10_state.md R50). Every term of Instr is well formed, because a
command has no fields (R123); what can be ill formed is the word that names one. -/

namespace Sys2Proof

/-- A command word is well formed when `RSVD` is 0 and `OPCODE` is one of the fifteen (R120, R121, R122). -/
def commandWordWf (w : Word) : Bool :=
  w.toNat / 256 == 0 && decide (w.toNat % 256 ≤ 0x0E)

/-- `1 <= MEM_BYTES <= 2^31 - 1` (R8, R10), and the two host windows do not overlap (R81). -/
def Params.wf (p : Params) : Bool :=
  decide (1 ≤ p.memBytes) && decide (p.memBytes ≤ 2147483647) &&
    (decide (p.regBase + Config.regBlockBytes ≤ p.dmemBase) || decide (p.dmemBase + p.memBytes ≤ p.regBase))

namespace Machine

/-- The invariants (b) and (c) of the tree store (R50): at most 511 nodes, and no two leaves with one value. Invariants
(a) and (d) hold of every term of Tree by its form. -/
def Tree.wf (t : Tree) : Bool :=
  decide (t.count ≤ 511) && decide t.leafValues.Nodup

end Machine

end Sys2Proof
end

