-- ==== Sys2Proof/Machine/State.lean ====
section
/-! DEFINITION. The machine's state (10_state.md R30), as plain data, why a step can stop, and the state after reset
(70_reset_and_hazards.md R400). `ID` and `MEMSIZE` are constants (R32, R37) and `STATUS` is put together from its fields
(R35), so they are read through Machine/Ops.lean and have no field here. -/

namespace Sys2Proof.Machine

/-- The whole state. The last four fields are the model's own: what the outside world will do and has seen. -/
structure State where
  /-- The parameters of R8, never changed by a step. -/
  params : Params
  /-- `CTRL` (R33). -/
  ctrl : Word
  /-- `CMD` readback: the last accepted command word (R34). -/
  cmd : Word
  /-- `STATUS.DONE` (R35). -/
  done : Bool
  /-- `STATUS.ERR` (R35). -/
  err : Bool
  /-- `STATUS.ERRCODE` (R35, R350). -/
  errCode : ErrCode
  /-- `ERRINFO` (R36). -/
  errinfo : Word
  /-- `TREE_NODES` (R38). -/
  treeNodes : Word
  /-- `BITCNT` (R39). -/
  bitcnt : Word
  /-- The descriptor registers (R40). -/
  desc : Descriptors
  /-- `DST0_LEN` (R41). -/
  dst0Len : Word
  /-- `DST1_LEN` (R41). -/
  dst1Len : Word
  /-- The tree store `T` (R50). -/
  tree : Tree
  /-- `DMEM` (R80). -/
  mem : Memory
  /-- `STATUS.BUSY` with the latched command context (R46, R52). -/
  seq : Sequencer
  /-- The interrupt output `IRQ` (R48). -/
  irq : Bool
  /-- MODEL'S OWN: the number of the next draw of UNSPECIFIED bytes (assumption 1). -/
  draws : Nat
  /-- MODEL'S OWN: how many steps each command to come takes before it completes (R430; assumption 5). -/
  delays : List Nat
  /-- MODEL'S OWN: what the host and the platform do next, in host order (R95; assumption 6). -/
  inputs : List Input
  /-- MODEL'S OWN: the values the host's reads returned, oldest first (R165; assumption 6). -/
  readLog : List Word
deriving DecidableEq, Repr

/-- Why a step stops. Every one of them is a host fault: an access the HOST makes that the spec calls UNSPECIFIED and tells
a model to treat as a fault. No command raises one: an error of a command is a completion (R350, R354). -/
inductive Fault where
  /-- U1 (R44): a register access that is not of 4 bytes at a 4-byte-aligned offset. Raised by the host's reads and writes.
  Safe: the machine stops where the hardware may go on. -/
  | hostRegisterAccess
  /-- U2 (R82): a misaligned `DMEM` access. DESIGN CHOICE (assumption 11): also one of another width than 1, 2 or 4, of which
  the spec says nothing. Raised by the host's reads and writes. Safe. -/
  | hostDmemAlignment
  /-- U2 (R82): a `DMEM` access that reaches past `MEM_BYTES - 1`. Raised by the host's reads and writes. Safe. -/
  | hostDmemBeyondEnd
  /-- U5 (R420): a `DMEM` write, while busy, to a byte in a range the running command uses. Raised by the host's writes. Safe. -/
  | hostWritesUsedRange
deriving DecidableEq, Repr

/-- What the model gives no meaning to. -/
inductive Refusal where
  /-- An instruction that has no meaning yet; no instruction of this model is one. Raised by exec alone. Safe. -/
  | notModelled (mnemonic : String)
  /-- A host access below `DMEM_BASE` and outside the register block: it does not reach the engine, which "fixes nothing else
  of the host's address space" (R81). Raised by the host's reads and writes. Safe. -/
  | hostAddressOutsideWindows
deriving DecidableEq, Repr

/-- The state after power-on or a reset (R400): every register at the value of R400's table, `T = EMPTY`, IDLE, and no byte
of `DMEM` known (R401). The arguments are the parameters and the draw that gives the bytes of `DMEM`. -/
def State.powerOn (p : Params) (draw : Nat) : State where
  params := p
  ctrl := 0x00000002#32
  cmd := 0
  done := false
  err := false
  errCode := .noError
  errinfo := 0
  treeNodes := 0
  bitcnt := 0
  desc := ⟨0, 0, 0, 0, 0, 0, 0, 0⟩
  dst0Len := 0
  dst1Len := 0
  tree := .empty
  mem := ⟨[], draw⟩
  seq := .idle
  irq := false
  draws := draw + 1
  delays := []
  inputs := []
  readLog := []

/-- The machine right after reset (R400), with the standard parameters (assumption 4), nothing for the host to do and every
command completing in the step after its acceptance (R430). -/
def State.reset : State := State.powerOn Params.standard 0

end Sys2Proof.Machine
end

