-- ==== Sys2Proof/Machine/Flags.lean ====
section
/-! DEFINITION. The fields of `CTRL` (10_state.md R33), the word of `STATUS` (R35), the values of the error codes
(60_exceptions.md R350) and the level of `IRQ` (R48). -/

namespace Sys2Proof.Machine

/-- `CTRL.TOKFMT`: `true` is BINARY (R33). -/
def tokfmtOf (ctrl : Word) : Bool := ctrl.getLsbD 0

/-- `CTRL.EXACT`: `true` is exact mode (R33). -/
def exactOf (ctrl : Word) : Bool := ctrl.getLsbD 1

/-- `CTRL.IRQEN` (R33). -/
def irqenOf (ctrl : Word) : Bool := ctrl.getLsbD 2

/-- What a write to `CTRL` stores: the reserved bits 31:3 read 0 and ignore writes (R33). -/
def ctrlStored (v : Word) : Word := v &&& 0x00000007#32

/-- `ERRCODE` (R350). -/
def ErrCode.value : ErrCode → Nat
  | .noError => 0x00
  | .illegalCmd => 0x01
  | .range => 0x02
  | .overlap => 0x03
  | .capDst0 => 0x04
  | .capDst1 => 0x05
  | .scratch => 0x06
  | .format => 0x07
  | .corruptTree => 0x08
  | .encodeMiss => 0x09
  | .badToken => 0x0A
  | .badBits => 0x0B
  | .badBitcnt => 0x0C

/-- The errors that the checks before the operation raise; they change no byte of `DMEM` (R89, R177). -/
def ErrCode.isCheck : ErrCode → Bool
  | .illegalCmd => true
  | .range => true
  | .overlap => true
  | _ => false

/-- `STATUS` as a read returns it: `BUSY` bit 0, `DONE` bit 1, `ERR` bit 2, `ERRCODE` bits 15:8, the rest 0 (R35). -/
def statusWord (busy done err : Bool) (code : ErrCode) : Word :=
  BitVec.ofNat 32 (busy.toNat + 2 * done.toNat + 4 * err.toNat + 256 * code.value)

/-- `IRQ = CTRL.IRQEN AND (STATUS.DONE OR STATUS.ERR)` (R48). -/
def irqLevel (ctrl : Word) (done err : Bool) : Bool := irqenOf ctrl && (done || err)

end Sys2Proof.Machine
end

