-- ==== Sys2Proof/Decode.lean ====
section
/-! DEFINITION. The decoder of command words (30_encoding.md R120 to R122), total on any bytes, and after it the encoder. -/

namespace Sys2Proof

open Sys2Proof.Machine

/-- Why bytes are no command word. The engine reports the last two as ILLEGAL_CMD (R122, R171). -/
inductive DecodeError where
  | truncated
  | reservedField
  | reservedOpcode
deriving DecidableEq, Repr

/-- The command an `OPCODE` selects (R121). -/
def decodeOpcode (op : Byte) : Option Instr :=
  match op.toNat with
  | 0x00 => some .nop
  | 0x01 => some .lzCompress
  | 0x02 => some .lzDecompress
  | 0x03 => some .tokSerialize
  | 0x04 => some .tokParse
  | 0x05 => some .hufBuild
  | 0x06 => some .hufEncode
  | 0x07 => some .hufDecode
  | 0x08 => some .treeSerialize
  | 0x09 => some .treeDeserialize
  | 0x0A => some .treeReset
  | 0x0B => some .bitPack
  | 0x0C => some .bitUnpack
  | 0x0D => some .compress
  | 0x0E => some .decompress
  | _ => none

/-- Check 1 (R171): `RSVD` first, then `OPCODE`. -/
def decodeWord (w : Word) : Except DecodeError Instr :=
  if w.extractLsb' 8 24 ≠ 0#24 then .error .reservedField
  else
    match decodeOpcode (w.extractLsb' 0 8) with
    | some i => .ok i
    | none => .error .reservedOpcode

/-- The decoder: a command word is always four bytes, least significant first (R84, R120). -/
def decode : Bytes → Except DecodeError (Instr × Bytes)
  | b0 :: b1 :: b2 :: b3 :: rest =>
    match decodeWord (le32 b0 b1 b2 b3) with
    | .ok i => .ok (i, rest)
    | .error e => .error e
  | _ => .error .truncated

/-- The `OPCODE` of a command (R121). -/
def Instr.opcode : Instr → Byte
  | .nop => 0x00#8
  | .lzCompress => 0x01#8
  | .lzDecompress => 0x02#8
  | .tokSerialize => 0x03#8
  | .tokParse => 0x04#8
  | .hufBuild => 0x05#8
  | .hufEncode => 0x06#8
  | .hufDecode => 0x07#8
  | .treeSerialize => 0x08#8
  | .treeDeserialize => 0x09#8
  | .treeReset => 0x0A#8
  | .bitPack => 0x0B#8
  | .bitUnpack => 0x0C#8
  | .compress => 0x0D#8
  | .decompress => 0x0E#8

/-- The command word of a command: `RSVD` is 0 (R120). -/
def encodeWord (i : Instr) : Word := 0#24 ++ i.opcode

/-- The encoder: the four bytes of the command word. -/
def encode (i : Instr) : Bytes := bytesLe32 (encodeWord i)

/-- The instruction the decoder reads from a row of spec/opcode_table.json: the bits above `nbits` are 0. -/
def decodeTableWord (nbits w : Nat) : Option Instr :=
  match decode (bytesLe32 (BitVec.ofNat 32 (w % 2 ^ nbits))) with
  | .ok (i, _) => some i
  | .error _ => none

end Sys2Proof
end

