-- ==== Sys2Proof/Machine/Operands.lean ====
section
/-! DEFINITION. The operands of a command: the descriptors it uses (30_encoding.md R121), and the checks of range and
overlap before the operation (20_memory.md R86 and R87, 40_control.md R172 and R173). -/

namespace Sys2Proof.Machine

/-- The column "uses" of the opcode map (R121). -/
def usesOf : Instr → Uses
  | .nop => ⟨false, false, false, false⟩
  | .lzCompress => ⟨true, false, true, false⟩
  | .lzDecompress => ⟨true, false, true, false⟩
  | .tokSerialize => ⟨true, false, true, false⟩
  | .tokParse => ⟨true, false, true, false⟩
  | .hufBuild => ⟨true, false, false, false⟩
  | .hufEncode => ⟨true, false, true, false⟩
  | .hufDecode => ⟨true, false, true, false⟩
  | .treeSerialize => ⟨false, false, true, false⟩
  | .treeDeserialize => ⟨true, false, false, false⟩
  | .treeReset => ⟨false, false, false, false⟩
  | .bitPack => ⟨true, false, true, false⟩
  | .bitUnpack => ⟨true, false, true, false⟩
  | .compress => ⟨true, false, true, true⟩
  | .decompress => ⟨true, true, true, false⟩

/-- The descriptors a command word uses: none when the word is illegal (R121, R171). -/
def usesOfWord (w : Word) : Uses :=
  match decodeWord w with
  | .ok i => usesOf i
  | .error _ => ⟨false, false, false, false⟩

/-- A descriptor is in range (R86): computed on unbounded integers. -/
def inRange (memBytes : Nat) (addr len : Word) : Bool :=
  len == 0 || decide (addr.toNat + len.toNat ≤ memBytes)

/-- Two descriptors overlap (R87). -/
def overlaps (addr1 len1 addr2 len2 : Word) : Bool :=
  len1 != 0 && len2 != 0 &&
    (decide (addr1.toNat < addr2.toNat + len2.toNat) && decide (addr2.toNat < addr1.toNat + len1.toNat))

/-- An address is one of the bytes a descriptor names (R40). -/
def inDescriptor (addr len : Word) (a : Nat) : Bool :=
  decide (addr.toNat ≤ a) && decide (a < addr.toNat + len.toNat)

/-- An address is in a destination range the command uses. -/
def inUsedDst (u : Uses) (d : Descriptors) (a : Nat) : Bool :=
  (u.dst0 && inDescriptor d.dst0Addr d.dst0Cap a) || (u.dst1 && inDescriptor d.dst1Addr d.dst1Cap a)

/-- An address is in a source range the command uses. -/
def inUsedSrc (u : Uses) (d : Descriptors) (a : Nat) : Bool :=
  (u.src0 && inDescriptor d.src0Addr d.src0Len a) || (u.src1 && inDescriptor d.src1Addr d.src1Len a)

/-- Check 2, range (R172): the first used descriptor out of range, in the order SRC0, SRC1, DST0, DST1. -/
def rangeError (memBytes : Nat) (u : Uses) (d : Descriptors) : Option EngineError :=
  if u.src0 && !inRange memBytes d.src0Addr d.src0Len then some ⟨.range, 0⟩
  else if u.src1 && !inRange memBytes d.src1Addr d.src1Len then some ⟨.range, 1⟩
  else if u.dst0 && !inRange memBytes d.dst0Addr d.dst0Cap then some ⟨.range, 2⟩
  else if u.dst1 && !inRange memBytes d.dst1Addr d.dst1Cap then some ⟨.range, 3⟩
  else none

/-- Check 3, overlap (R173): the first overlapping pair of used descriptors, as `(i << 8) | j`. -/
def overlapError (u : Uses) (d : Descriptors) : Option EngineError :=
  if u.dst0 && u.src0 && overlaps d.dst0Addr d.dst0Cap d.src0Addr d.src0Len then some ⟨.overlap, 0x0200⟩
  else if u.dst0 && u.src1 && overlaps d.dst0Addr d.dst0Cap d.src1Addr d.src1Len then some ⟨.overlap, 0x0201⟩
  else if u.dst1 && u.src0 && overlaps d.dst1Addr d.dst1Cap d.src0Addr d.src0Len then some ⟨.overlap, 0x0300⟩
  else if u.dst1 && u.src1 && overlaps d.dst1Addr d.dst1Cap d.src1Addr d.src1Len then some ⟨.overlap, 0x0301⟩
  else if u.dst0 && u.dst1 && overlaps d.dst0Addr d.dst0Cap d.dst1Addr d.dst1Cap then some ⟨.overlap, 0x0203⟩
  else none

/-- Checks 2 and 3 in their order (R352). -/
def operandError (memBytes : Nat) (u : Uses) (d : Descriptors) : Option EngineError :=
  match rangeError memBytes u d with
  | some e => some e
  | none => overlapError u d

/-- The capacity check (R175): DST0, then DST1; the detail is the length needed, at most `2^32 - 1`. -/
def capacityError (u : Uses) (d : Descriptors) (r : OpResult) : Option EngineError :=
  if u.dst0 && decide (d.dst0Cap.toNat < r.out0.length) then some ⟨.capDst0, min r.out0.length Config.maxU32⟩
  else if u.dst1 && decide (d.dst1Cap.toNat < r.out1.length) then some ⟨.capDst1, min r.out1.length Config.maxU32⟩
  else none

end Sys2Proof.Machine
end

