-- ==== Sys2Proof/Machine/Ops.lean ====
section
/-! DEFINITION. The named operations over memory and registers, and the life cycle of a command (40_control.md): acceptance
(R170), the error completion, which is the engine's only exception entry (R177, 60_exceptions.md R354), the successful
completion (R177), and `runCommand`, which every meaning is one line over. There is no return from an error (R355): after a
completion the engine is IDLE. -/

namespace Sys2Proof.Machine

/-! ### `DMEM` -/

/-- The byte that was last written at an address; `none` when none was since reset. -/
def Memory.cell (m : Memory) (a : Nat) : Option Byte :=
  (m.cells.find? fun x => x.1 == a).map (·.2)

/-- One byte of `DMEM`: what was written there, or the free value of the memory's draw (R92, R401; assumption 1). -/
def Memory.byte (m : Memory) (a : Nat) : Byte :=
  (m.cell a).getD (Config.freeByte m.draw a)

/-- `MemRead(addr, n)` (R13). -/
def Memory.readBytes (m : Memory) (a n : Nat) : Bytes :=
  (List.range' a n).map m.byte

/-- `MemWrite(addr, n, v)` (R13), `n` being the length of `v`. -/
def Memory.writeBytes (m : Memory) (a : Nat) (bs : Bytes) : Memory :=
  { m with
    cells := m.cells.filter (fun x => decide (x.1 < a)) ++ (List.range' a bs.length).zip bs ++
      m.cells.filter (fun x => decide (a + bs.length ≤ x.1)) }

/-- The bytes `[a, a + n)` become UNSPECIFIED: those of one draw (R89; assumption 1). -/
def Memory.scramble (m : Memory) (a n draw : Nat) : Memory :=
  m.writeBytes a ((List.range' a n).map (Config.freeByte draw))

/-- The canonical form of memory: the addresses strictly rise (assumption 1). -/
abbrev Memory.wf (m : Memory) : Prop :=
  m.cells.Pairwise fun x y => x.1 < y.1

/-- Every byte of memory stands below `MEM_BYTES` (R80). -/
abbrev Memory.within (m : Memory) (memBytes : Nat) : Prop :=
  ∀ x ∈ m.cells, x.1 < memBytes

/-! ### Registers -/

/-- `STATUS.BUSY` (R35, R46). -/
def State.isBusy (s : State) : Bool :=
  match s.seq with
  | .idle => false
  | .busy _ _ => true

/-- What a host read of a register returns (R31 to R41). -/
def State.readReg (s : State) : RegName → Word
  | .id => Config.idValue
  | .ctrl => s.ctrl
  | .cmd => s.cmd
  | .status => statusWord s.isBusy s.done s.err s.errCode
  | .errinfo => s.errinfo
  | .memsize => BitVec.ofNat 32 s.params.memBytes
  | .treeNodes => s.treeNodes
  | .bitcnt => s.bitcnt
  | .src0Addr => s.desc.src0Addr
  | .src0Len => s.desc.src0Len
  | .src1Addr => s.desc.src1Addr
  | .src1Len => s.desc.src1Len
  | .dst0Addr => s.desc.dst0Addr
  | .dst0Cap => s.desc.dst0Cap
  | .dst1Addr => s.desc.dst1Addr
  | .dst1Cap => s.desc.dst1Cap
  | .dst0Len => s.dst0Len
  | .dst1Len => s.dst1Len

/-- `IRQ` follows the three bits it depends on (R48). -/
def State.refreshIrq (s : State) : State :=
  { s with irq := irqLevel s.ctrl s.done s.err }

/-- The context an acceptance of `w` latches (R52, R170). -/
def State.latch (s : State) (w : Word) : Context :=
  { word := w, ctrl := s.ctrl, bitcnt := s.bitcnt, desc := s.desc }

/-- Acceptance of a command word (R170), in one step. -/
def State.accept (s : State) (w : Word) : State :=
  { s with
    seq := .busy (s.latch w) (s.delays.headD 0)
    delays := s.delays.tail
    cmd := w
    done := false
    err := false
    errCode := .noError
    irq := irqLevel s.ctrl false false }

/-- A write of `v` to `STATUS` while idle: bit 1 clears `DONE`; bit 2 clears `ERR` and `ERRCODE` (R35). -/
def State.clearStatus (s : State) (v : Word) : State :=
  State.refreshIrq
    { s with
      done := s.done && !v.getLsbD 1
      err := s.err && !v.getLsbD 2
      errCode := if v.getLsbD 2 then .noError else s.errCode }

/-- A host register write while idle (R31 to R41): the read-only registers ignore it, `CMD` starts a command. -/
def State.writeRegIdle (s : State) (r : RegName) (v : Word) : State :=
  match r with
  | .id => s
  | .ctrl => State.refreshIrq { s with ctrl := ctrlStored v }
  | .cmd => s.accept v
  | .status => s.clearStatus v
  | .errinfo => s
  | .memsize => s
  | .treeNodes => s
  | .bitcnt => { s with bitcnt := v }
  | .src0Addr => { s with desc := { s.desc with src0Addr := v } }
  | .src0Len => { s with desc := { s.desc with src0Len := v } }
  | .src1Addr => { s with desc := { s.desc with src1Addr := v } }
  | .src1Len => { s with desc := { s.desc with src1Len := v } }
  | .dst0Addr => { s with desc := { s.desc with dst0Addr := v } }
  | .dst0Cap => { s with desc := { s.desc with dst0Cap := v } }
  | .dst1Addr => { s with desc := { s.desc with dst1Addr := v } }
  | .dst1Cap => { s with desc := { s.desc with dst1Cap := v } }
  | .dst0Len => s
  | .dst1Len => s

/-- A host register write: while `BUSY = 1` every one is ignored (R43). -/
def State.writeReg (s : State) (r : RegName) (v : Word) : State :=
  if s.isBusy then s else s.writeRegIdle r v

/-! ### Completion -/

/-- What `ERRINFO` holds for a detail: the number when it fits 32 bits, else a free value (R36; assumption 2). -/
def infoWord (n : Nat) : Word :=
  if n ≤ Config.maxU32 then BitVec.ofNat 32 n else Config.wideInfo n

/-- Each used destination range becomes UNSPECIFIED (R89). -/
def scrambleUsed (u : Uses) (d : Descriptors) (draw : Nat) (m : Memory) : Memory :=
  let m0 := if u.dst0 then m.scramble d.dst0Addr.toNat d.dst0Cap.toNat draw else m
  if u.dst1 then m0.scramble d.dst1Addr.toNat d.dst1Cap.toNat draw else m0

/-- The error completion (R177, R354): the engine's one exception entry. `T`, `TREE_NODES` and `BITCNT` stay. -/
def State.errorCompletion (s : State) (u : Uses) (c : Context) (e : EngineError) : State :=
  { s with
    mem := if e.code.isCheck then s.mem else scrambleUsed u c.desc s.draws s.mem
    draws := s.draws + 1
    dst0Len := 0
    dst1Len := 0
    errinfo := infoWord e.info
    errCode := e.code
    err := true
    seq := .idle
    irq := irqLevel s.ctrl s.done true }

/-- The memory after the outputs are written, DST0 first (R177). -/
def writeOutputs (u : Uses) (d : Descriptors) (r : OpResult) (m : Memory) : Memory :=
  let m0 := if u.dst0 then m.writeBytes d.dst0Addr.toNat r.out0 else m
  if u.dst1 then m0.writeBytes d.dst1Addr.toNat r.out1 else m0

/-- The successful completion (R177). -/
def State.successCompletion (s : State) (u : Uses) (c : Context) (r : OpResult) : State :=
  { s with
    mem := writeOutputs u c.desc r s.mem
    dst0Len := if u.dst0 then BitVec.ofNat 32 r.out0.length else 0
    dst1Len := if u.dst1 then BitVec.ofNat 32 r.out1.length else 0
    tree := r.tree.getD s.tree
    treeNodes := match r.tree with
      | some t => BitVec.ofNat 32 t.count
      | none => s.treeNodes
    bitcnt := match r.bitcnt with
      | some b => BitVec.ofNat 32 b
      | none => s.bitcnt
    errinfo := 0
    done := true
    seq := .idle
    irq := irqLevel s.ctrl true s.err }

/-- What the operation of a command reads (R174): the used sources as byte strings, the latched registers, and `T`. -/
def State.opInput (s : State) (u : Uses) (c : Context) : OpInput where
  params := s.params
  ctrl := c.ctrl
  bitcnt := c.bitcnt
  src0 := if u.src0 then s.mem.readBytes c.desc.src0Addr.toNat c.desc.src0Len.toNat else []
  src1 := if u.src1 then s.mem.readBytes c.desc.src1Addr.toNat c.desc.src1Len.toNat else []
  tree := s.tree

/-- From the checks before operation to the completion (R172 to R177), in the priority of R352. -/
def State.complete (s : State) (u : Uses) (c : Context) (op : OpInput → Except EngineError OpResult) : State :=
  match operandError s.params.memBytes u c.desc with
  | some e => s.errorCompletion u c e
  | none =>
    match op (s.opInput u c) with
    | .error e => s.errorCompletion u c e
    | .ok r =>
      match capacityError u c.desc r with
      | some e => s.errorCompletion u c e
      | none => s.successCompletion u c r

/-- The completion of an accepted word that is no command (R171): ILLEGAL_CMD, with the word as its detail. -/
def State.illegalCommand (s : State) (c : Context) : State :=
  s.errorCompletion ⟨false, false, false, false⟩ c ⟨.illegalCmd, c.word.toNat⟩

/-- Run a command with its operation. The engine runs a command only while BUSY, over the latched context. At an IDLE state
the command is first accepted, so that it runs whole, from acceptance to completion (R170, R430; assumption 7). -/
def runCommand (i : Instr) (op : OpInput → Except EngineError OpResult) (s : State) :
    Host.Outcome State Fault Refusal :=
  match s.seq with
  | .busy c _ => .next (s.complete (usesOf i) c op)
  | .idle => .next ((s.accept (encodeWord i)).complete (usesOf i) (s.latch (encodeWord i)) op)

end Sys2Proof.Machine
end

