-- ==== Sys2Proof/Machine/BitPack.lean ====
section
/-! DEFINITION. The bit packer family (43_bitpack.md): BIT_PACK and BIT_UNPACK. -/

namespace Sys2Proof.Machine

/-- The loop of `pack` (R300): `acc` is the accumulator, `c` the number of bits in it. -/
def packFrom (acc : Byte) (c : Nat) : List Bit → Bytes
  | [] => if c > 0 then [acc <<< (8 - c)] else []
  | b :: bs =>
    let acc' := (acc <<< 1) ||| (if b then 0x01#8 else 0x00#8)
    if c + 1 = 8 then acc' :: packFrom 0x00#8 0 bs else packFrom acc' (c + 1) bs

/-- `pack(bs)` (R300). -/
def pack (bs : List Bit) : Bytes := packFrom 0x00#8 0 bs

/-- `unpack(p, exact, bc)` (R301). -/
def unpack (p : Bytes) (exact : Bool) (bc : Nat) : Except EngineError (List Bit) :=
  if exact then
    if bc > 8 * p.length ∨ bc + 7 < 8 * p.length then .error ⟨.badBitcnt, bc⟩
    else .ok ((p.flatMap bitsMsbFirst).take bc)
  else .ok (p.flatMap bitsMsbFirst)

/-- The bytes a packed bit sequence of `m` bits takes: `ceil(m / 8)` (R161). -/
def packedLength (m : Nat) : Nat := (m + 7) / 8

/-- BIT_PACK's operation (R300). -/
def opBitPack (x : OpInput) : Except EngineError OpResult := do
  let bs ← bitsOf x.src0
  .ok { out0 := pack bs, bitcnt := some bs.length }

/-- BIT_PACK (R300). -/
def execBitPack (s : State) : Host.Outcome State Fault Refusal := runCommand .bitPack opBitPack s

/-- BIT_UNPACK's operation (R302). -/
def opBitUnpack (x : OpInput) : Except EngineError OpResult := do
  let bs ← unpack x.src0 (exactOf x.ctrl) x.bitcnt.toNat
  .ok { out0 := bytesOf bs }

/-- BIT_UNPACK (R302). -/
def execBitUnpack (s : State) : Host.Outcome State Fault Refusal := runCommand .bitUnpack opBitUnpack s

end Sys2Proof.Machine
end

