-- ==== Sys2Proof/Machine/Control.lean ====
section
/-! DEFINITION. The control family: NOP (40_control.md R178). -/

namespace Sys2Proof.Machine

/-- NOP's operation returns no outputs (R178). -/
def opNop (_ : OpInput) : Except EngineError OpResult := .ok {}

/-- NOP (R178). -/
def execNop (s : State) : Host.Outcome State Fault Refusal := runCommand .nop opNop s

end Sys2Proof.Machine
end

