-- ==== Sys2Proof/Machine/Huffman.lean ====
section
/-! DEFINITION. The Huffman family (42_huffman.md): HUF_BUILD, HUF_ENCODE, HUF_DECODE, TREE_SERIALIZE, TREE_DESERIALIZE
and TREE_RESET. -/

namespace Sys2Proof.Machine

/-! ### Construction -/

/-- A count as the `s32` frequency field holds it; one that does not fit is a free value (R10, R250; assumption 3). -/
def freqWord (n : Nat) : Word :=
  if n ≤ 2147483647 then BitVec.ofNat 32 n else Config.wideFreq n

/-- `freq(s)` at one byte value (R250). -/
def freqOf (s : Bytes) (v : Byte) : Nat := s.count v

/-- The frequency of a node's root, as stored. -/
def Node.freq : Node → Word
  | .leaf _ f => f
  | .internal f _ _ => f

/-- The order of the queue: by `fr`, then by `seq` (R251). -/
def QueueEntry.before (x y : QueueEntry) : Bool :=
  decide (x.fr < y.fr) || (decide (x.fr = y.fr) && decide (x.seq < y.seq))

/-- Put an entry into the queue, which is held in its order (R251). -/
def enqueue (x : QueueEntry) : List QueueEntry → List QueueEntry
  | [] => [x]
  | y :: ys => if x.before y then x :: y :: ys else y :: enqueue x ys

/-- The leaves of the bytes `vs` that occur in `s`, in that order, numbered from `seq` on, put into `q` (R251). -/
def enqueueLeaves (s : Bytes) : List Byte → Nat → List QueueEntry → Nat × List QueueEntry
  | [], seq, q => (seq, q)
  | v :: vs, seq, q =>
    if freqOf s v > 0 then
      enqueueLeaves s vs (seq + 1) (enqueue ⟨freqOf s v, seq, .leaf v (freqWord (freqOf s v))⟩ q)
    else enqueueLeaves s vs seq q

/-- Pop two, push their parent, until one is left (R251); each round shortens the queue by one. -/
def mergeQueue : Nat → Nat → List QueueEntry → Tree
  | _, _, [] => .empty
  | _, _, [x] => .node x.node
  | 0, _, x :: _ :: _ => .node x.node
  | fuel + 1, seq, a :: b :: q =>
    mergeQueue fuel (seq + 1)
      (enqueue ⟨a.fr + b.fr, seq, .internal (freqWord (a.fr + b.fr)) a.node b.node⟩ q)

/-- The byte values 0 to 255 in increasing order. -/
def allBytes : List Byte := (List.range 256).map (BitVec.ofNat 8)

/-- `build(s)` (R251). -/
def build (s : Bytes) : Tree :=
  let leaves := enqueueLeaves s allBytes 0 []
  mergeQueue leaves.2.length leaves.1 leaves.2

/-! ### Codes -/

/-- The path from a node to the leaf of a value, 0 to the left and 1 to the right (R252). -/
def Node.path (v : Byte) : Node → Option (List Bit)
  | .leaf u _ => if u = v then some [] else none
  | .internal _ l r =>
    match l.path v with
    | some p => some (false :: p)
    | none => (r.path v).map (true :: ·)

/-- `code(T, v)` (R252): the single leaf has the code `[0]`. -/
def code (t : Tree) (v : Byte) : Option (List Bit) :=
  match t with
  | .empty => none
  | .node (.leaf u _) => if u = v then some [false] else none
  | .node n => n.path v

/-- `encode` from byte index `k` on (R254). -/
def hufEncodeFrom (t : Tree) (k : Nat) : Bytes → Except EngineError (List Bit)
  | [] => .ok []
  | v :: rest =>
    match code t v with
    | none => .error ⟨.encodeMiss, k⟩
    | some c => (c ++ ·) <$> hufEncodeFrom t (k + 1) rest

/-- `encode(s, T)` (R254). -/
def hufEncode (s : Bytes) (t : Tree) : Except EngineError (List Bit) := hufEncodeFrom t 0 s

/-- One step down from a node: left on 0, right on 1 (R255). -/
def Node.child (n : Node) (b : Bit) : Node :=
  match n with
  | .leaf v f => .leaf v f
  | .internal _ l r => if b then r else l

/-- The loop of `decode` (R255): `cur` is the cursor, `mid` says that it is below the root. -/
def walkBits (root : Node) (exact : Bool) (total : Nat) (cur : Node) (mid : Bool) :
    List Bit → Except EngineError Bytes
  | [] => if mid && exact then .error ⟨.badBits, total⟩ else .ok []
  | b :: bs =>
    match cur.child b with
    | .leaf v _ => (v :: ·) <$> walkBits root exact total root false bs
    | .internal f l r => walkBits root exact total (.internal f l r) true bs

/-- `decode(bs, T, exact)` (R255). -/
def hufDecode (bs : List Bit) (t : Tree) (exact : Bool) : Except EngineError Bytes :=
  match t with
  | .empty => if bs = [] then .ok [] else .error ⟨.badBits, 0⟩
  | .node (.leaf v _) => .ok (List.replicate bs.length v)
  | .node root => walkBits root exact bs.length root false bs

/-! ### Tree blobs -/

/-- `pre(n)`: the preorder records of a node (R257). -/
def Node.records : Node → Bytes
  | .leaf v f => [0x01#8, v] ++ bytesLe32 f
  | .internal f l r => [0x00#8] ++ bytesLe32 f ++ l.records ++ r.records

/-- `tser(T)` (R257). -/
def treeBlob (t : Tree) : Bytes :=
  match t with
  | .empty => bytesLe32 0
  | .node n => bytesLe32 (BitVec.ofNat 32 n.count) ++ n.records

/-- `raise CORRUPT_TREE(p)`. -/
def corruptTree {α : Type} (p : Nat) : Except EngineError α := .error ⟨.corruptTree, p⟩

/-- `node()` (R259). Each call takes one record of the budget before it calls again, so with the budget as `fuel` the
first line is the case `budget = 0`. -/
def readNode : Nat → TreeCursor → Except EngineError (Node × TreeCursor)
  | 0, k => corruptTree k.p
  | fuel + 1, k =>
    if k.budget = 0 then corruptTree k.p
    else
      match k.rest with
      | [] => corruptTree k.p
      | tag :: body =>
        if tag = 0x01#8 then
          match body with
          | v :: f0 :: f1 :: f2 :: f3 :: rest =>
            if v ∈ k.seen then corruptTree (k.p + 1)
            else .ok (.leaf v (le32 f0 f1 f2 f3), ⟨k.budget - 1, k.p + 6, v :: k.seen, rest⟩)
          | _ => corruptTree k.p
        else if tag = 0x00#8 then
          match body with
          | f0 :: f1 :: f2 :: f3 :: rest => do
            let (l, k1) ← readNode fuel ⟨k.budget - 1, k.p + 5, k.seen, rest⟩
            let (r, k2) ← readNode fuel k1
            .ok (.internal (le32 f0 f1 f2 f3) l r, k2)
          | _ => corruptTree k.p
        else corruptTree k.p

/-- `tdes(b)` (R259). -/
def parseTreeBlob (b : Bytes) : Except EngineError Tree :=
  match b with
  | c0 :: c1 :: c2 :: c3 :: rest =>
    let cnt := (le32 c0 c1 c2 c3).toInt
    if cnt < 0 ∨ cnt > 511 then corruptTree 0
    else if cnt = 0 then
      if rest = [] then .ok .empty else corruptTree 4
    else do
      let (root, k) ← readNode cnt.toNat ⟨cnt.toNat, 4, [], rest⟩
      if k.budget ≠ 0 then corruptTree k.p
      else if k.rest ≠ [] then corruptTree k.p
      else .ok (.node root)
  | _ => corruptTree 0

/-! ### The commands -/

/-- HUF_BUILD's operation (R253). -/
def opHufBuild (x : OpInput) : Except EngineError OpResult := .ok { tree := some (build x.src0) }

/-- HUF_BUILD (R253). -/
def execHufBuild (s : State) : Host.Outcome State Fault Refusal := runCommand .hufBuild opHufBuild s

/-- HUF_ENCODE's operation (R254). -/
def opHufEncode (x : OpInput) : Except EngineError OpResult := do
  let bs ← hufEncode x.src0 x.tree
  .ok { out0 := bytesOf bs }

/-- HUF_ENCODE (R254). -/
def execHufEncode (s : State) : Host.Outcome State Fault Refusal := runCommand .hufEncode opHufEncode s

/-- HUF_DECODE's operation (R256): every byte of the bit array is checked first. -/
def opHufDecode (x : OpInput) : Except EngineError OpResult := do
  let bs ← bitsOf x.src0
  let out ← hufDecode bs x.tree (exactOf x.ctrl)
  .ok { out0 := out }

/-- HUF_DECODE (R256). -/
def execHufDecode (s : State) : Host.Outcome State Fault Refusal := runCommand .hufDecode opHufDecode s

/-- TREE_SERIALIZE's operation (R258). -/
def opTreeSerialize (x : OpInput) : Except EngineError OpResult := .ok { out0 := treeBlob x.tree }

/-- TREE_SERIALIZE (R258). -/
def execTreeSerialize (s : State) : Host.Outcome State Fault Refusal := runCommand .treeSerialize opTreeSerialize s

/-- TREE_DESERIALIZE's operation (R260). -/
def opTreeDeserialize (x : OpInput) : Except EngineError OpResult := do
  let t ← parseTreeBlob x.src0
  .ok { tree := some t }

/-- TREE_DESERIALIZE (R260). -/
def execTreeDeserialize (s : State) : Host.Outcome State Fault Refusal :=
  runCommand .treeDeserialize opTreeDeserialize s

/-- TREE_RESET's operation (R261). -/
def opTreeReset (_ : OpInput) : Except EngineError OpResult := .ok { tree := some .empty }

/-- TREE_RESET (R261). -/
def execTreeReset (s : State) : Host.Outcome State Fault Refusal := runCommand .treeReset opTreeReset s

end Sys2Proof.Machine
end

