-- ==== Sys2Proof/Machine/Lz77.lean ====
section
/-! DEFINITION. The LZ77 family (41_lz77.md): LZ_COMPRESS, LZ_DECOMPRESS, TOK_SERIALIZE and TOK_PARSE. -/

namespace Sys2Proof.Machine

/-- The length of the common start of two byte strings. -/
def commonStart : Bytes → Bytes → Nat
  | a :: as, b :: bs => if a = b then commonStart as bs + 1 else 0
  | _, _ => 0

/-- `matchlen(s, i, j)` (R200), for `j < i`. -/
def matchLen (s : Bytes) (i j : Nat) : Nat := commonStart (s.drop j) (s.drop i)

/-- `better(k, off, best_len, best_off)` (R202). -/
def better (tie : LzTie) (k off bestLen bestOff : Nat) : Bool :=
  match tie with
  | .firstScanned => decide (k > bestLen)
  | .nearest => decide (k > bestLen) || (decide (k = bestLen) && decide (k > 0) && decide (off < bestOff))

/-- The search at position `i` (R201): the best `(length, offset)` over the window, scanned in increasing order. -/
def searchMatch (tie : LzTie) (s : Bytes) (i : Nat) : Nat × Nat :=
  (List.range' (i - Config.window) (i - (i - Config.window))).foldl
    (fun best j =>
      let k := matchLen s i j
      if better tie k (i - j) best.1 best.2 then (k, i - j) else best)
    (0, 0)

/-- The loop of `lz77` from position `i` on (R201); every token advances `i`, so `fuel` of the input's length is enough. -/
def lz77From (tie : LzTie) (s : Bytes) : Nat → Nat → List Token
  | 0, _ => []
  | fuel + 1, i =>
    if i < s.length then
      let best := searchMatch tie s i
      ⟨BitVec.ofNat 32 best.2, BitVec.ofNat 32 best.1, s[i + best.1]?⟩ :: lz77From tie s fuel (i + best.1 + 1)
    else []

/-- `lz77(s)` (R201). -/
def lz77 (tie : LzTie) (s : Bytes) : List Token := lz77From tie s s.length 0

/-- Append `l` bytes copied from index `st` on, byte by byte: it may read bytes this copy wrote (R203). -/
def copyRun : Nat → Nat → Bytes → Bytes
  | 0, _, out => out
  | l + 1, st, out => copyRun l (st + 1) (out ++ [out.getD st 0])

/-- The loop of `replay` from token `q` on, with the output so far (R203). -/
def replayFrom (q : Nat) (out : Bytes) : List Token → Except EngineError Bytes
  | [] => .ok out
  | t :: ts =>
    let o := t.offset.toNat
    let l := t.length.toNat
    if l > 0 ∧ (o = 0 ∨ o > out.length) then .error ⟨.badToken, q⟩
    else replayFrom (q + 1) (copyRun l (out.length - o) out ++ t.next.toList) ts

/-- `replay(toks)` (R203). -/
def replay (ts : List Token) : Except EngineError Bytes := replayFrom 0 [] ts

/-- LZ_COMPRESS's operation (R201). -/
def opLzCompress (x : OpInput) : Except EngineError OpResult :=
  .ok { out0 := recs (lz77 x.params.lzTie x.src0) }

/-- LZ_COMPRESS (R201). -/
def execLzCompress (s : State) : Host.Outcome State Fault Refusal := runCommand .lzCompress opLzCompress s

/-- LZ_DECOMPRESS's operation (R203): the whole record stream is parsed first. -/
def opLzDecompress (x : OpInput) : Except EngineError OpResult := do
  let ts ← parseRecs x.src0
  let out ← replay ts
  .ok { out0 := out }

/-- LZ_DECOMPRESS (R203). -/
def execLzDecompress (s : State) : Host.Outcome State Fault Refusal := runCommand .lzDecompress opLzDecompress s

/-- TOK_SERIALIZE's operation (R204). -/
def opTokSerialize (x : OpInput) : Except EngineError OpResult := do
  let ts ← parseRecs x.src0
  .ok { out0 := tokenString (tokfmtOf x.ctrl) ts }

/-- TOK_SERIALIZE (R204). -/
def execTokSerialize (s : State) : Host.Outcome State Fault Refusal := runCommand .tokSerialize opTokSerialize s

/-- TOK_PARSE's operation (R205). -/
def opTokParse (x : OpInput) : Except EngineError OpResult := do
  let ts ← parseTokenString (tokfmtOf x.ctrl) x.src0
  .ok { out0 := recs ts }

/-- TOK_PARSE (R205). -/
def execTokParse (s : State) : Host.Outcome State Fault Refusal := runCommand .tokParse opTokParse s

end Sys2Proof.Machine
end

