-- ==== Sys2Proof/Machine/Pipeline.lean ====
section
/-! DEFINITION. The pipeline family (44_pipeline.md): COMPRESS and DECOMPRESS. -/

namespace Sys2Proof.Machine

/-- `scratch(x)` (R321): `none` is the unbounded capacity. -/
def scratchCheck (capacity : Option Nat) (x : Nat) : Except EngineError Unit :=
  match capacity with
  | none => .ok ()
  | some n => if x > n then .error ⟨.scratch, min x Config.maxU32⟩ else .ok ()

/-- The bit count of a COMPRESS must fit `BITCNT` (R320, D44). -/
def bitCountCheck (m : Nat) : Except EngineError Unit :=
  if m > Config.maxU32 then .error ⟨.scratch, Config.maxU32⟩ else .ok ()

/-- COMPRESS's operation (R320). -/
def opCompress (x : OpInput) : Except EngineError OpResult := do
  let toks := lz77 x.params.lzTie x.src0
  scratchCheck x.params.scratchBytes (10 * toks.length)
  let ts := tokenString (tokfmtOf x.ctrl) toks
  scratchCheck x.params.scratchBytes ts.length
  let t1 := build ts
  let bs ← hufEncode ts t1
  scratchCheck x.params.scratchBytes (packedLength bs.length)
  bitCountCheck bs.length
  .ok { out0 := treeBlob t1, out1 := pack bs, tree := some t1, bitcnt := some bs.length }

/-- COMPRESS (R320). -/
def execCompress (s : State) : Host.Outcome State Fault Refusal := runCommand .compress opCompress s

/-- DECOMPRESS's operation (R322). -/
def opDecompress (x : OpInput) : Except EngineError OpResult := do
  let t1 ← parseTreeBlob x.src0
  let bs ← unpack x.src1 (exactOf x.ctrl) x.bitcnt.toNat
  scratchCheck x.params.scratchBytes (packedLength bs.length)
  let ts ← hufDecode bs t1 (exactOf x.ctrl)
  scratchCheck x.params.scratchBytes ts.length
  let toks ← parseTokenString (tokfmtOf x.ctrl) ts
  scratchCheck x.params.scratchBytes (10 * toks.length)
  let out ← replay toks
  .ok { out0 := out, tree := some t1 }

/-- DECOMPRESS (R322). -/
def execDecompress (s : State) : Host.Outcome State Fault Refusal := runCommand .decompress opDecompress s

end Sys2Proof.Machine
end

