-- ==== Sys2Proof/Machine/Dispatch.lean ====
section
/-! DEFINITION. One arm per command: each calls the meaning of its own (30_encoding.md R121, column "rule"). -/

namespace Sys2Proof.Machine

def exec (i : Instr) (s : State) : Host.Outcome State Fault Refusal :=
  match i with
  | .nop => Sys2Proof.Machine.execNop s
  | .lzCompress => Sys2Proof.Machine.execLzCompress s
  | .lzDecompress => Sys2Proof.Machine.execLzDecompress s
  | .tokSerialize => Sys2Proof.Machine.execTokSerialize s
  | .tokParse => Sys2Proof.Machine.execTokParse s
  | .hufBuild => Sys2Proof.Machine.execHufBuild s
  | .hufEncode => Sys2Proof.Machine.execHufEncode s
  | .hufDecode => Sys2Proof.Machine.execHufDecode s
  | .treeSerialize => Sys2Proof.Machine.execTreeSerialize s
  | .treeDeserialize => Sys2Proof.Machine.execTreeDeserialize s
  | .treeReset => Sys2Proof.Machine.execTreeReset s
  | .bitPack => Sys2Proof.Machine.execBitPack s
  | .bitUnpack => Sys2Proof.Machine.execBitUnpack s
  | .compress => Sys2Proof.Machine.execCompress s
  | .decompress => Sys2Proof.Machine.execDecompress s

end Sys2Proof.Machine
end

