-- ==== Sys2Proof/Machine/Host.lean ====
section
/-! DEFINITION. What the host and the platform do to the engine: bus transactions (10_state.md R44, 20_memory.md R81, R82 and
R84, 30_encoding.md R165), their hazards while a command runs (70_reset_and_hazards.md R420), waiting (R166, R361), the
reset input (R400 to R403), and the notation of host programs (R165, R166). -/

namespace Sys2Proof.Machine

/-! ### The register block -/

/-- The offset of a register in the block (R31). -/
def RegName.offset : RegName → Nat
  | .id => 0x00
  | .ctrl => 0x04
  | .cmd => 0x08
  | .status => 0x0C
  | .errinfo => 0x10
  | .memsize => 0x14
  | .treeNodes => 0x18
  | .bitcnt => 0x1C
  | .src0Addr => 0x20
  | .src0Len => 0x24
  | .src1Addr => 0x28
  | .src1Len => 0x2C
  | .dst0Addr => 0x30
  | .dst0Cap => 0x34
  | .dst1Addr => 0x38
  | .dst1Cap => 0x3C
  | .dst0Len => 0x40
  | .dst1Len => 0x44

/-- The register at an offset; none at the reserved offsets 0x48 to 0xFC (R31, R42). -/
def regAt (offset : Nat) : Option RegName :=
  match offset with
  | 0x00 => some .id
  | 0x04 => some .ctrl
  | 0x08 => some .cmd
  | 0x0C => some .status
  | 0x10 => some .errinfo
  | 0x14 => some .memsize
  | 0x18 => some .treeNodes
  | 0x1C => some .bitcnt
  | 0x20 => some .src0Addr
  | 0x24 => some .src0Len
  | 0x28 => some .src1Addr
  | 0x2C => some .src1Len
  | 0x30 => some .dst0Addr
  | 0x34 => some .dst0Cap
  | 0x38 => some .dst1Addr
  | 0x3C => some .dst1Cap
  | 0x40 => some .dst0Len
  | 0x44 => some .dst1Len
  | _ => none

/-- What a read at an offset of the block returns: 0 at a reserved one (R42). -/
def State.readOffset (s : State) (offset : Nat) : Word :=
  match regAt offset with
  | some r => s.readReg r
  | none => 0

/-- A write at an offset of the block: ignored at a reserved one (R42). -/
def State.writeOffset (s : State) (offset : Nat) (v : Word) : State :=
  match regAt offset with
  | some r => s.writeReg r v
  | none => s

/-- A legal register access: 4 bytes at a 4-byte-aligned offset (R44). -/
def regAccessOk (size offset : Nat) : Bool := decide (size = 4) && decide (offset % 4 = 0)

/-! ### The windows of the host's address space -/

/-- A host address lies in the register block (R81). -/
def inRegBlock (p : Params) (addr : Nat) : Bool :=
  decide (p.regBase ≤ addr) && decide (addr < p.regBase + Config.regBlockBytes)

/-- A `DMEM` access of a width the host may use, naturally aligned (R82). R82 makes a misaligned access a host fault and says
nothing of one of another width: that it is one too is a DESIGN CHOICE (assumption 11). -/
def dmemAccessOk (size a : Nat) : Bool :=
  (decide (size = 1) || decide (size = 2) || decide (size = 4)) && decide (a % size = 0)

/-! ### `DMEM` accesses -/

/-- The descriptors in use and the uses of the running command; none while idle (R420). -/
def State.runningUses (s : State) : Uses × Descriptors :=
  match s.seq with
  | .idle => (⟨false, false, false, false⟩, s.desc)
  | .busy c _ => (usesOfWord c.word, c.desc)

/-- A byte as the host reads it: in a used destination of a running command it is a free value (R420, U6). R420 says two things of
a byte that lies in a used source as well: that it reads as a free value too is a DESIGN CHOICE (assumption 13). -/
def State.hostByte (s : State) (a : Nat) : Byte :=
  if inUsedDst s.runningUses.1 s.runningUses.2 a then Config.freeByte s.draws a else s.mem.byte a

/-- Some byte of an access lies in a range the running command uses (R420). -/
def State.touchesUsed (s : State) (a size : Nat) : Bool :=
  (List.range' a size).any fun x =>
    inUsedSrc s.runningUses.1 s.runningUses.2 x || inUsedDst s.runningUses.1 s.runningUses.2 x

/-- A host read of `DMEM` (R82, R84, R420). A read changes nothing but what the host has seen (R91); while busy it uses up a
draw, for the free bytes of U6. -/
def State.hostReadDmem (s : State) (size a : Nat) : Host.Outcome State Fault Refusal :=
  if dmemAccessOk size a then
    if a + size ≤ s.params.memBytes then
      .next { s with
        readLog := s.readLog ++ [leValue ((List.range' a size).map s.hostByte)]
        draws := if s.isBusy then s.draws + 1 else s.draws }
    else .fault .hostDmemBeyondEnd
  else .fault .hostDmemAlignment

/-- A host write of the low `size` bytes of a value to `DMEM` (R82, R84, R420). -/
def State.hostWriteDmem (s : State) (size a : Nat) (v : Word) : Host.Outcome State Fault Refusal :=
  if dmemAccessOk size a then
    if a + size ≤ s.params.memBytes then
      if s.touchesUsed a size then .fault .hostWritesUsedRange
      else .next { s with mem := s.mem.writeBytes a ((bytesLe32 v).take size) }
    else .fault .hostDmemBeyondEnd
  else .fault .hostDmemAlignment

/-! ### The interrupt line -/

/-- The line of the host's interrupt controller that `IRQ` drives, with its level (R48, R357; assumption 12). -/
def State.interruptLine (s : State) : Nat × Bool := (s.params.irqRoute, s.irq)

/-! ### Bus transactions -/

/-- A host read (R165). -/
def State.hostRead (s : State) (size addr : Nat) : Host.Outcome State Fault Refusal :=
  if inRegBlock s.params addr then
    if regAccessOk size (addr - s.params.regBase) then
      .next { s with readLog := s.readLog ++ [s.readOffset (addr - s.params.regBase)] }
    else .fault .hostRegisterAccess
  else if s.params.dmemBase ≤ addr then s.hostReadDmem size (addr - s.params.dmemBase)
  else .refused .hostAddressOutsideWindows

/-- A host write (R165). -/
def State.hostWrite (s : State) (size addr : Nat) (v : Word) : Host.Outcome State Fault Refusal :=
  if inRegBlock s.params addr then
    if regAccessOk size (addr - s.params.regBase) then .next (s.writeOffset (addr - s.params.regBase) v)
    else .fault .hostRegisterAccess
  else if s.params.dmemBase ≤ addr then s.hostWriteDmem size (addr - s.params.dmemBase) v
  else .refused .hostAddressOutsideWindows

/-- The reset input (R400 to R403): every register, `T` and `DMEM` as after power-on, with a new draw for `DMEM`; a running
command is abandoned with no completion. What is the outside world's stays. -/
def State.resetInput (s : State) : State :=
  { State.powerOn s.params s.draws with
    inputs := s.inputs
    readLog := s.readLog
    delays := s.delays }

/-- What one input does, the inputs after it being `rest`. `WAIT` polls `STATUS` until `BUSY` is 0 (R166); waiting for `IRQ`
lasts until its line is at 1 (R357, R361). A wait that lasts stays the next input. -/
def State.hostInput (s : State) (x : Input) (rest : List Input) : Host.Outcome State Fault Refusal :=
  match x with
  | .read size addr => State.hostRead { s with inputs := rest } size addr
  | .write size addr v => State.hostWrite { s with inputs := rest } size addr v
  | .waitPoll => if s.isBusy then .next s else .next { s with inputs := rest }
  | .waitIrq => if s.interruptLine.2 then .next { s with inputs := rest } else .next s
  | .reset => .next (State.resetInput { s with inputs := rest })

/-- The host's turn: its next input, or nothing when it has none. -/
def State.hostTurn (s : State) : Host.Outcome State Fault Refusal :=
  match s.inputs with
  | [] => .next s
  | x :: rest => s.hostInput x rest

/-! ### The notation of host programs -/

/-- `WR <reg>, <v32>` (R165). -/
def hostWr (p : Params) (r : RegName) (v : Word) : List Input := [.write 4 (p.regBase + r.offset) v]

/-- `RD <reg>` (R165). -/
def hostRd (p : Params) (r : RegName) : List Input := [.read 4 (p.regBase + r.offset)]

/-- `WB <a>, <b0> <b1> ...` (R165). -/
def hostWb (p : Params) (a : Nat) (bs : Bytes) : List Input :=
  ((List.range' a bs.length).zip bs).map fun x => .write 1 (p.dmemBase + x.1) (x.2.setWidth 32)

/-- `RB <a>, <n>` (R165). -/
def hostRb (p : Params) (a n : Nat) : List Input :=
  (List.range' a n).map fun x => .read 1 (p.dmemBase + x)

/-- `WAIT` (R166). -/
def hostWait : List Input := [.waitPoll]

/-- `RUN <mnemonic>` (R166). -/
def hostRun (p : Params) (i : Instr) : List Input := hostWr p .cmd (encodeWord i) ++ hostWait

/-- `ACK` (R166). -/
def hostAck (p : Params) : List Input := hostWr p .status 0x00000006#32

/-- `SRC0 <a>, <n>` (R166). -/
def hostSrc0 (p : Params) (a n : Word) : List Input := hostWr p .src0Addr a ++ hostWr p .src0Len n

/-- `SRC1 <a>, <n>` (R166). -/
def hostSrc1 (p : Params) (a n : Word) : List Input := hostWr p .src1Addr a ++ hostWr p .src1Len n

/-- `DST0 <a>, <c>` (R166). -/
def hostDst0 (p : Params) (a c : Word) : List Input := hostWr p .dst0Addr a ++ hostWr p .dst0Cap c

/-- `DST1 <a>, <c>` (R166). -/
def hostDst1 (p : Params) (a c : Word) : List Input := hostWr p .dst1Addr a ++ hostWr p .dst1Cap c

end Sys2Proof.Machine
end

