-- ==== Sys2Proof/Machine/Step.lean ====
section
/-! DEFINITION. One step of the machine: a turn of the host, or the completion of the running command
(10_state.md R30 and R46, 70_reset_and_hazards.md R430). -/

namespace Sys2Proof.Machine

/-- One step. While IDLE the host has its turn. While BUSY the command completes when its delay has run out: the accepted
word is decoded, and an illegal one is ILLEGAL_CMD (R171); until then the host has its turns. -/
def step (s : State) : Host.Outcome State Fault Refusal :=
  match s.seq with
  | .idle => s.hostTurn
  | .busy c (n + 1) => State.hostTurn { s with seq := .busy c n }
  | .busy c 0 =>
    match decodeWord c.word with
    | .ok i => exec i s
    | .error _ => .next (s.illegalCommand c)

/-- The state in which the very next step runs the command word `w`: accepted just now (R170), with no delay before its
completion (assumption 8). -/
def State.withFetchWord (s : State) (nbits w : Nat) : State :=
  let word := BitVec.ofNat 32 (w % 2 ^ nbits)
  { s.accept word with seq := .busy (s.latch word) 0, delays := s.delays }

end Sys2Proof.Machine
end

