-- ==== Sys2Proof/Safety.lean ====
section
/-! DEFINITION. What counts as a safe run, in the terms the statements use: the invariant of the architectural state, and
when a step stays within what the spec defines. -/

namespace Sys2Proof.Machine

/-- While BUSY the latched context is a copy of the live registers, the command word is the readback, and no flag is set
(R43, R47, R52, R170). -/
def State.contextCurrent (s : State) : Prop :=
  ∀ c n, s.seq = .busy c n → c = s.latch s.cmd ∧ s.done = false ∧ s.err = false

/-- The invariant of the machine: what the spec says of the state at every time. -/
structure State.Inv (s : State) : Prop where
  /-- The parameters are legal (R8, R10, R81). -/
  params : s.params.wf = true
  /-- The reserved bits of `CTRL` read 0 (R33). -/
  ctrlReserved : ctrlStored s.ctrl = s.ctrl
  /-- `DONE` and `ERR` are never both 1 (R47). -/
  flags : ¬(s.done = true ∧ s.err = true)
  /-- `ERRCODE` is 0 exactly while `ERR` is 0 (R35, R177). -/
  errCode : s.err = false ↔ s.errCode = .noError
  /-- `IRQ = IRQEN AND (DONE OR ERR)` (R48). -/
  irq : s.irq = irqLevel s.ctrl s.done s.err
  /-- `TREE_NODES` equals `nodes(T)` (R38). -/
  treeNodes : s.treeNodes = BitVec.ofNat 32 s.tree.count
  /-- The invariants of the tree store (R50). -/
  tree : s.tree.wf = true
  /-- Memory is in its canonical form, and no byte lies outside `DMEM` (R80). -/
  mem : s.mem.wf ∧ s.mem.within s.params.memBytes
  /-- The latched context is current (R52). -/
  context : s.contextCurrent

/-- A step is safe when it goes on: no host access the spec leaves UNSPECIFIED, none outside the engine's windows. -/
def State.stepsOn (s : State) : Prop := ∃ t, step s = .next t

/-! ### The words of the statements about a command -/

/-- An accepted command runs over the latched context `c`, whatever time its completion still takes (R170, R430). -/
def State.runs (s : State) (c : Context) : Prop := ∃ n, s.seq = .busy c n

/-- The byte string `src_0` of a command (R174). -/
def State.source0 (s : State) (c : Context) : Bytes :=
  s.mem.readBytes c.desc.src0Addr.toNat c.desc.src0Len.toNat

/-- The byte string `src_1` of a command (R174). -/
def State.source1 (s : State) (c : Context) : Bytes :=
  s.mem.readBytes c.desc.src1Addr.toNat c.desc.src1Len.toNat

/-- A descriptor is in range (R86), as arithmetic. -/
def DescriptorOk (memBytes : Nat) (addr len : Word) : Prop :=
  len.toNat = 0 ∨ addr.toNat + len.toNat ≤ memBytes

/-- Two ranges share no byte (R87), as arithmetic. -/
def NoCommonByte (addr1 len1 addr2 len2 : Word) : Prop :=
  ∀ a, ¬((addr1.toNat ≤ a ∧ a < addr1.toNat + len1.toNat) ∧ (addr2.toNat ≤ a ∧ a < addr2.toNat + len2.toNat))

/-- The descriptors a command uses pass the checks before operation (R172, R173). -/
structure OperandsOk (memBytes : Nat) (u : Uses) (d : Descriptors) : Prop where
  src0 : u.src0 = true → DescriptorOk memBytes d.src0Addr d.src0Len
  src1 : u.src1 = true → DescriptorOk memBytes d.src1Addr d.src1Len
  dst0 : u.dst0 = true → DescriptorOk memBytes d.dst0Addr d.dst0Cap
  dst1 : u.dst1 = true → DescriptorOk memBytes d.dst1Addr d.dst1Cap
  dst0src0 : u.dst0 = true → u.src0 = true → NoCommonByte d.dst0Addr d.dst0Cap d.src0Addr d.src0Len
  dst0src1 : u.dst0 = true → u.src1 = true → NoCommonByte d.dst0Addr d.dst0Cap d.src1Addr d.src1Len
  dst1src0 : u.dst1 = true → u.src0 = true → NoCommonByte d.dst1Addr d.dst1Cap d.src0Addr d.src0Len
  dst1src1 : u.dst1 = true → u.src1 = true → NoCommonByte d.dst1Addr d.dst1Cap d.src1Addr d.src1Len
  dst0dst1 : u.dst0 = true → u.dst1 = true → NoCommonByte d.dst0Addr d.dst0Cap d.dst1Addr d.dst1Cap

/-- The checks before operation, in their order (R172, R173): when each fails, and the error it then raises. -/
def operandChecks (memBytes : Nat) (u : Uses) (d : Descriptors) : List (Prop × EngineError) :=
  [(u.src0 = true ∧ ¬DescriptorOk memBytes d.src0Addr d.src0Len, ⟨.range, 0⟩),
    (u.src1 = true ∧ ¬DescriptorOk memBytes d.src1Addr d.src1Len, ⟨.range, 1⟩),
    (u.dst0 = true ∧ ¬DescriptorOk memBytes d.dst0Addr d.dst0Cap, ⟨.range, 2⟩),
    (u.dst1 = true ∧ ¬DescriptorOk memBytes d.dst1Addr d.dst1Cap, ⟨.range, 3⟩),
    (u.dst0 = true ∧ u.src0 = true ∧ ¬NoCommonByte d.dst0Addr d.dst0Cap d.src0Addr d.src0Len, ⟨.overlap, 0x0200⟩),
    (u.dst0 = true ∧ u.src1 = true ∧ ¬NoCommonByte d.dst0Addr d.dst0Cap d.src1Addr d.src1Len, ⟨.overlap, 0x0201⟩),
    (u.dst1 = true ∧ u.src0 = true ∧ ¬NoCommonByte d.dst1Addr d.dst1Cap d.src0Addr d.src0Len, ⟨.overlap, 0x0300⟩),
    (u.dst1 = true ∧ u.src1 = true ∧ ¬NoCommonByte d.dst1Addr d.dst1Cap d.src1Addr d.src1Len, ⟨.overlap, 0x0301⟩),
    (u.dst0 = true ∧ u.dst1 = true ∧ ¬NoCommonByte d.dst0Addr d.dst0Cap d.dst1Addr d.dst1Cap, ⟨.overlap, 0x0203⟩)]

/-- What no completion changes: the parameters, `CTRL`, the `CMD` readback, the descriptors (R40), and what is the outside
world's. -/
structure KeepsInterface (s t : State) : Prop where
  params : t.params = s.params
  ctrl : t.ctrl = s.ctrl
  cmd : t.cmd = s.cmd
  desc : t.desc = s.desc
  delays : t.delays = s.delays
  inputs : t.inputs = s.inputs
  readLog : t.readLog = s.readLog

/-- `t` is `s` after a successful completion that wrote `out0` and `out1` (R177), as far as every command goes: what becomes
of `T` and `BITCNT` is said beside it. A destination the command does not use has the output `[]`. -/
structure Succeeded (c : Context) (s t : State) (out0 out1 : Bytes) : Prop where
  interface : KeepsInterface s t
  idle : t.seq = .idle
  done : t.done = true
  err : t.err = s.err
  errCode : t.errCode = s.errCode
  errinfo : t.errinfo = 0
  irq : t.irq = irqLevel s.ctrl true s.err
  dst0Len : t.dst0Len.toNat = out0.length
  dst1Len : t.dst1Len.toNat = out1.length
  dst0 : t.mem.readBytes c.desc.dst0Addr.toNat out0.length = out0
  dst1 : t.mem.readBytes c.desc.dst1Addr.toNat out1.length = out1
  otherBytes : ∀ a,
    ¬(c.desc.dst0Addr.toNat ≤ a ∧ a < c.desc.dst0Addr.toNat + out0.length) →
    ¬(c.desc.dst1Addr.toNat ≤ a ∧ a < c.desc.dst1Addr.toNat + out1.length) →
    t.mem.byte a = s.mem.byte a

/-- The command leaves the tree store, `TREE_NODES` and `BITCNT` as they are. -/
structure KeepsTreeAndCount (s t : State) : Prop where
  tree : t.tree = s.tree
  treeNodes : t.treeNodes = s.treeNodes
  bitcnt : t.bitcnt = s.bitcnt

/-- `t` is `s` after an error completion with `e` (R89, R177, R354). -/
structure Failed (u : Uses) (c : Context) (s t : State) (e : EngineError) : Prop where
  interface : KeepsInterface s t
  keeps : KeepsTreeAndCount s t
  idle : t.seq = .idle
  done : t.done = s.done
  err : t.err = true
  errCode : t.errCode = e.code
  errinfo : e.info ≤ Config.maxU32 → t.errinfo.toNat = e.info
  irq : t.irq = irqLevel s.ctrl s.done true
  dst0Len : t.dst0Len = 0
  dst1Len : t.dst1Len = 0
  checkBytes : e.code.isCheck = true → t.mem = s.mem
  otherBytes : ∀ a, inUsedDst u c.desc a = false → t.mem.byte a = s.mem.byte a

/-- The command ends with the error `e`. -/
def FailsWith (i : Instr) (s : State) (c : Context) (e : EngineError) : Prop :=
  ∃ t, exec i s = .next t ∧ Failed (usesOf i) c s t e

/-- The command ends with the error of the checks before operation, when they find one (R172, R173). -/
def ChecksOperands (i : Instr) (s : State) (c : Context) : Prop :=
  ∀ e, operandError s.params.memBytes (usesOf i) c.desc = some e → FailsWith i s c e

/-- A size fits the capacity of the pipeline's intermediates (R321). -/
def FitsScratch (capacity : Option Nat) (x : Nat) : Prop := ∀ n, capacity = some n → x ≤ n

/-- A byte of a bit array (R160). -/
def IsBitByte (b : Byte) : Prop := b = 0x00#8 ∨ b = 0x01#8

/-! ### The words of the statements about the codecs -/

/-- An entry leaves the queue before another: less `fr`, or the same and inserted earlier (R251). -/
def QueueEntry.Precedes (x y : QueueEntry) : Prop := x.fr < y.fr ∨ x.fr = y.fr ∧ x.seq < y.seq

/-- The leaves of a byte string as R251 inserts them: in increasing byte value, each with its count, numbered from 0. -/
def leafEntries (s : Bytes) : List QueueEntry :=
  (((List.range 256).map (BitVec.ofNat 8)).filter fun v => decide (v ∈ s)).zipIdx.map fun x =>
    ⟨s.count x.1, x.2, .leaf x.1 (freqWord (s.count x.1))⟩

/-- The entries `q`, in any order, merge to a node (R251): the entry that precedes all others is popped first and becomes the
left child, the next one becomes the right child, and their parent has their sum and the next sequence number. -/
inductive MergesTo : Nat → List QueueEntry → Node → Prop where
  | last (seq : Nat) (x : QueueEntry) : MergesTo seq [x] x.node
  | pop (seq : Nat) (q rest : List QueueEntry) (a b : QueueEntry) (root : Node) :
      q.Perm (a :: b :: rest) → (∀ x ∈ b :: rest, a.Precedes x) → (∀ x ∈ rest, b.Precedes x) →
      MergesTo (seq + 1) (⟨a.fr + b.fr, seq, .internal (freqWord (a.fr + b.fr)) a.node b.node⟩ :: rest) root →
      MergesTo seq q root

/-- Each leaf stores the count of its byte in `s`, and each internal node the sum of the counts below it (R250, R251). -/
def Node.Weighted (s : Bytes) : Node → Prop
  | .leaf v f => f = freqWord (s.count v)
  | .internal f l r =>
    f = freqWord (((l.leafValues ++ r.leafValues).map fun v => s.count v).sum) ∧ l.Weighted s ∧ r.Weighted s

/-- A way from a node down to a leaf of the value `v`: 0 to the left and 1 to the right (R252). -/
inductive Node.PathTo (v : Byte) : Node → List Bit → Prop where
  | here (f : Word) : Node.PathTo v (.leaf v f) []
  | left (f : Word) (l r : Node) (p : List Bit) : Node.PathTo v l p → Node.PathTo v (.internal f l r) (false :: p)
  | right (f : Word) (l r : Node) (p : List Bit) : Node.PathTo v r p → Node.PathTo v (.internal f l r) (true :: p)

/-- The first token whose reference lies outside the output so far is token `q` (R203). -/
def FirstBadToken (ts : List Token) (q : Nat) : Prop :=
  ∃ t out, ts[q]? = some t ∧ replay (ts.take q) = .ok out ∧ 0 < t.length.toNat ∧
    (t.offset.toNat = 0 ∨ out.length < t.offset.toNat)

/-- Where the first fault of a record stream is found (R141): the records before byte `p` are good; then the last record is
truncated, or an absent token carries a value, or the flag byte is neither 0 nor 1. -/
def RecordFaultAt (s : Bytes) (index : Nat) : Prop :=
  ∃ p ts, p < s.length ∧ parseRecs (s.take p) = .ok ts ∧ p = 10 * ts.length ∧
    (s.length < p + 10 ∧ index = p ∨
      p + 10 ≤ s.length ∧ s[p + 8]? = some 0x00#8 ∧ s[p + 9]? ≠ some 0x00#8 ∧ index = p + 9 ∨
      p + 10 ≤ s.length ∧ s[p + 8]? ≠ some 0x00#8 ∧ s[p + 8]? ≠ some 0x01#8 ∧ index = p + 8)

/-- Some text of tokens starts with `s`. -/
def StartsText (s : Bytes) : Prop := ∃ ts, s <+: text ts

/-- Where the parse of a text fails (R147): at the first byte with which it is the start of no text, or at its end. -/
def TextFaultAt (s : Bytes) (index : Nat) : Prop :=
  index ≤ s.length ∧ StartsText (s.take index) ∧ (index < s.length → ¬StartsText (s.take (index + 1)))

/-- A record of a tree blob, without what is below it (R150). -/
inductive BlobRecord where
  | leaf (value : Byte) (freq : Word)
  | internal (freq : Word)
deriving DecidableEq, Repr

/-- The bytes of a record (R150). -/
def BlobRecord.bytes : BlobRecord → Bytes
  | .leaf v f => [0x01#8, v] ++ bytesLe32 f
  | .internal f => [0x00#8] ++ bytesLe32 f

/-- The records of a node in preorder (R257). -/
def Node.preorder : Node → List BlobRecord
  | .leaf v f => [.leaf v f]
  | .internal f l r => .internal f :: (l.preorder ++ r.preorder)

/-- The values of the leaf records. -/
def recordValues (rs : List BlobRecord) : List Byte :=
  rs.filterMap fun r => match r with
    | .leaf v _ => some v
    | .internal _ => none

/-- The records are a whole tree in preorder at the earliest when the leaves are one more than the internal nodes; until then a
subtree is still to be read (R259). -/
def TreeOpen (rs : List BlobRecord) : Prop := 2 * (recordValues rs).length ≤ rs.length

/-- Where the fault of a tree blob's records is found (R259): the good records `rs` stand before byte `p`, and either the tree
is whole and records or bytes are left, or it is not and the count is used up, or the next record is truncated, has another
tag, or (one byte further) repeats the value of a leaf. -/
def RecordsFaultAt (b : Bytes) (count index : Nat) : Prop :=
  ∃ rs p rest, b.drop 4 = rs.flatMap BlobRecord.bytes ++ rest ∧ p + rest.length = b.length ∧
    (recordValues rs).Nodup ∧ rs.length ≤ count ∧ (∀ k, k < rs.length → TreeOpen (rs.take k)) ∧
    (¬TreeOpen rs ∧ (rs.length < count ∨ rest ≠ []) ∧ index = p ∨
      TreeOpen rs ∧ rs.length = count ∧ index = p ∨
      TreeOpen rs ∧ rs.length < count ∧
        (rest = [] ∨ rest[0]? = some 0x01#8 ∧ rest.length < 6 ∨ rest[0]? = some 0x00#8 ∧ rest.length < 5 ∨
          rest[0]? ≠ some 0x00#8 ∧ rest[0]? ≠ some 0x01#8) ∧ index = p ∨
      TreeOpen rs ∧ rs.length < count ∧ rest[0]? = some 0x01#8 ∧ 6 ≤ rest.length ∧
        (∃ v ∈ recordValues rs, rest[1]? = some v) ∧ index = p + 1)

/-- Where the fault of a tree blob is found (R259): 0 when it has no count or one that is negative or above 511; 4 when bytes
follow the count 0; else where its records have it. -/
def BlobFaultAt (b : Bytes) (index : Nat) : Prop :=
  (b.length < 4 ∨ 511 < (leValue (b.take 4)).toNat) ∧ index = 0 ∨
  4 < b.length ∧ (leValue (b.take 4)).toNat = 0 ∧ index = 4 ∨
  4 ≤ b.length ∧ 1 ≤ (leValue (b.take 4)).toNat ∧ (leValue (b.take 4)).toNat ≤ 511 ∧
    RecordsFaultAt b (leValue (b.take 4)).toNat index

/-- The operation of each command (R121, column "rule"): what its meaning runs. -/
def operationOf : Instr → OpInput → Except EngineError OpResult
  | .nop => opNop
  | .lzCompress => opLzCompress
  | .lzDecompress => opLzDecompress
  | .tokSerialize => opTokSerialize
  | .tokParse => opTokParse
  | .hufBuild => opHufBuild
  | .hufEncode => opHufEncode
  | .hufDecode => opHufDecode
  | .treeSerialize => opTreeSerialize
  | .treeDeserialize => opTreeDeserialize
  | .treeReset => opTreeReset
  | .bitPack => opBitPack
  | .bitUnpack => opBitUnpack
  | .compress => opCompress
  | .decompress => opDecompress

/-- The commands that write the tree store when they succeed (R50, R121). -/
def writesTree (i : Instr) : Prop :=
  i = .hufBuild ∨ i = .treeDeserialize ∨ i = .treeReset ∨ i = .compress ∨ i = .decompress

/-- The commands that write `BITCNT` when they succeed (R39, R121). -/
def writesBitcnt (i : Instr) : Prop := i = .bitPack ∨ i = .compress

end Sys2Proof.Machine
end

