-- ==== Sys2Proof/Certificates/Slice0/Obligations.lean ====
section
/-! DEFINITION. The statements for the provers. Each docstring names the rules it rests on; the words they are put in stand in
Safety.lean.

`inputs`, `readLog`, `delays` and `draws` are the model's own (assumptions 1, 5 and 6), wherever a statement names them. -/

open Sys2Proof Sys2Proof.Machine

/-! ### Encoding -/

/-- R120, R121: the decoder reads back what the encoder writes, whatever follows it, and a word decodes to a command only when
it is that command's word: no bit of it is dropped. -/
def Obligations.DecodeAndEncodeAgree : Prop :=
  (∀ (i : Instr) (rest : Bytes), decode (encode i ++ rest) = .ok (i, rest)) ∧
  (∀ (w : Word) (i : Instr), decodeWord w = .ok i ↔ w = encodeWord i)

/-- R121: the word of each command, written out from the opcode map, decodes to it; and two words of R122 to none. -/
def Obligations.SampleCommandWordsDecode : Prop :=
  (∀ x ∈ [(0x00000000#32, Instr.nop), (0x00000001#32, .lzCompress), (0x00000002#32, .lzDecompress),
      (0x00000003#32, .tokSerialize), (0x00000004#32, .tokParse), (0x00000005#32, .hufBuild),
      (0x00000006#32, .hufEncode), (0x00000007#32, .hufDecode), (0x00000008#32, .treeSerialize),
      (0x00000009#32, .treeDeserialize), (0x0000000A#32, .treeReset), (0x0000000B#32, .bitPack),
      (0x0000000C#32, .bitUnpack), (0x0000000D#32, .compress), (0x0000000E#32, .decompress)],
    decodeWord x.1 = .ok x.2) ∧
  decodeWord 0x0000000F#32 = .error .reservedOpcode ∧
  decodeWord 0x00000105#32 = .error .reservedField

/-- R171: an accepted word with a nonzero `RSVD` or an `OPCODE` of `0x0F` or more ends as ILLEGAL_CMD with the word as its
detail, and changes no byte of `DMEM` and not the tree store. -/
def Obligations.ReservedWordsEndAsIllegalCommand : Prop :=
  ∀ (s : State) (c : Context), s.seq = .busy c 0 →
    (c.word.toNat / 256 ≠ 0 ∨ 0x0F ≤ c.word.toNat % 256) →
    ∃ t, step s = .next t ∧
      Failed ⟨false, false, false, false⟩ c s t ⟨.illegalCmd, c.word.toNat⟩ ∧
      t.errinfo = c.word ∧ t.mem = s.mem ∧ t.tree = s.tree

/-! ### The step -/

/-- R46, R170: a step runs the accepted command when its delay has run out. The model's own choice is the rest: that a delay is a
number a step takes one from while the host has a turn (assumption 5, for R430), and that the host is a list of inputs, with
none of which a turn leaves the state (assumption 6, for R402). The two waits of R166 and R361 last while `BUSY` is 1, and while
`IRQ` is 0. -/
def Obligations.StepRunsTheAcceptedCommand : Prop :=
  (∀ (s : State) (c : Context) (i : Instr), s.seq = .busy c 0 → decode (bytesLe32 c.word) = .ok (i, []) →
    step s = exec i s) ∧
  (∀ (s : State) (c : Context) (n : Nat), s.seq = .busy c (n + 1) →
    step s = State.hostTurn { s with seq := .busy c n }) ∧
  (∀ s : State, s.seq = .idle → step s = s.hostTurn) ∧
  (∀ s : State, s.seq = .idle → s.inputs = [] → step s = .next s) ∧
  (∀ (s : State) (rest : List Input), s.inputs = .waitPoll :: rest →
    s.hostTurn = .next (if s.seq = .idle then { s with inputs := rest } else s)) ∧
  (∀ (s : State) (rest : List Input), s.inputs = .waitIrq :: rest →
    s.hostTurn = .next (if s.irq = true then { s with inputs := rest } else s))

/-- R430, R180: a command completes after any finite delay, with the result it has with none, while the host polls `STATUS`
or does nothing. That the delay is a number of steps and the host a list of inputs is the model's choice (assumptions 5, 6). -/
def Obligations.DelayDoesNotChangeTheCompletion : Prop :=
  ∀ (s : State) (c : Context) (n : Nat) (i : Instr), s.seq = .busy c n → decodeWord c.word = .ok i →
    (s.inputs = [] ∨ ∃ rest, s.inputs = .waitPoll :: rest) →
    ∃ t, core.run (n + 1) s = .next t ∧ exec i { s with seq := .busy c 0 } = .next t

/-- R170: what one step does when the host writes a word to `CMD` while IDLE. That the time of the command is taken from the head
of `delays`, and is 0 when there is none, is the model's choice (assumption 5). -/
def Obligations.AcceptanceLatchesTheCommand : Prop :=
  ∀ (s : State) (w : Word) (rest : List Input), s.seq = .idle →
    s.inputs = .write 4 (s.params.regBase + 0x08) w :: rest →
    step s = .next
      { s with
        inputs := rest
        seq := .busy { word := w, ctrl := s.ctrl, bitcnt := s.bitcnt, desc := s.desc } (s.delays.headD 0)
        delays := s.delays.tail
        cmd := w
        done := false
        err := false
        errCode := .noError
        irq := false }

/-! ### The register block -/

/-- R43: while BUSY every register write is ignored, every register read is allowed, `BUSY` reads 1, and the result registers
keep their values until the completion. -/
def Obligations.BusyRegisterWritesAreIgnored : Prop :=
  ∀ (s : State) (c : Context) (n : Nat) (rest : List Input), s.seq = .busy c (n + 1) →
    (∀ (off : Nat) (v : Word), off < 0x100 → off % 4 = 0 →
      s.inputs = .write 4 (s.params.regBase + off) v :: rest →
      step s = .next { s with seq := .busy c n, inputs := rest }) ∧
    (∀ off : Nat, off < 0x100 → off % 4 = 0 → s.inputs = .read 4 (s.params.regBase + off) :: rest →
      ∃ v : Word, step s = .next { s with seq := .busy c n, inputs := rest, readLog := s.readLog ++ [v] } ∧
        (off = 0x0C → v.getLsbD 0 = true)) ∧
    (∀ t, step s = .next t → s.inputs.head? ≠ some .reset →
      t.seq = .busy c n ∧ t.dst0Len = s.dst0Len ∧ t.dst1Len = s.dst1Len ∧ t.errinfo = s.errinfo ∧
        t.bitcnt = s.bitcnt ∧ t.treeNodes = s.treeNodes)

/-- R31: what a host read returns at each offset of the register block, while IDLE or BUSY (R43): `ID` and `MEMSIZE` their
constants (R32, R37), `STATUS` its bits (R35), every other register what it holds, and the offsets 0x48 to 0xFC 0 (R42). Writes
to the read-only registers and to the reserved offsets are ignored. -/
def Obligations.RegisterReadsAndReadOnlyWrites : Prop :=
  ∀ (s : State) (rest : List Input),
    (∀ x ∈ [(0x00, 0x4C5A4846#32), (0x04, s.ctrl), (0x08, s.cmd),
        (0x0C, BitVec.ofNat 32 ((if s.seq = .idle then 0 else 1) + (if s.done = true then 2 else 0) +
          (if s.err = true then 4 else 0) + 0x100 * s.errCode.value)),
        (0x10, s.errinfo), (0x14, BitVec.ofNat 32 s.params.memBytes), (0x18, s.treeNodes), (0x1C, s.bitcnt),
        (0x20, s.desc.src0Addr), (0x24, s.desc.src0Len), (0x28, s.desc.src1Addr), (0x2C, s.desc.src1Len),
        (0x30, s.desc.dst0Addr), (0x34, s.desc.dst0Cap), (0x38, s.desc.dst1Addr), (0x3C, s.desc.dst1Cap),
        (0x40, s.dst0Len), (0x44, s.dst1Len)],
      s.inputs = .read 4 (s.params.regBase + x.1) :: rest →
      s.hostTurn = .next { s with inputs := rest, readLog := s.readLog ++ [x.2] }) ∧
    (∀ off : Nat, 0x48 ≤ off → off ≤ 0xFC → off % 4 = 0 → s.inputs = .read 4 (s.params.regBase + off) :: rest →
      s.hostTurn = .next { s with inputs := rest, readLog := s.readLog ++ [0#32] }) ∧
    (∀ (off : Nat) (v : Word),
      (off ∈ [0x00, 0x10, 0x14, 0x18, 0x40, 0x44] ∨ 0x48 ≤ off ∧ off ≤ 0xFC ∧ off % 4 = 0) →
      s.inputs = .write 4 (s.params.regBase + off) v :: rest → s.hostTurn = .next { s with inputs := rest })

/-- R35: the bits of `STATUS`, what a write to it clears while IDLE, that a write while BUSY is ignored, and what acceptance
clears. R350: the thirteen values of `ERRCODE`. R48: the level of `IRQ`. -/
def Obligations.StatusRegister : Prop :=
  (∀ s : State, (s.readReg .status).toNat =
    (if s.seq = .idle then 0 else 1) + (if s.done = true then 2 else 0) + (if s.err = true then 4 else 0) +
      0x100 * s.errCode.value) ∧
  (∀ x ∈ [(ErrCode.noError, 0x00), (.illegalCmd, 0x01), (.range, 0x02), (.overlap, 0x03), (.capDst0, 0x04),
      (.capDst1, 0x05), (.scratch, 0x06), (.format, 0x07), (.corruptTree, 0x08), (.encodeMiss, 0x09), (.badToken, 0x0A),
      (.badBits, 0x0B), (.badBitcnt, 0x0C)],
    x.1.value = x.2) ∧
  (∀ e : ErrCode, e.value < 0x0D) ∧
  (∀ (ctrl : Word) (done err : Bool), irqLevel ctrl done err = (ctrl.getLsbD 2 && (done || err))) ∧
  (∀ (s : State) (v : Word) (rest : List Input), s.seq = .idle →
    s.inputs = .write 4 (s.params.regBase + 0x0C) v :: rest →
    step s = .next
      { s with
        inputs := rest
        done := if v.getLsbD 1 then false else s.done
        err := if v.getLsbD 2 then false else s.err
        errCode := if v.getLsbD 2 then .noError else s.errCode
        irq := irqLevel s.ctrl (if v.getLsbD 1 then false else s.done) (if v.getLsbD 2 then false else s.err) }) ∧
  (∀ (s : State) (c : Context) (n : Nat) (v : Word) (rest : List Input), s.seq = .busy c (n + 1) →
    s.inputs = .write 4 (s.params.regBase + 0x0C) v :: rest →
    step s = .next { s with seq := .busy c n, inputs := rest }) ∧
  (∀ (s : State) (w : Word), (s.accept w).done = false ∧ (s.accept w).err = false ∧ (s.accept w).errCode = .noError)

/-- R31, R33, R39, R40: a write to a writable register while IDLE is what it then reads (in `CTRL` only bits 2:0 are kept); no
other register, not `DMEM` and not `T` changes. `IRQ` follows `CTRL.IRQEN` (R48). -/
def Obligations.IdleWritesStoreRegisters : Prop :=
  ∀ (s : State) (off : Nat) (r : RegName) (v : Word) (rest : List Input), s.seq = .idle →
    s.inputs = .write 4 (s.params.regBase + off) v :: rest →
    (off, r) ∈ [(0x04, .ctrl), (0x1C, .bitcnt), (0x20, .src0Addr), (0x24, .src0Len), (0x28, .src1Addr), (0x2C, .src1Len),
      (0x30, .dst0Addr), (0x34, .dst0Cap), (0x38, .dst1Addr), (0x3C, .dst1Cap)] →
    ∃ t, step s = .next t ∧
      t.readReg r = (if r = .ctrl then v &&& 7#32 else v) ∧
      (∀ r', r' ≠ r → t.readReg r' = s.readReg r') ∧
      t.mem = s.mem ∧ t.tree = s.tree ∧ t.seq = .idle ∧
      t.irq = (if r = .ctrl then (v.getLsbD 2 && (s.done || s.err)) else s.irq)

/-- R44, R82: a host access of a width or at a place that is not legal is a host fault; with both legal, and while IDLE at
`DMEM`, it goes on. That a `DMEM` access of another width than 1, 2 or 4 is a fault is the model's choice (assumption 11). -/
def Obligations.IllegalHostAccessesFault : Prop :=
  (∀ (s : State) (off size : Nat) (v : Word), off < 0x100 →
    ((size = 4 ∧ off % 4 = 0 →
      (∃ t, s.hostRead size (s.params.regBase + off) = .next t) ∧
        ∃ t, s.hostWrite size (s.params.regBase + off) v = .next t) ∧
     (¬(size = 4 ∧ off % 4 = 0) →
      s.hostRead size (s.params.regBase + off) = .fault .hostRegisterAccess ∧
        s.hostWrite size (s.params.regBase + off) v = .fault .hostRegisterAccess))) ∧
  (∀ (s : State) (a size : Nat) (v : Word), inRegBlock s.params (s.params.dmemBase + a) = false →
    ((s.seq = .idle ∧ (size = 1 ∨ size = 2 ∨ size = 4) ∧ a % size = 0 ∧ a + size ≤ s.params.memBytes →
      (∃ t, s.hostRead size (s.params.dmemBase + a) = .next t) ∧
        ∃ t, s.hostWrite size (s.params.dmemBase + a) v = .next t) ∧
     ((size = 1 ∨ size = 2 ∨ size = 4) ∧ a % size = 0 ∧ s.params.memBytes < a + size →
      s.hostRead size (s.params.dmemBase + a) = .fault .hostDmemBeyondEnd ∧
        s.hostWrite size (s.params.dmemBase + a) v = .fault .hostDmemBeyondEnd) ∧
     (¬((size = 1 ∨ size = 2 ∨ size = 4) ∧ a % size = 0) →
      s.hostRead size (s.params.dmemBase + a) = .fault .hostDmemAlignment ∧
        s.hostWrite size (s.params.dmemBase + a) v = .fault .hostDmemAlignment)))

/-! ### `DMEM` and the host -/

/-- R82, R84: while IDLE, a host write of 1, 2 or 4 bytes puts byte `k` of the value at `a + k` and touches no other byte; a read
returns the bytes there as a little-endian number, and a read after a write returns what was written. That a narrow value is
held in 32 bits, its other bits 0 when read and ignored when written, is the model's choice (assumption 6). -/
def Obligations.HostWordsAreLittleEndian : Prop :=
  ∀ (s : State) (size a : Nat) (rest : List Input), s.seq = .idle →
    inRegBlock s.params (s.params.dmemBase + a) = false → (size = 1 ∨ size = 2 ∨ size = 4) → a % size = 0 →
    a + size ≤ s.params.memBytes →
    (∀ v : Word, s.inputs = .write size (s.params.dmemBase + a) v :: rest →
      ∃ t, step s = .next t ∧
        t = { s with inputs := rest, mem := t.mem } ∧
        (∀ k, k < size → t.mem.byte (a + k) = v.extractLsb' (8 * k) 8) ∧
        ∀ x, (x < a ∨ a + size ≤ x) → t.mem.byte x = s.mem.byte x) ∧
    (s.inputs = .read size (s.params.dmemBase + a) :: rest →
      ∃ v : Word, step s = .next { s with inputs := rest, readLog := s.readLog ++ [v] } ∧
        v.toNat = ((List.range size).map fun k => (s.mem.byte (a + k)).toNat * 256 ^ k).sum) ∧
    (∀ v : Word, s.inputs = .write size (s.params.dmemBase + a) v :: .read size (s.params.dmemBase + a) :: rest →
      ∃ t, core.run 2 s = .next t ∧ t.readLog = s.readLog ++ [BitVec.ofNat 32 (v.toNat % 256 ^ size)])

/-- R420: host accesses to `DMEM` while a command runs. A write that touches a range in use is a host fault; a read that touches
a used destination gives some value and has no other effect on the machine; every other access is as while IDLE. That every read
while BUSY also takes a draw, for the free values, is the model's choice (assumption 1), and so is that a byte in a used source
and a used destination reads as one of the latter (assumption 13). The ranges in use stand first. -/
def Obligations.BusyMemoryHazards : Prop :=
  (∀ (u : Uses) (d : Descriptors) (x : Nat),
    (inUsedSrc u d x = true ↔
      u.src0 = true ∧ d.src0Addr.toNat ≤ x ∧ x < d.src0Addr.toNat + d.src0Len.toNat ∨
      u.src1 = true ∧ d.src1Addr.toNat ≤ x ∧ x < d.src1Addr.toNat + d.src1Len.toNat) ∧
    (inUsedDst u d x = true ↔
      u.dst0 = true ∧ d.dst0Addr.toNat ≤ x ∧ x < d.dst0Addr.toNat + d.dst0Cap.toNat ∨
      u.dst1 = true ∧ d.dst1Addr.toNat ≤ x ∧ x < d.dst1Addr.toNat + d.dst1Cap.toNat)) ∧
  ∀ (s : State) (c : Context) (n : Nat) (i : Instr) (size a : Nat) (rest : List Input), s.seq = .busy c n →
    decodeWord c.word = .ok i → inRegBlock s.params (s.params.dmemBase + a) = false →
    (size = 1 ∨ size = 2 ∨ size = 4) → a % size = 0 → a + size ≤ s.params.memBytes →
    (∀ v : Word, s.inputs = .write size (s.params.dmemBase + a) v :: rest →
      ((∃ x, a ≤ x ∧ x < a + size ∧
          (inUsedSrc (usesOf i) c.desc x = true ∨ inUsedDst (usesOf i) c.desc x = true)) →
        s.hostTurn = .fault .hostWritesUsedRange) ∧
      ((∀ x, a ≤ x → x < a + size →
          inUsedSrc (usesOf i) c.desc x = false ∧ inUsedDst (usesOf i) c.desc x = false) →
        s.hostTurn = .next { s with inputs := rest, mem := s.mem.writeBytes a ((bytesLe32 v).take size) })) ∧
    (s.inputs = .read size (s.params.dmemBase + a) :: rest →
      (∃ v : Word, s.hostTurn = .next { s with inputs := rest, readLog := s.readLog ++ [v], draws := s.draws + 1 }) ∧
      ((∀ x, a ≤ x → x < a + size → inUsedDst (usesOf i) c.desc x = false) →
        s.hostTurn = .next
          { s with
            inputs := rest
            readLog := s.readLog ++ [leValue (s.mem.readBytes a size)]
            draws := s.draws + 1 }))

/-- R91: no read has a side effect: a host read changes only what the host has seen (and, while BUSY, the model's own counter of
draws, assumption 1). -/
def Obligations.HostReadsHaveNoSideEffect : Prop :=
  ∀ (s t : State) (size addr : Nat) (rest : List Input), s.inputs = .read size addr :: rest → s.hostTurn = .next t →
    (∃ v : Word, t = { s with inputs := rest, readLog := s.readLog ++ [v], draws := t.draws }) ∧
    (s.seq = .idle → t.draws = s.draws)

/-- R96, R101: while a command runs, a step before its completion that goes on, other than a reset, keeps its context, `T` and
every byte of its used ranges: it completes over what was there at its acceptance. -/
def Obligations.RunningCommandKeepsItsOperands : Prop :=
  ∀ (s t : State) (c : Context) (n : Nat) (i : Instr), s.seq = .busy c (n + 1) → decodeWord c.word = .ok i →
    s.inputs.head? ≠ some .reset → step s = .next t →
    t.seq = .busy c n ∧ t.tree = s.tree ∧
      ∀ a, (inUsedSrc (usesOf i) c.desc a = true ∨ inUsedDst (usesOf i) c.desc a = true) →
        t.mem.byte a = s.mem.byte a

/-! ### Reset -/

/-- R400: the state after reset, register by register, for every parameter. That `DMEM`, which R401 leaves UNSPECIFIED, holds the
free values of one draw is the model's choice (assumption 1). -/
def Obligations.ResetState : Prop :=
  (∃ (p : Params) (draw : Nat), p.wf = true ∧ State.reset = State.powerOn p draw) ∧
  ∀ (p : Params) (draw : Nat),
    (State.powerOn p draw).readReg .id = 0x4C5A4846#32 ∧
    (State.powerOn p draw).readReg .ctrl = 0x00000002#32 ∧
    (State.powerOn p draw).readReg .cmd = 0#32 ∧
    (State.powerOn p draw).readReg .status = 0#32 ∧
    (State.powerOn p draw).readReg .errinfo = 0#32 ∧
    (State.powerOn p draw).readReg .memsize = BitVec.ofNat 32 p.memBytes ∧
    (State.powerOn p draw).readReg .treeNodes = 0#32 ∧
    (State.powerOn p draw).readReg .bitcnt = 0#32 ∧
    (∀ r ∈ [RegName.src0Addr, .src0Len, .src1Addr, .src1Len, .dst0Addr, .dst0Cap, .dst1Addr, .dst1Cap, .dst0Len,
      .dst1Len], (State.powerOn p draw).readReg r = 0#32) ∧
    (∀ off, 0x48 ≤ off → off ≤ 0xFC → (State.powerOn p draw).readOffset off = 0#32) ∧
    (State.powerOn p draw).seq = .idle ∧
    (State.powerOn p draw).tree = .empty ∧
    (State.powerOn p draw).irq = false ∧
    (∀ a, (State.powerOn p draw).mem.byte a = Config.freeByte draw a)

/-- R403: a reset, while IDLE or BUSY, abandons a running command with no completion, and every register, `T` and `DMEM` take
their values after reset. That `inputs`, `readLog` and `delays` stay is the model's choice (assumption 9), and that `DMEM` takes
the next draw (assumption 1). -/
def Obligations.ResetAbandonsTheCommand : Prop :=
  ∀ (s : State) (rest : List Input), s.inputs = .reset :: rest →
    (s.seq = .idle ∨ ∃ c n, s.seq = .busy c (n + 1)) →
    step s = .next
      { State.powerOn s.params s.draws with inputs := rest, readLog := s.readLog, delays := s.delays } ∧
    (State.powerOn s.params s.draws).done = false ∧ (State.powerOn s.params s.draws).err = false ∧
    (State.powerOn s.params s.draws).irq = false ∧ (State.powerOn s.params s.draws).seq = .idle

/-! ### The whole machine -/

/-- The invariant holds after reset, whatever the legal parameters (R400; the standard ones are the model's choice, assumption 4). -/
def Obligations.ResetMeetsTheInvariant : Prop :=
  State.reset.Inv ∧ ∀ (p : Params) (draw : Nat), p.wf = true → (State.powerOn p draw).Inv

/-- R33, R38, R47, R48, R50, R52, R80: every step keeps the invariant, from every state that meets it. -/
def Obligations.StepKeepsTheInvariant : Prop :=
  ∀ s t : State, s.Inv → step s = .next t → t.Inv

/-- R50: a step changes the tree store only when a command that writes it completes without error, or at a reset, which comes
while IDLE or while a command still takes time. -/
def Obligations.OnlyTreeCommandsChangeTheTree : Prop :=
  ∀ s t : State, s.Inv → step s = .next t → t.tree ≠ s.tree →
    (s.inputs.head? = some .reset ∧ (s.seq = .idle ∨ ∃ c n, s.seq = .busy c (n + 1))) ∨
    ∃ c i, s.seq = .busy c 0 ∧ decodeWord c.word = .ok i ∧ writesTree i ∧ t.done = true ∧ t.err = false

/-- R177, R179: every command completes, from every state in which it runs: it ends IDLE, with exactly one of `DONE` and `ERR`
set (R47). -/
def Obligations.EveryCommandCompletes : Prop :=
  ∀ (i : Instr) (s : State) (c : Context), s.runs c → s.done = false → s.err = false →
    ∃ t, exec i s = .next t ∧ t.seq = .idle ∧ t.done = !t.err

/-- A step stops only at a host access: never at a command, whatever word was accepted, nor at a wait or a reset. -/
def Obligations.OnlyHostAccessesStop : Prop :=
  ∀ s : State,
    ((∃ c, s.seq = .busy c 0) ∨
      ((∀ size addr rest, s.inputs ≠ .read size addr :: rest) ∧
        ∀ size addr v rest, s.inputs ≠ .write size addr v :: rest)) →
    s.stepsOn

/-! ### What every command does -/

/-- R172, R173, R352: the checks before operation, in their order: which error they give, that they give none exactly when the
operands are legal, and that a command they find an error for ends with it. R121: the descriptors each command uses. -/
def Obligations.OperandChecksInOrder : Prop :=
  (∀ i : Instr, usesOf i =
    { src0 := decide (i ∉ [.nop, .treeSerialize, .treeReset])
      src1 := decide (i = .decompress)
      dst0 := decide (i ∉ [.nop, .hufBuild, .treeDeserialize, .treeReset])
      dst1 := decide (i = .compress) }) ∧
  (∀ (m : Nat) (u : Uses) (d : Descriptors), operandError m u d = none ↔ OperandsOk m u d) ∧
  (∀ (m : Nat) (u : Uses) (d : Descriptors) (k : Nat) (bad : Prop) (e : EngineError),
    (operandChecks m u d)[k]? = some (bad, e) → bad →
    (∀ j bad' e', j < k → (operandChecks m u d)[j]? = some (bad', e') → ¬bad') →
    operandError m u d = some e) ∧
  (∀ (i : Instr) (s : State) (c : Context), s.runs c → ChecksOperands i s c)

/-- R174, R176: an error the operation raises ends the command with it. -/
def Obligations.OperationErrorsEndTheCommand : Prop :=
  ∀ (i : Instr) (s : State) (c : Context) (e : EngineError), s.runs c →
    OperandsOk s.params.memBytes (usesOf i) c.desc → operationOf i (s.opInput (usesOf i) c) = .error e →
    FailsWith i s c e

/-- R175: an output longer than its destination ends the command, DST0 first, and the detail is the length needed. -/
def Obligations.CapacityErrorsReportTheLength : Prop :=
  ∀ (i : Instr) (s : State) (c : Context) (r : OpResult), s.runs c →
    OperandsOk s.params.memBytes (usesOf i) c.desc → operationOf i (s.opInput (usesOf i) c) = .ok r →
    ((usesOf i).dst0 = true → c.desc.dst0Cap.toNat < r.out0.length →
      FailsWith i s c ⟨.capDst0, min r.out0.length 4294967295⟩) ∧
    (((usesOf i).dst0 = true → r.out0.length ≤ c.desc.dst0Cap.toNat) → (usesOf i).dst1 = true →
      c.desc.dst1Cap.toNat < r.out1.length → FailsWith i s c ⟨.capDst1, min r.out1.length 4294967295⟩)

/-- R88: a command that completes without error changes no byte outside the ones its result lengths name: those at `DST0_ADDR`
and `DST1_ADDR` that it wrote. -/
def Obligations.SuccessWritesExactlyItsOutputs : Prop :=
  ∀ (i : Instr) (s t : State) (c : Context), s.runs c → s.done = false → exec i s = .next t → t.done = true →
    (t.dst0Len.toNat ≤ c.desc.dst0Cap.toNat ∨ (usesOf i).dst0 = false ∧ t.dst0Len = 0) ∧
    (t.dst1Len.toNat ≤ c.desc.dst1Cap.toNat ∨ (usesOf i).dst1 = false ∧ t.dst1Len = 0) ∧
    (∃ r, operationOf i (s.opInput (usesOf i) c) = .ok r ∧
      ((usesOf i).dst0 = true → t.dst0Len.toNat = r.out0.length ∧
        t.mem.readBytes c.desc.dst0Addr.toNat t.dst0Len.toNat = r.out0) ∧
      ((usesOf i).dst1 = true → t.dst1Len.toNat = r.out1.length ∧
        t.mem.readBytes c.desc.dst1Addr.toNat t.dst1Len.toNat = r.out1)) ∧
    ∀ a, ¬(c.desc.dst0Addr.toNat ≤ a ∧ a < c.desc.dst0Addr.toNat + t.dst0Len.toNat) →
      ¬(c.desc.dst1Addr.toNat ≤ a ∧ a < c.desc.dst1Addr.toNat + t.dst1Len.toNat) →
      t.mem.byte a = s.mem.byte a

/-- R89: a command that ends with an error leaves every byte outside its used destinations as it was, and every byte when a
check before operation raised the error. That after any other error the bytes of the used destinations, which R89 leaves
UNSPECIFIED, are the free values of one draw is the model's choice (assumption 1). -/
def Obligations.ErrorsLeaveOtherBytes : Prop :=
  (∀ e : ErrCode, e.isCheck = true ↔ e = .illegalCmd ∨ e = .range ∨ e = .overlap) ∧
  ∀ (i : Instr) (s t : State) (c : Context), s.runs c → s.err = false → exec i s = .next t → t.err = true →
    (t.errCode.isCheck = true → t.mem = s.mem) ∧
    (∀ a, inUsedDst (usesOf i) c.desc a = false → t.mem.byte a = s.mem.byte a) ∧
    (t.errCode.isCheck = false → ∀ a, inUsedDst (usesOf i) c.desc a = true →
      t.mem.byte a = Config.freeByte s.draws a)

/-- R39, R40, R41, R50, R177: the frame of every command on everything but memory: it never writes the descriptors, `CTRL` or the
`CMD` readback; only the commands that write `T` or `BITCNT` change them, and only when they succeed; `TREE_NODES` changes only
with `T`; a destination the command does not use has the length 0; `DONE` and `ERR` are only set, not cleared. -/
def Obligations.CommandFrame : Prop :=
  ∀ (i : Instr) (s t : State) (c : Context), s.runs c → exec i s = .next t →
    KeepsInterface s t ∧
    (¬writesTree i → t.tree = s.tree ∧ t.treeNodes = s.treeNodes) ∧
    (¬writesBitcnt i → t.bitcnt = s.bitcnt) ∧
    ((usesOf i).dst0 = false → t.dst0Len = 0) ∧
    ((usesOf i).dst1 = false → t.dst1Len = 0) ∧
    (t.done = true ∧ t.err = s.err ∧ t.errCode = s.errCode ∧ t.errinfo = 0 ∨
      t.err = true ∧ t.done = s.done ∧ t.tree = s.tree ∧ t.treeNodes = s.treeNodes ∧ t.bitcnt = s.bitcnt ∧
        t.dst0Len = 0 ∧ t.dst1Len = 0)

/-- R180: what a command does is a function of its context, the bytes of its used sources and `T`: two states that agree on those
(and on the parameters) have the same completion, whatever else they hold. -/
def Obligations.CompletionDependsOnlyOnOperands : Prop :=
  ∀ (i : Instr) (s1 s2 : State) (c : Context), s1.runs c → s2.runs c → s1.params = s2.params → s1.tree = s2.tree →
    (∀ a, inUsedSrc (usesOf i) c.desc a = true → s1.mem.byte a = s2.mem.byte a) →
    s1.done = false → s2.done = false → s1.err = false → s2.err = false → s1.errCode = s2.errCode →
    ∃ t1 t2, exec i s1 = .next t1 ∧ exec i s2 = .next t2 ∧
      t1.done = t2.done ∧ t1.err = t2.err ∧ t1.errCode = t2.errCode ∧ t1.errinfo = t2.errinfo ∧
      t1.dst0Len = t2.dst0Len ∧ t1.dst1Len = t2.dst1Len ∧ t1.tree = t2.tree ∧
      (writesBitcnt i → t1.done = true → t1.bitcnt = t2.bitcnt) ∧
      (t1.done = true → ∀ a,
        (c.desc.dst0Addr.toNat ≤ a ∧ a < c.desc.dst0Addr.toNat + t1.dst0Len.toNat ∨
          c.desc.dst1Addr.toNat ≤ a ∧ a < c.desc.dst1Addr.toNat + t1.dst1Len.toNat) →
        t1.mem.byte a = t2.mem.byte a)

/-! ### The commands one by one -/

/-- R178: NOP is the word 0 alone; it succeeds with any descriptors and changes no byte, not `T` and not `BITCNT`. -/
def Obligations.NopCompletes : Prop :=
  (∀ w : Word, decodeWord w = .ok .nop ↔ w = 0x00000000#32) ∧
  ∀ (s : State) (c : Context), s.runs c →
    ∃ t, exec .nop s = .next t ∧ Succeeded c s t [] [] ∧ t.dst0Len = 0 ∧ t.dst1Len = 0 ∧ t.mem = s.mem ∧
      KeepsTreeAndCount s t

/-- R261: TREE_RESET is the word 0x0A alone; it succeeds with any descriptors and empties the tree store. -/
def Obligations.TreeResetEmptiesTheStore : Prop :=
  (∀ w : Word, decodeWord w = .ok .treeReset ↔ w = 0x0000000A#32) ∧
  ∀ (s : State) (c : Context), s.runs c →
    ∃ t, exec .treeReset s = .next t ∧ Succeeded c s t [] [] ∧ t.mem = s.mem ∧ t.tree = .empty ∧ t.treeNodes = 0 ∧
      t.bitcnt = s.bitcnt

/-- R201: LZ_COMPRESS writes the records of `lz77(s)`, ten bytes a token. -/
def Obligations.LzCompressWritesRecords : Prop :=
  ∀ (s : State) (c : Context), s.runs c → ChecksOperands .lzCompress s c ∧
    (OperandsOk s.params.memBytes (usesOf .lzCompress) c.desc →
      (10 * (lz77 s.params.lzTie (s.source0 c)).length ≤ c.desc.dst0Cap.toNat →
        ∃ t, exec .lzCompress s = .next t ∧ Succeeded c s t (recs (lz77 s.params.lzTie (s.source0 c))) [] ∧
          t.dst0Len.toNat = 10 * (lz77 s.params.lzTie (s.source0 c)).length ∧ KeepsTreeAndCount s t) ∧
      (c.desc.dst0Cap.toNat < 10 * (lz77 s.params.lzTie (s.source0 c)).length →
        FailsWith .lzCompress s c ⟨.capDst0, min (10 * (lz77 s.params.lzTie (s.source0 c)).length) 4294967295⟩))

/-- R203: LZ_DECOMPRESS parses the whole record stream, then replays it. A FORMAT error of the parse is where R141 has it, and
BAD_TOKEN names the first token whose reference lies outside the output. What a token adds to the output stands first. -/
def Obligations.LzDecompressReplaysTokens : Prop :=
  replay [] = .ok [] ∧
  (∀ (ts : List Token) (x : Token) (out out' : Bytes), replay ts = .ok out → replay (ts ++ [x]) = .ok out' →
    out'.length = out.length + x.length.toNat + x.next.toList.length ∧ out'.take out.length = out ∧
    (∀ k, k < x.length.toNat → out'[out.length + k]? = out'[out.length - x.offset.toNat + k]?) ∧
    out'.drop (out.length + x.length.toNat) = x.next.toList) ∧
  ∀ (s : State) (c : Context), s.runs c → ChecksOperands .lzDecompress s c ∧
    (OperandsOk s.params.memBytes (usesOf .lzDecompress) c.desc →
      (∀ e, parseRecs (s.source0 c) = .error e →
        e.code = .format ∧ RecordFaultAt (s.source0 c) e.info ∧ FailsWith .lzDecompress s c e) ∧
      (∀ ts, parseRecs (s.source0 c) = .ok ts →
        (∀ e, replay ts = .error e → e.code = .badToken ∧ FirstBadToken ts e.info ∧ FailsWith .lzDecompress s c e) ∧
        (∀ out, replay ts = .ok out → (∀ q, ¬FirstBadToken ts q) ∧
          (out.length ≤ c.desc.dst0Cap.toNat →
            ∃ t, exec .lzDecompress s = .next t ∧ Succeeded c s t out [] ∧ KeepsTreeAndCount s t) ∧
          (c.desc.dst0Cap.toNat < out.length →
            FailsWith .lzDecompress s c ⟨.capDst0, min out.length 4294967295⟩))))

/-- R204: TOK_SERIALIZE renders the records as the token string of `CTRL.TOKFMT`; in BINARY it is the source again. A stream that
does not parse is FORMAT where R141 has it. -/
def Obligations.TokSerializeWritesTheTokenString : Prop :=
  ∀ (s : State) (c : Context), s.runs c → ChecksOperands .tokSerialize s c ∧
    (OperandsOk s.params.memBytes (usesOf .tokSerialize) c.desc →
      (∀ e, parseRecs (s.source0 c) = .error e →
        e.code = .format ∧ RecordFaultAt (s.source0 c) e.info ∧ FailsWith .tokSerialize s c e) ∧
      (∀ ts out, parseRecs (s.source0 c) = .ok ts →
        (c.ctrl.getLsbD 0 = false → out = text ts) → (c.ctrl.getLsbD 0 = true → out = s.source0 c) →
        (out.length ≤ c.desc.dst0Cap.toNat →
          ∃ t, exec .tokSerialize s = .next t ∧ Succeeded c s t out [] ∧ KeepsTreeAndCount s t) ∧
        (c.desc.dst0Cap.toNat < out.length →
          FailsWith .tokSerialize s c ⟨.capDst0, min out.length 4294967295⟩)))

/-- R205: TOK_PARSE writes the records of the parsed token string, ten bytes a token. A string that does not parse is FORMAT where
R147 (TEXT) or R141 (BINARY) has it. -/
def Obligations.TokParseWritesRecords : Prop :=
  ∀ (s : State) (c : Context) (parsed : Except EngineError (List Token)), s.runs c →
    (c.ctrl.getLsbD 0 = false → parsed = parseText (s.source0 c)) →
    (c.ctrl.getLsbD 0 = true → parsed = parseRecs (s.source0 c)) → ChecksOperands .tokParse s c ∧
    (OperandsOk s.params.memBytes (usesOf .tokParse) c.desc →
      (∀ e, parsed = .error e →
        e.code = .format ∧ (c.ctrl.getLsbD 0 = false → TextFaultAt (s.source0 c) e.info) ∧
          (c.ctrl.getLsbD 0 = true → RecordFaultAt (s.source0 c) e.info) ∧ FailsWith .tokParse s c e) ∧
      (∀ ts, parsed = .ok ts →
        (10 * ts.length ≤ c.desc.dst0Cap.toNat →
          ∃ t, exec .tokParse s = .next t ∧ Succeeded c s t (recs ts) [] ∧ t.dst0Len.toNat = 10 * ts.length ∧
            KeepsTreeAndCount s t) ∧
        (c.desc.dst0Cap.toNat < 10 * ts.length →
          FailsWith .tokParse s c ⟨.capDst0, min (10 * ts.length) 4294967295⟩)))

/-- R253: HUF_BUILD replaces the tree store by `build(s)`, of `2L - 1` nodes for `L` distinct bytes, and writes no byte. -/
def Obligations.HufBuildReplacesTheTree : Prop :=
  ∀ (s : State) (c : Context), s.runs c → ChecksOperands .hufBuild s c ∧
    (OperandsOk s.params.memBytes (usesOf .hufBuild) c.desc →
      ∃ t, exec .hufBuild s = .next t ∧ Succeeded c s t [] [] ∧ t.mem = s.mem ∧ t.dst0Len = 0 ∧ t.dst1Len = 0 ∧
        t.tree = build (s.source0 c) ∧ t.treeNodes.toNat = (build (s.source0 c)).count ∧
        (build (s.source0 c)).count = (if s.source0 c = [] then 0 else 2 * (s.source0 c).dedup.length - 1) ∧
        t.bitcnt = s.bitcnt)

/-- R254: HUF_ENCODE writes the codes of the source bytes one after another, a byte a bit (R160); the first byte with no code is
ENCODE_MISS with its index. -/
def Obligations.HufEncodeWritesTheCodes : Prop :=
  (∀ bs : List Bit, bytesOf bs = bs.map fun b => if b = true then 0x01#8 else 0x00#8) ∧
  ∀ (s : State) (c : Context), s.runs c → ChecksOperands .hufEncode s c ∧
    (OperandsOk s.params.memBytes (usesOf .hufEncode) c.desc →
      (∀ (k : Nat) (v : Byte), (s.source0 c)[k]? = some v → code s.tree v = none →
        (∀ u ∈ (s.source0 c).take k, code s.tree u ≠ none) → FailsWith .hufEncode s c ⟨.encodeMiss, k⟩) ∧
      (∀ bs : List Bit, (∀ v ∈ s.source0 c, code s.tree v ≠ none) →
        bs = (s.source0 c).flatMap (fun v => (code s.tree v).getD []) →
        (bs.length ≤ c.desc.dst0Cap.toNat →
          ∃ t, exec .hufEncode s = .next t ∧ Succeeded c s t (bytesOf bs) [] ∧ t.dst0Len.toNat = bs.length ∧
            KeepsTreeAndCount s t) ∧
        (c.desc.dst0Cap.toNat < bs.length → FailsWith .hufEncode s c ⟨.capDst0, min bs.length 4294967295⟩)))

/-- R256: HUF_DECODE checks every byte of its bit array first, then decodes the bits with `T` in the mode of `CTRL.EXACT`. An
error of the decoding is BAD_BITS with 0 for an `EMPTY` tree and else the number of bits (R255). -/
def Obligations.HufDecodeWritesTheBytes : Prop :=
  ∀ (s : State) (c : Context), s.runs c → ChecksOperands .hufDecode s c ∧
    (OperandsOk s.params.memBytes (usesOf .hufDecode) c.desc →
      (∀ (k : Nat) (v : Byte), (s.source0 c)[k]? = some v → ¬IsBitByte v →
        (∀ u ∈ (s.source0 c).take k, IsBitByte u) → FailsWith .hufDecode s c ⟨.badBits, k⟩) ∧
      (∀ bs : List Bit, s.source0 c = bytesOf bs →
        (s.tree = .empty → bs ≠ [] → FailsWith .hufDecode s c ⟨.badBits, 0⟩) ∧
        (∀ e, hufDecode bs s.tree (c.ctrl.getLsbD 1) = .error e →
          e = ⟨.badBits, if s.tree = .empty then 0 else bs.length⟩ ∧ FailsWith .hufDecode s c e) ∧
        (∀ out, hufDecode bs s.tree (c.ctrl.getLsbD 1) = .ok out →
          (out.length ≤ c.desc.dst0Cap.toNat →
            ∃ t, exec .hufDecode s = .next t ∧ Succeeded c s t out [] ∧ KeepsTreeAndCount s t) ∧
          (c.desc.dst0Cap.toNat < out.length →
            FailsWith .hufDecode s c ⟨.capDst0, min out.length 4294967295⟩))))

/-- R258: TREE_SERIALIZE writes the blob of `T`: 4 bytes for `EMPTY`, else `4 + 6L + 5(L - 1)` for `L` leaves. -/
def Obligations.TreeSerializeWritesTheBlob : Prop :=
  ∀ (s : State) (c : Context), s.runs c → ChecksOperands .treeSerialize s c ∧
    (treeBlob s.tree).length =
      (if s.tree = .empty then 4 else 4 + 6 * s.tree.leafValues.length + 5 * (s.tree.leafValues.length - 1)) ∧
    (OperandsOk s.params.memBytes (usesOf .treeSerialize) c.desc →
      ((treeBlob s.tree).length ≤ c.desc.dst0Cap.toNat →
        ∃ t, exec .treeSerialize s = .next t ∧ Succeeded c s t (treeBlob s.tree) [] ∧ KeepsTreeAndCount s t) ∧
      (c.desc.dst0Cap.toNat < (treeBlob s.tree).length →
        FailsWith .treeSerialize s c ⟨.capDst0, min (treeBlob s.tree).length 4294967295⟩))

/-- R260: TREE_DESERIALIZE loads the tree of the blob and writes no byte; a corrupt blob leaves `T` unchanged and is
CORRUPT_TREE where R259 has it. -/
def Obligations.TreeDeserializeLoadsTheTree : Prop :=
  ∀ (s : State) (c : Context), s.runs c → ChecksOperands .treeDeserialize s c ∧
    (OperandsOk s.params.memBytes (usesOf .treeDeserialize) c.desc →
      (∀ e, parseTreeBlob (s.source0 c) = .error e →
        e.code = .corruptTree ∧ BlobFaultAt (s.source0 c) e.info ∧ FailsWith .treeDeserialize s c e) ∧
      (∀ tree, parseTreeBlob (s.source0 c) = .ok tree →
        ∃ t, exec .treeDeserialize s = .next t ∧ Succeeded c s t [] [] ∧ t.mem = s.mem ∧ t.tree = tree ∧
          t.treeNodes.toNat = tree.count ∧
          bytesLe32 t.treeNodes = (s.source0 c).take 4 ∧ t.bitcnt = s.bitcnt))

/-- R300: BIT_PACK writes the packed bits, `ceil(|bs| / 8)` bytes, and their number into `BITCNT`. -/
def Obligations.BitPackWritesThePayload : Prop :=
  ∀ (s : State) (c : Context), s.runs c → ChecksOperands .bitPack s c ∧
    (OperandsOk s.params.memBytes (usesOf .bitPack) c.desc →
      (∀ (k : Nat) (v : Byte), (s.source0 c)[k]? = some v → ¬IsBitByte v →
        (∀ u ∈ (s.source0 c).take k, IsBitByte u) → FailsWith .bitPack s c ⟨.badBits, k⟩) ∧
      (∀ bs : List Bit, s.source0 c = bytesOf bs →
        (pack bs).length = (bs.length + 7) / 8 ∧
        ((pack bs).length ≤ c.desc.dst0Cap.toNat →
          ∃ t, exec .bitPack s = .next t ∧ Succeeded c s t (pack bs) [] ∧ t.bitcnt.toNat = bs.length ∧
            t.tree = s.tree ∧ t.treeNodes = s.treeNodes) ∧
        (c.desc.dst0Cap.toNat < (pack bs).length →
          FailsWith .bitPack s c ⟨.capDst0, min (pack bs).length 4294967295⟩)))

/-- R301, R302: BIT_UNPACK writes the bits of the payload: all `8 * |p|` in pad mode, the first `BITCNT` in exact mode, where a
`BITCNT` that does not name the last byte's bits is BAD_BITCNT. -/
def Obligations.BitUnpackWritesTheBits : Prop :=
  ∀ (s : State) (c : Context), s.runs c → ChecksOperands .bitUnpack s c ∧
    (OperandsOk s.params.memBytes (usesOf .bitUnpack) c.desc →
      (c.ctrl.getLsbD 1 = true →
        (8 * c.desc.src0Len.toNat < c.bitcnt.toNat ∨ c.bitcnt.toNat + 7 < 8 * c.desc.src0Len.toNat) →
        FailsWith .bitUnpack s c ⟨.badBitcnt, c.bitcnt.toNat⟩) ∧
      (∀ bs : List Bit,
        (c.ctrl.getLsbD 1 = false → bs = (s.source0 c).flatMap bitsMsbFirst) →
        (c.ctrl.getLsbD 1 = true →
          (c.bitcnt.toNat ≤ 8 * c.desc.src0Len.toNat ∧ 8 * c.desc.src0Len.toNat ≤ c.bitcnt.toNat + 7) ∧
          bs = ((s.source0 c).flatMap bitsMsbFirst).take c.bitcnt.toNat) →
        bs.length = (if c.ctrl.getLsbD 1 then c.bitcnt.toNat else 8 * c.desc.src0Len.toNat) ∧
        (bs.length ≤ c.desc.dst0Cap.toNat →
          ∃ t, exec .bitUnpack s = .next t ∧ Succeeded c s t (bytesOf bs) [] ∧ KeepsTreeAndCount s t) ∧
        (c.desc.dst0Cap.toNat < bs.length → FailsWith .bitUnpack s c ⟨.capDst0, min bs.length 4294967295⟩)))

/-- R320, R321: COMPRESS writes the blob and the payload of the token string. The first intermediate that does not fit is SCRATCH
with its size; then a bit count that does not fit `BITCNT` is. -/
def Obligations.CompressWritesBlobAndPayload : Prop :=
  ∀ (s : State) (c : Context) (toks : List Token) (ts : Bytes), s.runs c →
    toks = lz77 s.params.lzTie (s.source0 c) →
    (c.ctrl.getLsbD 0 = false → ts = text toks) → (c.ctrl.getLsbD 0 = true → ts = recs toks) →
    ChecksOperands .compress s c ∧
    ∃ bs, hufEncode ts (build ts) = .ok bs ∧
      (OperandsOk s.params.memBytes (usesOf .compress) c.desc →
        (∀ need : Nat,
          (¬FitsScratch s.params.scratchBytes (10 * toks.length) ∧ need = 10 * toks.length ∨
            FitsScratch s.params.scratchBytes (10 * toks.length) ∧
              (¬FitsScratch s.params.scratchBytes ts.length ∧ need = ts.length ∨
                FitsScratch s.params.scratchBytes ts.length ∧
                  (¬FitsScratch s.params.scratchBytes ((bs.length + 7) / 8) ∧ need = (bs.length + 7) / 8 ∨
                    FitsScratch s.params.scratchBytes ((bs.length + 7) / 8) ∧ 4294967295 < bs.length ∧
                      need = bs.length))) →
          FailsWith .compress s c ⟨.scratch, min need 4294967295⟩) ∧
        (FitsScratch s.params.scratchBytes (10 * toks.length) → FitsScratch s.params.scratchBytes ts.length →
          FitsScratch s.params.scratchBytes ((bs.length + 7) / 8) → bs.length ≤ 4294967295 →
          (c.desc.dst0Cap.toNat < (treeBlob (build ts)).length →
            FailsWith .compress s c ⟨.capDst0, min (treeBlob (build ts)).length 4294967295⟩) ∧
          ((treeBlob (build ts)).length ≤ c.desc.dst0Cap.toNat → c.desc.dst1Cap.toNat < (pack bs).length →
            FailsWith .compress s c ⟨.capDst1, min (pack bs).length 4294967295⟩) ∧
          ((treeBlob (build ts)).length ≤ c.desc.dst0Cap.toNat → (pack bs).length ≤ c.desc.dst1Cap.toNat →
            ∃ t, exec .compress s = .next t ∧ Succeeded c s t (treeBlob (build ts)) (pack bs) ∧
              t.tree = build ts ∧ t.treeNodes.toNat = (build ts).count ∧ t.bitcnt.toNat = bs.length)))

/-- R322, R321: DECOMPRESS, step by step, with its errors in their order, each with its code and its detail: CORRUPT_TREE (R259),
BAD_BITCNT (R301), SCRATCH, BAD_BITS (R255), FORMAT (R147, R141), BAD_TOKEN (R203), CAP_DST0. -/
def Obligations.DecompressWritesTheBytes : Prop :=
  (∀ s : Bytes, parseTokenString false s = parseText s ∧ parseTokenString true s = parseRecs s) ∧
  ∀ (s : State) (c : Context), s.runs c → ChecksOperands .decompress s c ∧
    (OperandsOk s.params.memBytes (usesOf .decompress) c.desc →
      (∀ e, parseTreeBlob (s.source0 c) = .error e →
        e.code = .corruptTree ∧ BlobFaultAt (s.source0 c) e.info ∧ FailsWith .decompress s c e) ∧
      (∀ t1, parseTreeBlob (s.source0 c) = .ok t1 →
        (∀ e, unpack (s.source1 c) (c.ctrl.getLsbD 1) c.bitcnt.toNat = .error e →
          e = ⟨.badBitcnt, c.bitcnt.toNat⟩ ∧ FailsWith .decompress s c e) ∧
        (∀ bs, unpack (s.source1 c) (c.ctrl.getLsbD 1) c.bitcnt.toNat = .ok bs →
          (¬FitsScratch s.params.scratchBytes ((bs.length + 7) / 8) →
            FailsWith .decompress s c ⟨.scratch, min ((bs.length + 7) / 8) 4294967295⟩) ∧
          (FitsScratch s.params.scratchBytes ((bs.length + 7) / 8) →
            (∀ e, hufDecode bs t1 (c.ctrl.getLsbD 1) = .error e →
              e = ⟨.badBits, if t1 = .empty then 0 else bs.length⟩ ∧ FailsWith .decompress s c e) ∧
            (∀ ts, hufDecode bs t1 (c.ctrl.getLsbD 1) = .ok ts →
              (¬FitsScratch s.params.scratchBytes ts.length →
                FailsWith .decompress s c ⟨.scratch, min ts.length 4294967295⟩) ∧
              (FitsScratch s.params.scratchBytes ts.length →
                (∀ e, parseTokenString (c.ctrl.getLsbD 0) ts = .error e →
                  e.code = .format ∧ (c.ctrl.getLsbD 0 = false → TextFaultAt ts e.info) ∧
                    (c.ctrl.getLsbD 0 = true → RecordFaultAt ts e.info) ∧ FailsWith .decompress s c e) ∧
                (∀ toks, parseTokenString (c.ctrl.getLsbD 0) ts = .ok toks →
                  (¬FitsScratch s.params.scratchBytes (10 * toks.length) →
                    FailsWith .decompress s c ⟨.scratch, min (10 * toks.length) 4294967295⟩) ∧
                  (FitsScratch s.params.scratchBytes (10 * toks.length) →
                    (∀ e, replay toks = .error e →
                      e.code = .badToken ∧ FirstBadToken toks e.info ∧ FailsWith .decompress s c e) ∧
                    (∀ out, replay toks = .ok out →
                      (c.desc.dst0Cap.toNat < out.length →
                        FailsWith .decompress s c ⟨.capDst0, min out.length 4294967295⟩) ∧
                      (out.length ≤ c.desc.dst0Cap.toNat →
                        ∃ t, exec .decompress s = .next t ∧ Succeeded c s t out [] ∧ t.tree = t1 ∧
                          t.treeNodes.toNat = t1.count ∧ t.bitcnt = s.bitcnt))))))))))

/-! ### The codecs -/

/-- R200: the match length at `i` against `j` is the number of bytes that agree, which ends at the end of the input or at two
bytes that differ. R201, R202: the match the search keeps is a longest one of the window, and among those the one `LZ_TIE`
names: the largest offset, or the smallest. A position with no match has the offset 0. The tokens of `lz77` are those matches: each
one at the position where the tokens before it end, and none once the input is used up. -/
def Obligations.SearchKeepsALongestMatch : Prop :=
  (∀ (s : Bytes) (i j : Nat), j < i → i < s.length →
    i + matchLen s i j ≤ s.length ∧ (∀ k, k < matchLen s i j → s[j + k]? = s[i + k]?) ∧
    (i + matchLen s i j = s.length ∨ s[j + matchLen s i j]? ≠ s[i + matchLen s i j]?)) ∧
  (∀ (tie : LzTie) (s : Bytes) (k i : Nat), s.length ≤ 2147483647 →
    i = (((lz77 tie s).take k).map fun t => t.length.toNat + 1).sum →
    (lz77 tie s)[k]? =
      if i < s.length then
        some ⟨BitVec.ofNat 32 (searchMatch tie s i).2, BitVec.ofNat 32 (searchMatch tie s i).1,
          s[i + (searchMatch tie s i).1]?⟩
      else none) ∧
  ∀ (tie : LzTie) (s : Bytes) (i : Nat), i < s.length →
    (∀ j, i - 32768 ≤ j → j < i → matchLen s i j ≤ (searchMatch tie s i).1) ∧
    ((searchMatch tie s i).1 = 0 → (searchMatch tie s i).2 = 0) ∧
    (0 < (searchMatch tie s i).1 →
      1 ≤ (searchMatch tie s i).2 ∧ (searchMatch tie s i).2 ≤ min i 32768 ∧
      matchLen s i (i - (searchMatch tie s i).2) = (searchMatch tie s i).1 ∧
      ∀ j, i - 32768 ≤ j → j < i → matchLen s i j = (searchMatch tie s i).1 →
        match tie with
        | .firstScanned => i - j ≤ (searchMatch tie s i).2
        | .nearest => (searchMatch tie s i).2 ≤ i - j)

/-- R142: the bounds of the tokens that LZ_COMPRESS emits for an input that fits `DMEM`. -/
def Obligations.LzTokenBounds : Prop :=
  ∀ (tie : LzTie) (s : Bytes), s.length ≤ 2147483647 →
    (∀ t ∈ lz77 tie s, t.offset.toNat ≤ 32768 ∧ t.length.toNat + 1 ≤ s.length ∧
      (t.offset.toNat = 0 ↔ t.length.toNat = 0)) ∧
    (∀ (k : Nat) (t : Token), (lz77 tie s)[k]? = some t → t.next = none →
      k + 1 = (lz77 tie s).length ∧ 1 ≤ t.length.toNat) ∧
    (lz77 tie s).length ≤ s.length

/-- R206: replaying the tokens of `lz77(s)` gives `s`, under both settings of `LZ_TIE`. -/
def Obligations.LzRoundTrip : Prop :=
  ∀ (tie : LzTie) (s : Bytes), s.length ≤ 2147483647 → replay (lz77 tie s) = .ok s

/-- R207: when no byte of `s` equals an earlier byte within the window, every token is a literal. -/
def Obligations.UnrepeatedInputGivesLiterals : Prop :=
  ∀ (tie : LzTie) (s : Bytes),
    (∀ i j, j < i → i - 32768 ≤ j → (h : i < s.length) → s[j]? ≠ some s[i]) →
    lz77 tie s = s.map fun b => ⟨0, 0, some b⟩

/-- R140: the ten bytes of a token record. R140, R141: record streams and token sequences correspond one to one, and a stream that
does not parse is FORMAT where its first fault is. -/
def Obligations.RecordStreamsRoundTrip : Prop :=
  recs [] = [] ∧
  (∀ (t : Token) (ts : List Token), recs (t :: ts) =
    ((List.range 4).map fun k => t.offset.extractLsb' (8 * k) 8) ++
      ((List.range 4).map fun k => t.length.extractLsb' (8 * k) 8) ++
      (match t.next with
        | some b => [0x01#8, b]
        | none => [0x00#8, 0x00#8]) ++ recs ts) ∧
  (∀ ts : List Token, parseRecs (recs ts) = .ok ts ∧ (recs ts).length = 10 * ts.length) ∧
  (∀ (s : Bytes) (ts : List Token), parseRecs s = .ok ts → recs ts = s) ∧
  (∀ (s : Bytes) (e : EngineError), parseRecs s = .error e → e.code = .format ∧ RecordFaultAt s e.info)

/-- R145, R146: the bytes of a text. R148: the text format is unambiguous for every byte: it parses back, and only to itself.
R147: a byte string that does not parse is FORMAT at the first byte with which it is the start of no text, or at its end. -/
def Obligations.TextRoundTrip : Prop :=
  text [] = [] ∧
  (∀ (t : Token) (ts : List Token), text (t :: ts) =
    [0x28#8] ++ decimal t.offset ++ [0x2C#8] ++ decimal t.length ++ [0x2C#8] ++ t.next.toList ++ [0x29#8] ++ text ts) ∧
  (∀ v : Word, decimal v =
    if v = 0 then [0x30#8] else (Nat.digits 10 v.toNat).reverse.map fun d => BitVec.ofNat 8 (0x30 + d)) ∧
  (∀ ts : List Token, parseText (text ts) = .ok ts) ∧
  (∀ (s : Bytes) (ts : List Token), parseText s = .ok ts → text ts = s) ∧
  (∀ (s : Bytes) (e : EngineError), parseText s = .error e → e.code = .format ∧ TextFaultAt s e.info)

/-- R251: the tree of a byte string is the one its leaf entries merge to, and `EMPTY` for the empty one. R250: each leaf stores the
count of its byte and each internal node the sum below it, as itself when it fits `s32` (what stands for a larger one is a free
value, assumption 3). R9, R50, R252: it has a leaf for exactly the bytes of the string, `2L - 1 <= 511` nodes, and codes of 1
to 255 bits. -/
def Obligations.BuiltTreesAreLegal : Prop :=
  build [] = .empty ∧ (∀ n : Nat, n ≤ 2147483647 → (freqWord n).toNat = n) ∧
  ∀ s : Bytes,
    (s ≠ [] → ∃ root, build s = .node root ∧ MergesTo (leafEntries s).length (leafEntries s) root ∧ root.Weighted s) ∧
    (build s).wf = true ∧
    (∀ v, v ∈ (build s).leafValues ↔ v ∈ s) ∧
    (∀ v, v ∈ s ↔ code (build s) v ≠ none) ∧
    (∀ v c, code (build s) v = some c → 1 ≤ c.length ∧ c.length ≤ 255)

/-- R252: the code of a byte is its path from the root, and `0` for a single leaf. R262: no code of a built tree is the start of
the code of another byte. -/
def Obligations.BuiltCodesArePrefixFree : Prop :=
  (∀ v : Byte, code .empty v = none) ∧
  (∀ (u v : Byte) (f : Word), code (.node (.leaf u f)) v = if u = v then some [false] else none) ∧
  (∀ (f : Word) (l r : Node) (v : Byte) (c : List Bit), (Node.internal f l r).leafValues.Nodup →
    (code (.node (.internal f l r)) v = some c ↔ Node.PathTo v (.internal f l r) c)) ∧
  ∀ (s : Bytes) (u v : Byte) (cu cv : List Bit), u ≠ v → code (build s) u = some cu → code (build s) v = some cv →
    ∀ rest, cv ≠ cu ++ rest

/-- R254: encoding puts the codes one after another, and misses at the first byte that has none. R263: encoding with the built
tree never misses, and decoding gives the bytes back in both modes. -/
def Obligations.HuffmanRoundTrip : Prop :=
  (∀ (s : Bytes) (t : Tree), (∀ v ∈ s, code t v ≠ none) →
    hufEncode s t = .ok (s.flatMap fun v => (code t v).getD [])) ∧
  (∀ (s : Bytes) (t : Tree) (k : Nat) (v : Byte), s[k]? = some v → code t v = none →
    (∀ u ∈ s.take k, code t u ≠ none) → hufEncode s t = .error ⟨.encodeMiss, k⟩) ∧
  ∀ (s : Bytes) (exact : Bool), ∃ bs, hufEncode s (build s) = .ok bs ∧ hufDecode bs (build s) exact = .ok s

/-- R255: with `EMPTY` no bits decode to no bytes and others are BAD_BITS(0); with a single leaf every bit, 0 or 1, emits it; else,
after whole codes, a path that stops below the root is BAD_BITS with the bit count in exact mode, and is dropped in pad mode. -/
def Obligations.PartialPathsByMode : Prop :=
  (∀ (bs : List Bit) (exact : Bool),
    hufDecode bs .empty exact = if bs = [] then .ok [] else .error ⟨.badBits, 0⟩) ∧
  (∀ (v : Byte) (f : Word) (bs : List Bit) (exact : Bool), ∃ out, hufDecode bs (.node (.leaf v f)) exact = .ok out ∧
    out.length = bs.length ∧ ∀ u ∈ out, u = v) ∧
  ∀ (f : Word) (l r : Node) (vs : Bytes) (bs tail : List Bit),
    (Node.internal f l r).leafValues.Nodup →
    hufEncode vs (.node (.internal f l r)) = .ok bs →
    (hufDecode bs (.node (.internal f l r)) true = .ok vs ∧ hufDecode bs (.node (.internal f l r)) false = .ok vs) ∧
    (tail ≠ [] → (∃ v c rest, code (.node (.internal f l r)) v = some c ∧ c = tail ++ rest ∧ rest ≠ []) →
      hufDecode (bs ++ tail) (.node (.internal f l r)) true = .error ⟨.badBits, (bs ++ tail).length⟩ ∧
      hufDecode (bs ++ tail) (.node (.internal f l r)) false = .ok vs)

/-- R150, R257: the bytes of a tree's blob. R264: reading the blob of a legal tree gives the tree back. -/
def Obligations.TreeBlobRoundTrip : Prop :=
  treeBlob .empty = [0x00#8, 0x00#8, 0x00#8, 0x00#8] ∧
  (∀ n : Node, treeBlob (.node n) = bytesLe32 (BitVec.ofNat 32 n.count) ++ n.preorder.flatMap BlobRecord.bytes) ∧
  ∀ t : Tree, t.wf = true → parseTreeBlob (treeBlob t) = .ok t

/-- R259: a blob that is read gives a legal tree, and is the blob of that tree. -/
def Obligations.AcceptedBlobsAreLegalTrees : Prop :=
  ∀ (b : Bytes) (t : Tree), parseTreeBlob b = .ok t → t.wf = true ∧ treeBlob t = b

/-- R85, R161: where each bit of a packed sequence stands, and that the padding bits are 0. -/
def Obligations.PackedBitPositions : Prop :=
  ∀ bs : List Bit,
    (pack bs).length = (bs.length + 7) / 8 ∧
    (∀ j b, bs[j]? = some b → ((pack bs).getD (j / 8) 0).getLsbD (7 - j % 8) = b) ∧
    (∀ j, bs.length ≤ j → ((pack bs).getD (j / 8) 0).getLsbD (7 - j % 8) = false)

/-- R301: unpacking gives the bits of the bytes, bit 7 first; in exact mode it needs a count that names bits of the last byte, and
gives the first so many. R303: unpacking a packed sequence gives it back in exact mode, and followed by its padding zeros in pad
mode. -/
def Obligations.PackRoundTrip : Prop :=
  (∀ b : Byte, bitsMsbFirst b = (List.range 8).map fun k => b.getLsbD (7 - k)) ∧
  (∀ (p : Bytes) (x : Nat),
    unpack p false x = .ok (p.flatMap bitsMsbFirst) ∧
    (x ≤ 8 * p.length → 8 * p.length ≤ x + 7 → unpack p true x = .ok ((p.flatMap bitsMsbFirst).take x)) ∧
    ((8 * p.length < x ∨ x + 7 < 8 * p.length) → unpack p true x = .error ⟨.badBitcnt, x⟩)) ∧
  ∀ (bs : List Bit) (x : Nat),
    unpack (pack bs) false x = .ok (bs ++ List.replicate ((8 - bs.length % 8) % 8) false) ∧
    unpack (pack bs) true bs.length = .ok bs

/-- R323: what COMPRESS makes, DECOMPRESS in exact mode turns back into the input, with the same tree, for both settings of
`LZ_TIE` and of `CTRL.TOKFMT`. -/
def Obligations.PipelineRoundTrip : Prop :=
  ∀ (x y : OpInput) (r : OpResult) (m : Nat), x.src0.length ≤ 2147483647 → opCompress x = .ok r → r.bitcnt = some m →
    y.params = x.params → y.src0 = r.out0 → y.src1 = r.out1 → y.bitcnt = BitVec.ofNat 32 m →
    y.ctrl.getLsbD 1 = true → y.ctrl.getLsbD 0 = x.ctrl.getLsbD 0 →
    opDecompress y = .ok { out0 := x.src0, tree := r.tree }

/-- The leaf reached from a node by left steps only, with its depth below that node. -/
def leftmostLeaf : Node → Byte × Nat
  | .leaf v _ => (v, 0)
  | .internal _ l _ => ((leftmostLeaf l).1, (leftmostLeaf l).2 + 1)

/-- R324, in pad mode, with `SCRATCH_BYTES` unbounded: the empty input comes back. Else `k` padding zeros decode to `k / d`
spurious copies of the leftmost leaf `v` at depth `d`. With none the round trip holds; with some, BINARY is FORMAT at the end of
the token string, and so is TEXT, one further for `(`. One case is not as R324 says (assumption 10): in TEXT, when `v` is `)`
and the token string ends with an absent token, the first spurious `)` completes that token as its next byte. With no other
spurious byte the output is the input followed by `)`. -/
def Obligations.PadModeOutcome : Prop :=
  ∀ (x y : OpInput) (r : OpResult) (m : Nat), x.src0.length ≤ 2147483647 →
    x.params.scratchBytes = none → opCompress x = .ok r → r.bitcnt = some m →
    y.params = x.params → y.src0 = r.out0 → y.src1 = r.out1 →
    y.ctrl.getLsbD 1 = false → y.ctrl.getLsbD 0 = x.ctrl.getLsbD 0 →
    (x.src0 = [] → m = 0 ∧ r.tree = some .empty ∧ opDecompress y = .ok { out0 := [], tree := some .empty }) ∧
    (x.src0 ≠ [] → ∃ root, r.tree = some (.node root)) ∧
    ∀ (root : Node) (k : Nat), r.tree = some (.node root) → k = (8 - m % 8) % 8 →
      (k < (leftmostLeaf root).2 → opDecompress y = .ok { out0 := x.src0, tree := r.tree }) ∧
      ((leftmostLeaf root).2 ≤ k → x.ctrl.getLsbD 0 = true →
        opDecompress y = .error ⟨.format, (recs (lz77 x.params.lzTie x.src0)).length⟩) ∧
      ((leftmostLeaf root).2 ≤ k → x.ctrl.getLsbD 0 = false → (leftmostLeaf root).1 ≠ 0x29#8 →
        opDecompress y = .error ⟨.format, (text (lz77 x.params.lzTie x.src0)).length +
          (if (leftmostLeaf root).1 = 0x28#8 then 1 else 0)⟩) ∧
      ((leftmostLeaf root).2 ≤ k → x.ctrl.getLsbD 0 = false → (leftmostLeaf root).1 = 0x29#8 →
        (∀ t, (lz77 x.params.lzTie x.src0).getLast? = some t → t.next ≠ none →
          opDecompress y = .error ⟨.format, (text (lz77 x.params.lzTie x.src0)).length⟩) ∧
        (∀ t, (lz77 x.params.lzTie x.src0).getLast? = some t → t.next = none →
          (k < 2 * (leftmostLeaf root).2 → opDecompress y = .ok { out0 := x.src0 ++ [0x29#8], tree := r.tree }) ∧
          (2 * (leftmostLeaf root).2 ≤ k →
            opDecompress y = .error ⟨.format, (text (lz77 x.params.lzTie x.src0)).length + 1⟩)))
end

