-- ==== Sys2Proof/Laws/State.lean ====
section
/-! SUPPORT. What each update of State does to each field, true by rfl, so that no proof unfolds an update. -/

namespace Sys2Proof.Machine

/-! ### `refreshIrq` -/

@[simp] theorem State.refreshIrq_params (s : State) :
    (s.refreshIrq).params = s.params := rfl
@[simp] theorem State.refreshIrq_ctrl (s : State) :
    (s.refreshIrq).ctrl = s.ctrl := rfl
@[simp] theorem State.refreshIrq_cmd (s : State) :
    (s.refreshIrq).cmd = s.cmd := rfl
@[simp] theorem State.refreshIrq_done (s : State) :
    (s.refreshIrq).done = s.done := rfl
@[simp] theorem State.refreshIrq_err (s : State) :
    (s.refreshIrq).err = s.err := rfl
@[simp] theorem State.refreshIrq_errCode (s : State) :
    (s.refreshIrq).errCode = s.errCode := rfl
@[simp] theorem State.refreshIrq_errinfo (s : State) :
    (s.refreshIrq).errinfo = s.errinfo := rfl
@[simp] theorem State.refreshIrq_treeNodes (s : State) :
    (s.refreshIrq).treeNodes = s.treeNodes := rfl
@[simp] theorem State.refreshIrq_bitcnt (s : State) :
    (s.refreshIrq).bitcnt = s.bitcnt := rfl
@[simp] theorem State.refreshIrq_desc (s : State) :
    (s.refreshIrq).desc = s.desc := rfl
@[simp] theorem State.refreshIrq_dst0Len (s : State) :
    (s.refreshIrq).dst0Len = s.dst0Len := rfl
@[simp] theorem State.refreshIrq_dst1Len (s : State) :
    (s.refreshIrq).dst1Len = s.dst1Len := rfl
@[simp] theorem State.refreshIrq_tree (s : State) :
    (s.refreshIrq).tree = s.tree := rfl
@[simp] theorem State.refreshIrq_mem (s : State) :
    (s.refreshIrq).mem = s.mem := rfl
@[simp] theorem State.refreshIrq_seq (s : State) :
    (s.refreshIrq).seq = s.seq := rfl
@[simp] theorem State.refreshIrq_irq (s : State) :
    (s.refreshIrq).irq = irqLevel s.ctrl s.done s.err := rfl
@[simp] theorem State.refreshIrq_draws (s : State) :
    (s.refreshIrq).draws = s.draws := rfl
@[simp] theorem State.refreshIrq_delays (s : State) :
    (s.refreshIrq).delays = s.delays := rfl
@[simp] theorem State.refreshIrq_inputs (s : State) :
    (s.refreshIrq).inputs = s.inputs := rfl
@[simp] theorem State.refreshIrq_readLog (s : State) :
    (s.refreshIrq).readLog = s.readLog := rfl

/-! ### `accept` -/

@[simp] theorem State.accept_params (s : State) (w : Word) :
    (s.accept w).params = s.params := rfl
@[simp] theorem State.accept_ctrl (s : State) (w : Word) :
    (s.accept w).ctrl = s.ctrl := rfl
@[simp] theorem State.accept_cmd (s : State) (w : Word) :
    (s.accept w).cmd = w := rfl
@[simp] theorem State.accept_done (s : State) (w : Word) :
    (s.accept w).done = false := rfl
@[simp] theorem State.accept_err (s : State) (w : Word) :
    (s.accept w).err = false := rfl
@[simp] theorem State.accept_errCode (s : State) (w : Word) :
    (s.accept w).errCode = .noError := rfl
@[simp] theorem State.accept_errinfo (s : State) (w : Word) :
    (s.accept w).errinfo = s.errinfo := rfl
@[simp] theorem State.accept_treeNodes (s : State) (w : Word) :
    (s.accept w).treeNodes = s.treeNodes := rfl
@[simp] theorem State.accept_bitcnt (s : State) (w : Word) :
    (s.accept w).bitcnt = s.bitcnt := rfl
@[simp] theorem State.accept_desc (s : State) (w : Word) :
    (s.accept w).desc = s.desc := rfl
@[simp] theorem State.accept_dst0Len (s : State) (w : Word) :
    (s.accept w).dst0Len = s.dst0Len := rfl
@[simp] theorem State.accept_dst1Len (s : State) (w : Word) :
    (s.accept w).dst1Len = s.dst1Len := rfl
@[simp] theorem State.accept_tree (s : State) (w : Word) :
    (s.accept w).tree = s.tree := rfl
@[simp] theorem State.accept_mem (s : State) (w : Word) :
    (s.accept w).mem = s.mem := rfl
@[simp] theorem State.accept_seq (s : State) (w : Word) :
    (s.accept w).seq = .busy (s.latch w) (s.delays.headD 0) := rfl
@[simp] theorem State.accept_irq (s : State) (w : Word) :
    (s.accept w).irq = irqLevel s.ctrl false false := rfl
@[simp] theorem State.accept_draws (s : State) (w : Word) :
    (s.accept w).draws = s.draws := rfl
@[simp] theorem State.accept_delays (s : State) (w : Word) :
    (s.accept w).delays = s.delays.tail := rfl
@[simp] theorem State.accept_inputs (s : State) (w : Word) :
    (s.accept w).inputs = s.inputs := rfl
@[simp] theorem State.accept_readLog (s : State) (w : Word) :
    (s.accept w).readLog = s.readLog := rfl

/-! ### `clearStatus` -/

@[simp] theorem State.clearStatus_params (s : State) (v : Word) :
    (s.clearStatus v).params = s.params := rfl
@[simp] theorem State.clearStatus_ctrl (s : State) (v : Word) :
    (s.clearStatus v).ctrl = s.ctrl := rfl
@[simp] theorem State.clearStatus_cmd (s : State) (v : Word) :
    (s.clearStatus v).cmd = s.cmd := rfl
@[simp] theorem State.clearStatus_done (s : State) (v : Word) :
    (s.clearStatus v).done = (s.done && !v.getLsbD 1) := rfl
@[simp] theorem State.clearStatus_err (s : State) (v : Word) :
    (s.clearStatus v).err = (s.err && !v.getLsbD 2) := rfl
@[simp] theorem State.clearStatus_errCode (s : State) (v : Word) :
    (s.clearStatus v).errCode = (if v.getLsbD 2 then .noError else s.errCode) := rfl
@[simp] theorem State.clearStatus_errinfo (s : State) (v : Word) :
    (s.clearStatus v).errinfo = s.errinfo := rfl
@[simp] theorem State.clearStatus_treeNodes (s : State) (v : Word) :
    (s.clearStatus v).treeNodes = s.treeNodes := rfl
@[simp] theorem State.clearStatus_bitcnt (s : State) (v : Word) :
    (s.clearStatus v).bitcnt = s.bitcnt := rfl
@[simp] theorem State.clearStatus_desc (s : State) (v : Word) :
    (s.clearStatus v).desc = s.desc := rfl
@[simp] theorem State.clearStatus_dst0Len (s : State) (v : Word) :
    (s.clearStatus v).dst0Len = s.dst0Len := rfl
@[simp] theorem State.clearStatus_dst1Len (s : State) (v : Word) :
    (s.clearStatus v).dst1Len = s.dst1Len := rfl
@[simp] theorem State.clearStatus_tree (s : State) (v : Word) :
    (s.clearStatus v).tree = s.tree := rfl
@[simp] theorem State.clearStatus_mem (s : State) (v : Word) :
    (s.clearStatus v).mem = s.mem := rfl
@[simp] theorem State.clearStatus_seq (s : State) (v : Word) :
    (s.clearStatus v).seq = s.seq := rfl
@[simp] theorem State.clearStatus_irq (s : State) (v : Word) :
    (s.clearStatus v).irq = irqLevel s.ctrl (s.done && !v.getLsbD 1) (s.err && !v.getLsbD 2) := rfl
@[simp] theorem State.clearStatus_draws (s : State) (v : Word) :
    (s.clearStatus v).draws = s.draws := rfl
@[simp] theorem State.clearStatus_delays (s : State) (v : Word) :
    (s.clearStatus v).delays = s.delays := rfl
@[simp] theorem State.clearStatus_inputs (s : State) (v : Word) :
    (s.clearStatus v).inputs = s.inputs := rfl
@[simp] theorem State.clearStatus_readLog (s : State) (v : Word) :
    (s.clearStatus v).readLog = s.readLog := rfl

/-! ### `errorCompletion` -/

@[simp] theorem State.errorCompletion_params (s : State) (u : Uses) (c : Context) (e : EngineError) :
    (s.errorCompletion u c e).params = s.params := rfl
@[simp] theorem State.errorCompletion_ctrl (s : State) (u : Uses) (c : Context) (e : EngineError) :
    (s.errorCompletion u c e).ctrl = s.ctrl := rfl
@[simp] theorem State.errorCompletion_cmd (s : State) (u : Uses) (c : Context) (e : EngineError) :
    (s.errorCompletion u c e).cmd = s.cmd := rfl
@[simp] theorem State.errorCompletion_done (s : State) (u : Uses) (c : Context) (e : EngineError) :
    (s.errorCompletion u c e).done = s.done := rfl
@[simp] theorem State.errorCompletion_err (s : State) (u : Uses) (c : Context) (e : EngineError) :
    (s.errorCompletion u c e).err = true := rfl
@[simp] theorem State.errorCompletion_errCode (s : State) (u : Uses) (c : Context) (e : EngineError) :
    (s.errorCompletion u c e).errCode = e.code := rfl
@[simp] theorem State.errorCompletion_errinfo (s : State) (u : Uses) (c : Context) (e : EngineError) :
    (s.errorCompletion u c e).errinfo = infoWord e.info := rfl
@[simp] theorem State.errorCompletion_treeNodes (s : State) (u : Uses) (c : Context) (e : EngineError) :
    (s.errorCompletion u c e).treeNodes = s.treeNodes := rfl
@[simp] theorem State.errorCompletion_bitcnt (s : State) (u : Uses) (c : Context) (e : EngineError) :
    (s.errorCompletion u c e).bitcnt = s.bitcnt := rfl
@[simp] theorem State.errorCompletion_desc (s : State) (u : Uses) (c : Context) (e : EngineError) :
    (s.errorCompletion u c e).desc = s.desc := rfl
@[simp] theorem State.errorCompletion_dst0Len (s : State) (u : Uses) (c : Context) (e : EngineError) :
    (s.errorCompletion u c e).dst0Len = 0 := rfl
@[simp] theorem State.errorCompletion_dst1Len (s : State) (u : Uses) (c : Context) (e : EngineError) :
    (s.errorCompletion u c e).dst1Len = 0 := rfl
@[simp] theorem State.errorCompletion_tree (s : State) (u : Uses) (c : Context) (e : EngineError) :
    (s.errorCompletion u c e).tree = s.tree := rfl
@[simp] theorem State.errorCompletion_mem (s : State) (u : Uses) (c : Context) (e : EngineError) :
    (s.errorCompletion u c e).mem = (if e.code.isCheck then s.mem else scrambleUsed u c.desc s.draws s.mem) := rfl
@[simp] theorem State.errorCompletion_seq (s : State) (u : Uses) (c : Context) (e : EngineError) :
    (s.errorCompletion u c e).seq = .idle := rfl
@[simp] theorem State.errorCompletion_irq (s : State) (u : Uses) (c : Context) (e : EngineError) :
    (s.errorCompletion u c e).irq = irqLevel s.ctrl s.done true := rfl
@[simp] theorem State.errorCompletion_draws (s : State) (u : Uses) (c : Context) (e : EngineError) :
    (s.errorCompletion u c e).draws = s.draws + 1 := rfl
@[simp] theorem State.errorCompletion_delays (s : State) (u : Uses) (c : Context) (e : EngineError) :
    (s.errorCompletion u c e).delays = s.delays := rfl
@[simp] theorem State.errorCompletion_inputs (s : State) (u : Uses) (c : Context) (e : EngineError) :
    (s.errorCompletion u c e).inputs = s.inputs := rfl
@[simp] theorem State.errorCompletion_readLog (s : State) (u : Uses) (c : Context) (e : EngineError) :
    (s.errorCompletion u c e).readLog = s.readLog := rfl

/-! ### `successCompletion` -/

@[simp] theorem State.successCompletion_params (s : State) (u : Uses) (c : Context) (r : OpResult) :
    (s.successCompletion u c r).params = s.params := rfl
@[simp] theorem State.successCompletion_ctrl (s : State) (u : Uses) (c : Context) (r : OpResult) :
    (s.successCompletion u c r).ctrl = s.ctrl := rfl
@[simp] theorem State.successCompletion_cmd (s : State) (u : Uses) (c : Context) (r : OpResult) :
    (s.successCompletion u c r).cmd = s.cmd := rfl
@[simp] theorem State.successCompletion_done (s : State) (u : Uses) (c : Context) (r : OpResult) :
    (s.successCompletion u c r).done = true := rfl
@[simp] theorem State.successCompletion_err (s : State) (u : Uses) (c : Context) (r : OpResult) :
    (s.successCompletion u c r).err = s.err := rfl
@[simp] theorem State.successCompletion_errCode (s : State) (u : Uses) (c : Context) (r : OpResult) :
    (s.successCompletion u c r).errCode = s.errCode := rfl
@[simp] theorem State.successCompletion_errinfo (s : State) (u : Uses) (c : Context) (r : OpResult) :
    (s.successCompletion u c r).errinfo = 0 := rfl
@[simp] theorem State.successCompletion_treeNodes (s : State) (u : Uses) (c : Context) (r : OpResult) :
    (s.successCompletion u c r).treeNodes = (match r.tree with | some t => BitVec.ofNat 32 t.count | none => s.treeNodes) := rfl
@[simp] theorem State.successCompletion_bitcnt (s : State) (u : Uses) (c : Context) (r : OpResult) :
    (s.successCompletion u c r).bitcnt = (match r.bitcnt with | some b => BitVec.ofNat 32 b | none => s.bitcnt) := rfl
@[simp] theorem State.successCompletion_desc (s : State) (u : Uses) (c : Context) (r : OpResult) :
    (s.successCompletion u c r).desc = s.desc := rfl
@[simp] theorem State.successCompletion_dst0Len (s : State) (u : Uses) (c : Context) (r : OpResult) :
    (s.successCompletion u c r).dst0Len = (if u.dst0 then BitVec.ofNat 32 r.out0.length else 0) := rfl
@[simp] theorem State.successCompletion_dst1Len (s : State) (u : Uses) (c : Context) (r : OpResult) :
    (s.successCompletion u c r).dst1Len = (if u.dst1 then BitVec.ofNat 32 r.out1.length else 0) := rfl
@[simp] theorem State.successCompletion_tree (s : State) (u : Uses) (c : Context) (r : OpResult) :
    (s.successCompletion u c r).tree = r.tree.getD s.tree := rfl
@[simp] theorem State.successCompletion_mem (s : State) (u : Uses) (c : Context) (r : OpResult) :
    (s.successCompletion u c r).mem = writeOutputs u c.desc r s.mem := rfl
@[simp] theorem State.successCompletion_seq (s : State) (u : Uses) (c : Context) (r : OpResult) :
    (s.successCompletion u c r).seq = .idle := rfl
@[simp] theorem State.successCompletion_irq (s : State) (u : Uses) (c : Context) (r : OpResult) :
    (s.successCompletion u c r).irq = irqLevel s.ctrl true s.err := rfl
@[simp] theorem State.successCompletion_draws (s : State) (u : Uses) (c : Context) (r : OpResult) :
    (s.successCompletion u c r).draws = s.draws := rfl
@[simp] theorem State.successCompletion_delays (s : State) (u : Uses) (c : Context) (r : OpResult) :
    (s.successCompletion u c r).delays = s.delays := rfl
@[simp] theorem State.successCompletion_inputs (s : State) (u : Uses) (c : Context) (r : OpResult) :
    (s.successCompletion u c r).inputs = s.inputs := rfl
@[simp] theorem State.successCompletion_readLog (s : State) (u : Uses) (c : Context) (r : OpResult) :
    (s.successCompletion u c r).readLog = s.readLog := rfl

/-! ### `resetInput` -/

@[simp] theorem State.resetInput_params (s : State) :
    (s.resetInput).params = s.params := rfl
@[simp] theorem State.resetInput_ctrl (s : State) :
    (s.resetInput).ctrl = 0x00000002#32 := rfl
@[simp] theorem State.resetInput_cmd (s : State) :
    (s.resetInput).cmd = 0 := rfl
@[simp] theorem State.resetInput_done (s : State) :
    (s.resetInput).done = false := rfl
@[simp] theorem State.resetInput_err (s : State) :
    (s.resetInput).err = false := rfl
@[simp] theorem State.resetInput_errCode (s : State) :
    (s.resetInput).errCode = .noError := rfl
@[simp] theorem State.resetInput_errinfo (s : State) :
    (s.resetInput).errinfo = 0 := rfl
@[simp] theorem State.resetInput_treeNodes (s : State) :
    (s.resetInput).treeNodes = 0 := rfl
@[simp] theorem State.resetInput_bitcnt (s : State) :
    (s.resetInput).bitcnt = 0 := rfl
@[simp] theorem State.resetInput_desc (s : State) :
    (s.resetInput).desc = ⟨0, 0, 0, 0, 0, 0, 0, 0⟩ := rfl
@[simp] theorem State.resetInput_dst0Len (s : State) :
    (s.resetInput).dst0Len = 0 := rfl
@[simp] theorem State.resetInput_dst1Len (s : State) :
    (s.resetInput).dst1Len = 0 := rfl
@[simp] theorem State.resetInput_tree (s : State) :
    (s.resetInput).tree = .empty := rfl
@[simp] theorem State.resetInput_mem (s : State) :
    (s.resetInput).mem = ⟨[], s.draws⟩ := rfl
@[simp] theorem State.resetInput_seq (s : State) :
    (s.resetInput).seq = .idle := rfl
@[simp] theorem State.resetInput_irq (s : State) :
    (s.resetInput).irq = false := rfl
@[simp] theorem State.resetInput_draws (s : State) :
    (s.resetInput).draws = s.draws + 1 := rfl
@[simp] theorem State.resetInput_delays (s : State) :
    (s.resetInput).delays = s.delays := rfl
@[simp] theorem State.resetInput_inputs (s : State) :
    (s.resetInput).inputs = s.inputs := rfl
@[simp] theorem State.resetInput_readLog (s : State) :
    (s.resetInput).readLog = s.readLog := rfl

/-! ### The latched context and `BUSY` -/

@[simp] theorem State.latch_word (s : State) (w : Word) : (s.latch w).word = w := rfl
@[simp] theorem State.latch_ctrl (s : State) (w : Word) : (s.latch w).ctrl = s.ctrl := rfl
@[simp] theorem State.latch_bitcnt (s : State) (w : Word) : (s.latch w).bitcnt = s.bitcnt := rfl
@[simp] theorem State.latch_desc (s : State) (w : Word) : (s.latch w).desc = s.desc := rfl

theorem State.isBusy_of_busy {s : State} {c : Context} {n : Nat} (h : s.seq = .busy c n) : s.isBusy = true := by
  simp [State.isBusy, h]

theorem State.isBusy_of_idle {s : State} (h : s.seq = .idle) : s.isBusy = false := by
  simp [State.isBusy, h]

theorem State.not_isBusy_iff {s : State} : s.isBusy = false ↔ s.seq = .idle := by
  cases h : s.seq <;> simp [State.isBusy, h]

/-! ### The state of a run command word -/

@[simp] theorem State.withFetchWord_seq (s : State) (nbits w : Nat) :
    (s.withFetchWord nbits w).seq = .busy (s.latch (BitVec.ofNat 32 (w % 2 ^ nbits))) 0 := rfl
@[simp] theorem State.withFetchWord_mem (s : State) (nbits w : Nat) : (s.withFetchWord nbits w).mem = s.mem := rfl
@[simp] theorem State.withFetchWord_tree (s : State) (nbits w : Nat) : (s.withFetchWord nbits w).tree = s.tree := rfl

end Sys2Proof.Machine
end

