-- ==== Sys2Proof/Laws/Memory.lean ====
section
/-! SUPPORT. The laws of `DMEM`: what a write leaves readable, and that every operation keeps the canonical form. -/

namespace Sys2Proof.Machine

theorem find_range_zip (a : Nat) (bs : Bytes) (x : Nat) :
    (((List.range' a bs.length).zip bs).find? fun y => y.1 == x) =
      if h : a ≤ x ∧ x < a + bs.length then some (x, bs[x - a]'(by omega)) else none := by
  induction bs generalizing a with
  | nil => simp
  | cons b bs ih =>
    simp only [List.length_cons, List.range'_succ, List.zip_cons_cons, List.find?_cons]
    by_cases hax : a = x
    · subst hax
      simp
    · have : (a == x) = false := by simpa using hax
      simp only [this, ih (a + 1)]
      by_cases h : a + 1 ≤ x ∧ x < a + 1 + bs.length
      · have h' : a ≤ x ∧ x < a + (bs.length + 1) := by omega
        have e : x - a = (x - (a + 1)) + 1 := by omega
        simp [h, h', e]
      · have h' : ¬(a ≤ x ∧ x < a + (bs.length + 1)) := by omega
        rw [dif_neg h, dif_neg h']

theorem find_filter_of_keeps (l : List Host.Cell) (p : Host.Cell → Bool) (x : Nat)
    (h : ∀ y : Host.Cell, y.1 = x → p y = true) :
    ((l.filter p).find? fun y => y.1 == x) = l.find? fun y => y.1 == x := by
  induction l with
  | nil => rfl
  | cons y l ih =>
    by_cases hy : y.1 = x
    · simp [h y hy, hy]
    · by_cases hp : p y = true <;> simp [hp, hy, ih]

theorem find_filter_of_drops (l : List Host.Cell) (p : Host.Cell → Bool) (x : Nat)
    (h : ∀ y : Host.Cell, y.1 = x → p y = false) :
    ((l.filter p).find? fun y => y.1 == x) = none := by
  rw [List.find?_eq_none]
  intro y hy
  have := (List.mem_filter.mp hy).2
  intro hx
  rw [h y (by simpa using hx)] at this
  exact absurd this (by simp)

/-- A write puts its bytes at their addresses. -/
theorem Memory.cell_writeBytes_inside (m : Memory) (a : Nat) (bs : Bytes) (x : Nat) (h1 : a ≤ x)
    (h2 : x < a + bs.length) : (m.writeBytes a bs).cell x = some (bs[x - a]'(by omega)) := by
  unfold Memory.cell Memory.writeBytes
  simp only [List.find?_append, find_range_zip]
  rw [find_filter_of_drops _ _ _ (by intro y hy; simp; omega)]
  simp [h1, h2]

/-- A write leaves every other address alone. -/
theorem Memory.cell_writeBytes_outside (m : Memory) (a : Nat) (bs : Bytes) (x : Nat)
    (h : x < a ∨ a + bs.length ≤ x) : (m.writeBytes a bs).cell x = m.cell x := by
  unfold Memory.cell Memory.writeBytes
  simp only [List.find?_append, find_range_zip]
  rw [dif_neg (by omega)]
  rcases h with h | h
  · rw [find_filter_of_keeps m.cells _ x (by intro y hy; simp; omega),
      find_filter_of_drops m.cells (fun z => decide (a + bs.length ≤ z.1)) x (by intro y hy; simp; omega)]
    simp
  · by_cases hb : bs.length = 0
    · by_cases hx : x < a
      · rw [find_filter_of_keeps m.cells _ x (by intro y hy; simp; omega),
          find_filter_of_drops m.cells (fun z => decide (a + bs.length ≤ z.1)) x (by intro y hy; simp; omega)]
        simp
      · rw [find_filter_of_drops m.cells (fun z => decide (z.1 < a)) x (by intro y hy; simp; omega),
          find_filter_of_keeps m.cells _ x (by intro y hy; simp; omega)]
        simp
    · rw [find_filter_of_drops m.cells (fun z => decide (z.1 < a)) x (by intro y hy; simp; omega),
        find_filter_of_keeps m.cells _ x (by intro y hy; simp; omega)]
      simp

@[simp] theorem Memory.writeBytes_draw (m : Memory) (a : Nat) (bs : Bytes) : (m.writeBytes a bs).draw = m.draw := rfl
@[simp] theorem Memory.scramble_draw (m : Memory) (a n d : Nat) : (m.scramble a n d).draw = m.draw := rfl

theorem Memory.byte_writeBytes_inside (m : Memory) (a : Nat) (bs : Bytes) (x : Nat) (h1 : a ≤ x)
    (h2 : x < a + bs.length) : (m.writeBytes a bs).byte x = bs[x - a]'(by omega) := by
  simp [Memory.byte, Memory.cell_writeBytes_inside m a bs x h1 h2]

theorem Memory.byte_writeBytes_outside (m : Memory) (a : Nat) (bs : Bytes) (x : Nat)
    (h : x < a ∨ a + bs.length ≤ x) : (m.writeBytes a bs).byte x = m.byte x := by
  simp [Memory.byte, Memory.cell_writeBytes_outside m a bs x h]

theorem Memory.byte_scramble_outside (m : Memory) (a n d x : Nat) (h : x < a ∨ a + n ≤ x) :
    (m.scramble a n d).byte x = m.byte x :=
  Memory.byte_writeBytes_outside m a _ x (by simpa using h)

@[simp] theorem Memory.length_readBytes (m : Memory) (a n : Nat) : (m.readBytes a n).length = n := by
  simp [Memory.readBytes]

/-- Reading depends on the bytes read alone. -/
theorem Memory.readBytes_congr {m m' : Memory} {a n : Nat} (h : ∀ x, a ≤ x → x < a + n → m'.byte x = m.byte x) :
    m'.readBytes a n = m.readBytes a n := by
  unfold Memory.readBytes
  apply List.map_congr_left
  intro x hx
  have := List.mem_range'_1.mp hx
  exact h x this.1 this.2

/-- A read of what was just written gives it back. -/
theorem Memory.readBytes_writeBytes_same (m : Memory) (a : Nat) (bs : Bytes) :
    (m.writeBytes a bs).readBytes a bs.length = bs := by
  apply List.ext_getElem (by simp)
  intro k h1 h2
  simp only [Memory.readBytes, List.getElem_map, List.getElem_range']
  rw [Memory.byte_writeBytes_inside _ _ _ _ (by omega) (by omega)]
  congr 1
  omega

/-- A read outside the written bytes is not changed. -/
theorem Memory.readBytes_writeBytes_apart (m : Memory) (a : Nat) (bs : Bytes) (b n : Nat)
    (h : ∀ x, b ≤ x → x < b + n → x < a ∨ a + bs.length ≤ x) :
    (m.writeBytes a bs).readBytes b n = m.readBytes b n :=
  Memory.readBytes_congr fun x h1 h2 => Memory.byte_writeBytes_outside m a bs x (h x h1 h2)

/-! ### The canonical form -/

theorem pairwise_range_zip (a : Nat) (bs : Bytes) :
    ((List.range' a bs.length).zip bs).Pairwise fun x y : Host.Cell => x.1 < y.1 := by
  induction bs generalizing a with
  | nil => simp
  | cons b bs ih =>
    simp only [List.length_cons, List.range'_succ, List.zip_cons_cons, List.pairwise_cons]
    refine ⟨fun y hy => ?_, ih (a + 1)⟩
    have := List.mem_range'_1.mp (List.of_mem_zip hy).1
    omega

theorem Memory.wf_writeBytes {m : Memory} (h : m.wf) (a : Nat) (bs : Bytes) : (m.writeBytes a bs).wf := by
  unfold Memory.wf Memory.writeBytes
  simp only [List.pairwise_append, List.mem_append, List.mem_filter, decide_eq_true_eq]
  refine ⟨⟨h.filter _, pairwise_range_zip a bs, ?_⟩, h.filter _, ?_⟩
  · rintro x ⟨-, hx⟩ y hy
    have := List.mem_range'_1.mp (List.of_mem_zip hy).1
    omega
  · rintro x hx y ⟨-, hy⟩
    rcases hx with ⟨-, hx⟩ | hx
    · omega
    · have := List.mem_range'_1.mp (List.of_mem_zip hx).1
      omega

theorem Memory.wf_scramble {m : Memory} (h : m.wf) (a n d : Nat) : (m.scramble a n d).wf :=
  Memory.wf_writeBytes h a _

theorem Memory.within_writeBytes {m : Memory} {k : Nat} (h : m.within k) (a : Nat) (bs : Bytes)
    (hb : bs = [] ∨ a + bs.length ≤ k) : (m.writeBytes a bs).within k := by
  intro x hx
  simp only [Memory.writeBytes, List.mem_append, List.mem_filter] at hx
  rcases hx with (⟨hx, -⟩ | hx) | ⟨hx, -⟩
  · exact h x hx
  · have := List.mem_range'_1.mp (List.of_mem_zip hx).1
    rcases hb with rfl | hb
    · simp at hx
    · omega
  · exact h x hx

theorem Memory.within_scramble {m : Memory} {k : Nat} (h : m.within k) (a n d : Nat) (hb : n = 0 ∨ a + n ≤ k) :
    (m.scramble a n d).within k := by
  apply Memory.within_writeBytes h
  rcases hb with rfl | hb
  · simp
  · right; simpa using hb

/-- Memories in canonical form with the same draw and the same written bytes are equal data. -/
theorem Memory.eq_of_cells {m m' : Memory} (h : m.wf) (h' : m'.wf) (hd : m.draw = m'.draw)
    (hc : ∀ a, m.cell a = m'.cell a) : m = m' := by
  have key : ∀ (l : List Host.Cell), l.Pairwise (fun x y => x.1 < y.1) → ∀ x : Host.Cell,
      (l.find? (fun y => y.1 == x.1)).map (·.2) = some x.2 ↔ x ∈ l := by
    intro l hl x
    induction l with
    | nil => simp
    | cons y l ih =>
      rw [List.pairwise_cons] at hl
      by_cases hy : y.1 = x.1
      · simp only [List.find?_cons, hy, beq_self_eq_true, Option.map_some, Option.some.injEq, List.mem_cons]
        constructor
        · intro h2
          left
          exact Prod.ext hy.symm h2.symm
        · rintro (rfl | hm)
          · rfl
          · exact absurd (hl.1 x hm) (by omega)
      · have : (y.1 == x.1) = false := by simpa using hy
        simp only [List.find?_cons, this, ih hl.2, List.mem_cons]
        constructor
        · exact Or.inr
        · rintro (rfl | hm)
          · exact absurd rfl hy
          · exact hm
  cases m with
  | mk c d =>
    cases m' with
    | mk c' d' =>
      simp only at hd
      subst hd
      simp only [Memory.mk.injEq, and_true]
      have hmem : ∀ x, x ∈ c ↔ x ∈ c' := by
        intro x
        rw [← key c h x, ← key c' h' x]
        have := hc x.1
        simp only [Memory.cell] at this
        rw [this]
      have hn : c.Nodup := h.imp (fun {a b} (hab : a.1 < b.1) => by rintro rfl; omega)
      have hn' : c'.Nodup := h'.imp (fun {a b} (hab : a.1 < b.1) => by rintro rfl; omega)
      have hp : c.Perm c' := (List.perm_ext_iff_of_nodup hn hn').mpr hmem
      exact hp.eq_of_pairwise (fun a b _ _ hab hba => by omega) h h'

/-- Memory after reset is in its canonical form (R400). -/
theorem reset_mem_wf : State.reset.mem.wf := List.Pairwise.nil

end Sys2Proof.Machine
end

