-- ==== Sys2Proof/Laws/Life.lean ====
section
/-! SUPPORT. The life cycle of a command, said once: what the completions do (40_control.md R177), how the checks relate to
arithmetic (R172 to R175), and that every meaning is `complete` over its operation. -/

namespace Sys2Proof.Machine

/-! ### Descriptors -/

theorem inRange_iff (m : Nat) (a n : Word) : inRange m a n = true ↔ DescriptorOk m a n := by
  have h0 : n = 0#32 ↔ n.toNat = 0 := by rw [← BitVec.toNat_inj]; simp
  simp [inRange, DescriptorOk, h0]

theorem overlaps_iff (a1 n1 a2 n2 : Word) : overlaps a1 n1 a2 n2 = false ↔ NoCommonByte a1 n1 a2 n2 := by
  have h0 : ∀ n : Word, n = 0#32 ↔ n.toNat = 0 := fun n => by rw [← BitVec.toNat_inj]; simp
  constructor
  · intro h a ha
    have hn1 : n1 ≠ 0#32 := by rw [Ne, h0]; omega
    have hn2 : n2 ≠ 0#32 := by rw [Ne, h0]; omega
    have c1 : a1.toNat < a2.toNat + n2.toNat := by omega
    have c2 : a2.toNat < a1.toNat + n1.toNat := by omega
    simp [overlaps, hn1, hn2, c1, c2] at h
  · intro h
    by_contra hc
    have hc : overlaps a1 n1 a2 n2 = true := by simpa using hc
    simp only [overlaps, Bool.and_eq_true, bne_iff_ne, ne_eq, decide_eq_true_eq, BitVec.ofNat_eq_ofNat, h0] at hc
    obtain ⟨⟨hn1, hn2⟩, hc1, hc2⟩ := hc
    exact h (max a1.toNat a2.toNat) ⟨⟨by omega, by omega⟩, by omega, by omega⟩

theorem inDescriptor_iff (a n : Word) (x : Nat) :
    inDescriptor a n x = true ↔ a.toNat ≤ x ∧ x < a.toNat + n.toNat := by
  simp [inDescriptor]

theorem inDescriptor_false_iff (a n : Word) (x : Nat) :
    inDescriptor a n x = false ↔ x < a.toNat ∨ a.toNat + n.toNat ≤ x := by
  rw [← Bool.not_eq_true, inDescriptor_iff]
  omega

/-- Legal operands pass the checks before operation (R172, R173). -/
theorem operandError_of_ok {m : Nat} {u : Uses} {d : Descriptors} (h : OperandsOk m u d) :
    operandError m u d = none := by
  have r0 : (u.src0 && !inRange m d.src0Addr d.src0Len) = false := by
    cases hu : u.src0 <;> simp [(inRange_iff _ _ _).mpr ∘ h.src0, hu]
  have r1 : (u.src1 && !inRange m d.src1Addr d.src1Len) = false := by
    cases hu : u.src1 <;> simp [(inRange_iff _ _ _).mpr ∘ h.src1, hu]
  have r2 : (u.dst0 && !inRange m d.dst0Addr d.dst0Cap) = false := by
    cases hu : u.dst0 <;> simp [(inRange_iff _ _ _).mpr ∘ h.dst0, hu]
  have r3 : (u.dst1 && !inRange m d.dst1Addr d.dst1Cap) = false := by
    cases hu : u.dst1 <;> simp [(inRange_iff _ _ _).mpr ∘ h.dst1, hu]
  have o0 : (u.dst0 && u.src0 && overlaps d.dst0Addr d.dst0Cap d.src0Addr d.src0Len) = false := by
    cases hu : u.dst0 <;> cases hv : u.src0 <;> simp [(overlaps_iff _ _ _ _).mpr, h.dst0src0, hu, hv]
  have o1 : (u.dst0 && u.src1 && overlaps d.dst0Addr d.dst0Cap d.src1Addr d.src1Len) = false := by
    cases hu : u.dst0 <;> cases hv : u.src1 <;> simp [(overlaps_iff _ _ _ _).mpr, h.dst0src1, hu, hv]
  have o2 : (u.dst1 && u.src0 && overlaps d.dst1Addr d.dst1Cap d.src0Addr d.src0Len) = false := by
    cases hu : u.dst1 <;> cases hv : u.src0 <;> simp [(overlaps_iff _ _ _ _).mpr, h.dst1src0, hu, hv]
  have o3 : (u.dst1 && u.src1 && overlaps d.dst1Addr d.dst1Cap d.src1Addr d.src1Len) = false := by
    cases hu : u.dst1 <;> cases hv : u.src1 <;> simp [(overlaps_iff _ _ _ _).mpr, h.dst1src1, hu, hv]
  have o4 : (u.dst0 && u.dst1 && overlaps d.dst0Addr d.dst0Cap d.dst1Addr d.dst1Cap) = false := by
    cases hu : u.dst0 <;> cases hv : u.dst1 <;> simp [(overlaps_iff _ _ _ _).mpr, h.dst0dst1, hu, hv]
  simp [operandError, rangeError, overlapError, r0, r1, r2, r3, o0, o1, o2, o3, o4]

/-- Every error of the checks before operation is one of the two codes (R172, R173). -/
theorem operandError_isCheck {m : Nat} {u : Uses} {d : Descriptors} {e : EngineError}
    (h : operandError m u d = some e) : e.code.isCheck = true := by
  unfold operandError rangeError overlapError at h
  repeat' split at h
  all_goals first
    | (cases h; rfl)
    | simp_all
  all_goals
    rename_i h' 
    repeat' split at h'
    all_goals first
      | (cases h'; rfl)
      | simp_all

/-- What passes the checks has its used destinations in `DMEM` (R172). -/
theorem dstInRange_of_operandError_none {m : Nat} {u : Uses} {d : Descriptors} (h : operandError m u d = none) :
    (u.dst0 = true → DescriptorOk m d.dst0Addr d.dst0Cap) ∧ (u.dst1 = true → DescriptorOk m d.dst1Addr d.dst1Cap) := by
  unfold operandError at h
  split at h
  · cases h
  · rename_i hr
    unfold rangeError at hr
    repeat' split at hr
    all_goals first
      | cases hr; done
      | skip
    constructor <;> intro hu <;> rw [← inRange_iff] <;> simp_all

/-! ### The memory of a completion -/

theorem byte_scrambleUsed_outside (u : Uses) (d : Descriptors) (draw : Nat) (m : Memory) (a : Nat)
    (h : inUsedDst u d a = false) : (scrambleUsed u d draw m).byte a = m.byte a := by
  simp only [inUsedDst, Bool.or_eq_false_iff] at h
  obtain ⟨h0, h1⟩ := h
  unfold scrambleUsed
  cases hu0 : u.dst0 <;> cases hu1 : u.dst1 <;> simp only [hu0, hu1, Bool.true_and, if_true, Bool.false_eq_true,
    if_false] at h0 h1 ⊢
  · exact Memory.byte_scramble_outside _ _ _ _ _ ((inDescriptor_false_iff _ _ _).mp h1)
  · exact Memory.byte_scramble_outside _ _ _ _ _ ((inDescriptor_false_iff _ _ _).mp h0)
  · rw [Memory.byte_scramble_outside _ _ _ _ _ ((inDescriptor_false_iff _ _ _).mp h1),
      Memory.byte_scramble_outside _ _ _ _ _ ((inDescriptor_false_iff _ _ _).mp h0)]

theorem wf_scrambleUsed {m : Memory} (h : m.wf) (u : Uses) (d : Descriptors) (draw : Nat) :
    (scrambleUsed u d draw m).wf := by
  unfold scrambleUsed
  cases u.dst0 <;> cases u.dst1 <;>
    simp only [if_true, Bool.false_eq_true, if_false] <;>
    first
      | exact h
      | exact Memory.wf_scramble h _ _ _
      | exact Memory.wf_scramble (Memory.wf_scramble h _ _ _) _ _ _

theorem within_scrambleUsed {m : Memory} {k : Nat} (h : m.within k) (u : Uses) (d : Descriptors) (draw : Nat)
    (h0 : u.dst0 = true → DescriptorOk k d.dst0Addr d.dst0Cap)
    (h1 : u.dst1 = true → DescriptorOk k d.dst1Addr d.dst1Cap) : (scrambleUsed u d draw m).within k := by
  unfold scrambleUsed
  cases hu0 : u.dst0 <;> cases hu1 : u.dst1 <;>
    simp only [if_true, Bool.false_eq_true, if_false] <;>
    first
      | exact h
      | exact Memory.within_scramble h _ _ _ (h0 hu0)
      | exact Memory.within_scramble h _ _ _ (h1 hu1)
      | exact Memory.within_scramble (Memory.within_scramble h _ _ _ (h0 hu0)) _ _ _ (h1 hu1)

theorem wf_writeOutputs {m : Memory} (h : m.wf) (u : Uses) (d : Descriptors) (r : OpResult) :
    (writeOutputs u d r m).wf := by
  unfold writeOutputs
  cases u.dst0 <;> cases u.dst1 <;>
    simp only [if_true, Bool.false_eq_true, if_false] <;>
    first
      | exact h
      | exact Memory.wf_writeBytes h _ _
      | exact Memory.wf_writeBytes (Memory.wf_writeBytes h _ _) _ _

/-- What passes the capacity check fits its destinations (R175). -/
theorem capacityError_none {u : Uses} {d : Descriptors} {r : OpResult} (h : capacityError u d r = none) :
    (u.dst0 = true → r.out0.length ≤ d.dst0Cap.toNat) ∧ (u.dst1 = true → r.out1.length ≤ d.dst1Cap.toNat) := by
  unfold capacityError at h
  split at h
  · cases h
  · split at h
    · cases h
    · constructor <;> intro hu <;> simp_all

theorem within_writeOutputs {m : Memory} {k : Nat} (h : m.within k) {u : Uses} {d : Descriptors} {r : OpResult}
    (hc : capacityError u d r = none)
    (h0 : u.dst0 = true → DescriptorOk k d.dst0Addr d.dst0Cap)
    (h1 : u.dst1 = true → DescriptorOk k d.dst1Addr d.dst1Cap) : (writeOutputs u d r m).within k := by
  have fit : ∀ (a n : Word) (out : Bytes), DescriptorOk k a n → out.length ≤ n.toNat →
      out = [] ∨ a.toNat + out.length ≤ k := by
    intro a n out ho hl
    rcases ho with ho | ho
    · left
      exact List.eq_nil_of_length_eq_zero (by omega)
    · right
      omega
  obtain ⟨c0, c1⟩ := capacityError_none hc
  unfold writeOutputs
  cases hu0 : u.dst0 <;> cases hu1 : u.dst1 <;>
    simp only [if_true, Bool.false_eq_true, if_false] <;>
    first
      | exact h
      | exact Memory.within_writeBytes h _ _ (fit _ _ _ (h0 hu0) (c0 hu0))
      | exact Memory.within_writeBytes h _ _ (fit _ _ _ (h1 hu1) (c1 hu1))
      | exact Memory.within_writeBytes (Memory.within_writeBytes h _ _ (fit _ _ _ (h0 hu0) (c0 hu0))) _ _
          (fit _ _ _ (h1 hu1) (c1 hu1))

/-! ### The completions -/

@[simp] theorem infoWord_of_fits {n : Nat} (h : n ≤ Config.maxU32) : (infoWord n).toNat = n := by
  have : n < 2 ^ 32 := by unfold Config.maxU32 at h; omega
  simp only [infoWord, h, if_true, BitVec.toNat_ofNat]
  exact Nat.mod_eq_of_lt this

/-- The error completion, as the statements say it (R177). -/
theorem failed_errorCompletion (s : State) (u : Uses) (c : Context) (e : EngineError) :
    Failed u c s (s.errorCompletion u c e) e where
  interface := ⟨rfl, rfl, rfl, rfl, rfl, rfl, rfl⟩
  keeps := ⟨rfl, rfl, rfl⟩
  idle := rfl
  done := rfl
  err := rfl
  errCode := rfl
  errinfo h := infoWord_of_fits h
  irq := rfl
  dst0Len := rfl
  dst1Len := rfl
  checkBytes h := by simp [h]
  otherBytes a h := by
    simp only [State.errorCompletion_mem]
    split
    · rfl
    · exact byte_scrambleUsed_outside u c.desc s.draws s.mem a h

/-- The successful completion, as the statements say it (R177): a destination that is not used has the output `[]`. -/
theorem succeeded_successCompletion (s : State) (u : Uses) (c : Context) (r : OpResult)
    (hn0 : u.dst0 = false → r.out0 = []) (hn1 : u.dst1 = false → r.out1 = [])
    (hc : capacityError u c.desc r = none)
    (hd : u.dst0 = true → u.dst1 = true →
      NoCommonByte c.desc.dst0Addr c.desc.dst0Cap c.desc.dst1Addr c.desc.dst1Cap) :
    Succeeded c s (s.successCompletion u c r) r.out0 r.out1 := by
  obtain ⟨c0, c1⟩ := capacityError_none hc
  have b0 := c.desc.dst0Cap.isLt
  have b1 := c.desc.dst1Cap.isLt
  have apart : u.dst0 = true → u.dst1 = true → ∀ x, c.desc.dst0Addr.toNat ≤ x →
      x < c.desc.dst0Addr.toNat + r.out0.length →
      x < c.desc.dst1Addr.toNat ∨ c.desc.dst1Addr.toNat + r.out1.length ≤ x := by
    intro h0 h1 x hx1 hx2
    have := hd h0 h1 x
    have := c0 h0
    have := c1 h1
    omega
  refine ⟨⟨rfl, rfl, rfl, rfl, rfl, rfl, rfl⟩, rfl, rfl, rfl, rfl, rfl, rfl, ?_, ?_, ?_, ?_, ?_⟩
  · cases hu : u.dst0
    · simp [hu, hn0 hu]
    · have := c0 hu
      simp only [State.successCompletion_dst0Len, hu, if_true, BitVec.toNat_ofNat]
      omega
  · cases hu : u.dst1
    · simp [hu, hn1 hu]
    · have := c1 hu
      simp only [State.successCompletion_dst1Len, hu, if_true, BitVec.toNat_ofNat]
      omega
  · cases hu0 : u.dst0
    · simp [hn0 hu0, Memory.readBytes]
    · cases hu1 : u.dst1
      · simp only [State.successCompletion_mem, writeOutputs, hu0, hu1, if_true, Bool.false_eq_true, if_false]
        exact Memory.readBytes_writeBytes_same _ _ _
      · simp only [State.successCompletion_mem, writeOutputs, hu0, hu1, if_true]
        rw [Memory.readBytes_writeBytes_apart _ _ _ _ _ (apart hu0 hu1)]
        exact Memory.readBytes_writeBytes_same _ _ _
  · cases hu1 : u.dst1
    · simp [hn1 hu1, Memory.readBytes]
    · simp only [State.successCompletion_mem, writeOutputs, hu1, if_true]
      exact Memory.readBytes_writeBytes_same _ _ _
  · intro a h0 h1
    simp only [State.successCompletion_mem, writeOutputs]
    have w0 : ∀ m : Memory, (m.writeBytes c.desc.dst0Addr.toNat r.out0).byte a = m.byte a := fun m =>
      Memory.byte_writeBytes_outside _ _ _ _ (by omega)
    have w1 : ∀ m : Memory, (m.writeBytes c.desc.dst1Addr.toNat r.out1).byte a = m.byte a := fun m =>
      Memory.byte_writeBytes_outside _ _ _ _ (by omega)
    cases u.dst0 <;> cases u.dst1 <;> simp [w0, w1]

/-- Everything a completion can be: an error of the checks, of the operation or of the capacity, or a success (R352). -/
theorem State.complete_cases (s : State) (u : Uses) (c : Context) (op : OpInput → Except EngineError OpResult) :
    (∃ e, operandError s.params.memBytes u c.desc = some e ∧ s.complete u c op = s.errorCompletion u c e) ∨
    (operandError s.params.memBytes u c.desc = none ∧
      ((∃ e, op (s.opInput u c) = .error e ∧ s.complete u c op = s.errorCompletion u c e) ∨
        ∃ r, op (s.opInput u c) = .ok r ∧
          ((∃ e, capacityError u c.desc r = some e ∧ s.complete u c op = s.errorCompletion u c e) ∨
            capacityError u c.desc r = none ∧ s.complete u c op = s.successCompletion u c r))) := by
  unfold State.complete
  cases h : operandError s.params.memBytes u c.desc with
  | some e => exact .inl ⟨e, rfl, rfl⟩
  | none =>
    refine .inr ⟨rfl, ?_⟩
    cases ho : op (s.opInput u c) with
    | error e => exact .inl ⟨e, rfl, rfl⟩
    | ok r =>
      refine .inr ⟨r, rfl, ?_⟩
      cases hc : capacityError u c.desc r with
      | some e => exact .inl ⟨e, rfl, by simp [hc]⟩
      | none => exact .inr ⟨rfl, by simp [hc]⟩

theorem State.complete_of_operandError {s : State} {u : Uses} {c : Context} {e : EngineError}
    {op : OpInput → Except EngineError OpResult} (h : operandError s.params.memBytes u c.desc = some e) :
    s.complete u c op = s.errorCompletion u c e := by
  simp [State.complete, h]

theorem State.complete_of_error {s : State} {u : Uses} {c : Context} {e : EngineError}
    {op : OpInput → Except EngineError OpResult} (h : operandError s.params.memBytes u c.desc = none)
    (ho : op (s.opInput u c) = .error e) : s.complete u c op = s.errorCompletion u c e := by
  simp [State.complete, h, ho]

theorem State.complete_of_ok {s : State} {u : Uses} {c : Context} {r : OpResult}
    {op : OpInput → Except EngineError OpResult} (h : operandError s.params.memBytes u c.desc = none)
    (ho : op (s.opInput u c) = .ok r) (hc : capacityError u c.desc r = none) :
    s.complete u c op = s.successCompletion u c r := by
  simp [State.complete, h, ho, hc]

theorem State.complete_of_capacity {s : State} {u : Uses} {c : Context} {r : OpResult} {e : EngineError}
    {op : OpInput → Except EngineError OpResult} (h : operandError s.params.memBytes u c.desc = none)
    (ho : op (s.opInput u c) = .ok r) (hc : capacityError u c.desc r = some e) :
    s.complete u c op = s.errorCompletion u c e := by
  simp [State.complete, h, ho, hc]

/-! ### Running a command -/

theorem runCommand_of_busy {i : Instr} {op : OpInput → Except EngineError OpResult} {s : State} {c : Context}
    {n : Nat} (h : s.seq = .busy c n) : runCommand i op s = .next (s.complete (usesOf i) c op) := by
  simp [runCommand, h]

theorem runCommand_of_idle {i : Instr} {op : OpInput → Except EngineError OpResult} {s : State}
    (h : s.seq = .idle) :
    runCommand i op s =
      .next ((s.accept (encodeWord i)).complete (usesOf i) (s.latch (encodeWord i)) op) := by
  simp [runCommand, h]

/-- Every meaning is the life cycle over its operation. -/
theorem exec_eq_runCommand (i : Instr) (s : State) : exec i s = runCommand i (operationOf i) s := by
  cases i <;> rfl

/-- A running command completes over its latched context. -/
theorem exec_of_busy {s : State} {c : Context} {n : Nat} (h : s.seq = .busy c n) (i : Instr) :
    exec i s = .next (s.complete (usesOf i) c (operationOf i)) := by
  rw [exec_eq_runCommand, runCommand_of_busy h]

theorem exec_of_runs {s : State} {c : Context} (h : s.runs c) (i : Instr) :
    exec i s = .next (s.complete (usesOf i) c (operationOf i)) := by
  obtain ⟨n, h⟩ := h
  exact exec_of_busy h i

/-! ### The step -/

theorem step_of_idle {s : State} (h : s.seq = .idle) : step s = s.hostTurn := by simp [step, h]

theorem step_of_delay {s : State} {c : Context} {n : Nat} (h : s.seq = .busy c (n + 1)) :
    step s = State.hostTurn { s with seq := .busy c n } := by simp [step, h]

theorem step_of_word {s : State} {c : Context} {i : Instr} (h : s.seq = .busy c 0) (hw : decodeWord c.word = .ok i) :
    step s = exec i s := by simp [step, h, hw]

theorem step_of_illegal {s : State} {c : Context} {e : DecodeError} (h : s.seq = .busy c 0)
    (hw : decodeWord c.word = .error e) : step s = .next (s.illegalCommand c) := by simp [step, h, hw]

end Sys2Proof.Machine
end

