-- ==== Sys2Proof/Laws/Host.lean ====
section
/-! SUPPORT. What a turn of the host does, once per kind of bus transaction, and everything a turn can do while a command runs.
Later proofs cite these and unfold no transaction. -/

namespace Sys2Proof.Machine

/-- Every offset of the block is in the register window (R81). -/
theorem inRegBlock_offset (p : Params) (off : Nat) (h : off < 0x100) : inRegBlock p (p.regBase + off) = true := by
  simp [inRegBlock, Config.regBlockBytes, h]

/-- A reserved offset has no register (R42). -/
theorem regAt_reserved (off : Nat) (h1 : 0x48 ≤ off) (h2 : off ≤ 0xFC) : regAt off = none := by
  interval_cases off <;> rfl

/-- A register stands at its own offset (R31). -/
@[simp] theorem regAt_offset (r : RegName) : regAt r.offset = some r := by cases r <;> rfl

theorem RegName.offset_lt (r : RegName) : r.offset < 0x100 := by cases r <;> decide

theorem RegName.offset_aligned (r : RegName) : r.offset % 4 = 0 := by cases r <;> decide

/-- A legal register read returns what stands at the offset and changes nothing else (R44, R91). -/
theorem hostTurn_readReg {s : State} {off : Nat} {rest : List Input} (h : off < 0x100) (ha : off % 4 = 0)
    (hi : s.inputs = .read 4 (s.params.regBase + off) :: rest) :
    s.hostTurn = .next
      { s with inputs := rest, readLog := s.readLog ++ [State.readOffset { s with inputs := rest } off] } := by
  simp only [State.hostTurn, hi, State.hostInput, State.hostRead, inRegBlock_offset _ off h, regAccessOk]
  simp [ha]

/-- A legal register write does what the register does with it (R44). -/
theorem hostTurn_writeReg {s : State} {off : Nat} {v : Word} {rest : List Input} (h : off < 0x100) (ha : off % 4 = 0)
    (hi : s.inputs = .write 4 (s.params.regBase + off) v :: rest) :
    s.hostTurn = .next (State.writeOffset { s with inputs := rest } off v) := by
  simp only [State.hostTurn, hi, State.hostInput, State.hostWrite, inRegBlock_offset _ off h, regAccessOk]
  simp [ha]

/-- A host read outside the register block is a `DMEM` read (R81). -/
theorem hostTurn_readDmem {s : State} {size a : Nat} {rest : List Input}
    (hr : inRegBlock s.params (s.params.dmemBase + a) = false)
    (hi : s.inputs = .read size (s.params.dmemBase + a) :: rest) :
    s.hostTurn = State.hostReadDmem { s with inputs := rest } size a := by
  simp [State.hostTurn, hi, State.hostInput, State.hostRead, hr]

/-- A host write outside the register block is a `DMEM` write (R81). -/
theorem hostTurn_writeDmem {s : State} {size a : Nat} {v : Word} {rest : List Input}
    (hr : inRegBlock s.params (s.params.dmemBase + a) = false)
    (hi : s.inputs = .write size (s.params.dmemBase + a) v :: rest) :
    s.hostTurn = State.hostWriteDmem { s with inputs := rest } size a v := by
  simp [State.hostTurn, hi, State.hostInput, State.hostWrite, hr]

/-- A legal width is 1, 2 or 4, at an aligned address (R82). -/
theorem dmemAccessOk_iff (size a : Nat) :
    dmemAccessOk size a = true ↔ (size = 1 ∨ size = 2 ∨ size = 4) ∧ a % size = 0 := by
  simp [dmemAccessOk, or_assoc]

/-- While IDLE no range is in use (R420). -/
theorem touchesUsed_of_idle {s : State} (h : s.seq = .idle) (a size : Nat) : s.touchesUsed a size = false := by
  simp [State.touchesUsed, State.runningUses, h, inUsedSrc, inUsedDst]

/-- Everything a turn of the host can do while a command runs, other than a reset: it takes an input or waits, it may log a
value, and the only write it may make is to `DMEM` bytes outside every used range (R43, R420). -/
theorem hostTurn_busy_cases {s t : State} (hb : s.isBusy = true) (hr : s.inputs.head? ≠ some .reset)
    (h : s.hostTurn = .next t) :
    ∃ inputs readLog draws mem, t = { s with inputs := inputs, readLog := readLog, draws := draws, mem := mem } ∧
      (mem = s.mem ∨ ∃ a size v, s.touchesUsed a size = false ∧ a + size ≤ s.params.memBytes ∧
        mem = s.mem.writeBytes a ((bytesLe32 v).take size)) := by
  cases hi : s.inputs with
  | nil =>
    simp [State.hostTurn, hi] at h
    subst h
    exact ⟨s.inputs, s.readLog, s.draws, s.mem, by simp, .inl rfl⟩
  | cons x rest =>
    simp only [State.hostTurn, hi] at h
    have hb' : State.isBusy { s with inputs := rest } = true := hb
    cases x with
    | read size addr =>
      simp only [State.hostInput, State.hostRead, State.hostReadDmem] at h
      repeat' split at h
      all_goals first | (cases h; done) | skip
      all_goals
        cases h
        exact ⟨_, _, _, _, rfl, .inl rfl⟩
    | write size addr v =>
      simp only [State.hostInput, State.hostWrite, State.hostWriteDmem, State.writeOffset] at h
      repeat' split at h
      all_goals first | (cases h; done) | skip
      · cases h
        simp only [State.writeReg, hb', if_true]
        exact ⟨rest, s.readLog, s.draws, s.mem, rfl, .inl rfl⟩
      · cases h
        exact ⟨rest, s.readLog, s.draws, s.mem, rfl, .inl rfl⟩
      · cases h
        rename_i h1 h2 h3
        exact ⟨_, _, _, _, rfl,
          .inr ⟨_, _, v, by simpa [State.touchesUsed, State.runningUses] using h3, h2, rfl⟩⟩
    | waitPoll =>
      simp [State.hostInput, hb] at h
      subst h
      exact ⟨s.inputs, s.readLog, s.draws, s.mem, rfl, .inl rfl⟩
    | waitIrq =>
      simp only [State.hostInput] at h
      split at h <;> cases h
      · exact ⟨_, s.readLog, s.draws, s.mem, rfl, .inl rfl⟩
      · exact ⟨s.inputs, s.readLog, s.draws, s.mem, rfl, .inl rfl⟩
    | reset => simp [hi] at hr

end Sys2Proof.Machine
end

