-- ==== Sys2Proof/Laws/Operations.lean ====
section
/-! SUPPORT. What each operation answers when a stage of it is known, and what a command whose operation returns does, so that
a proof about a command names its stages and unfolds no operation. -/

namespace Sys2Proof.Machine

/-! ### The sources of a command -/

@[simp] theorem opInput_src0 {s : State} {u : Uses} {c : Context} (h : u.src0 = true) :
    (s.opInput u c).src0 = s.source0 c := by simp [State.opInput, State.source0, h]

@[simp] theorem opInput_src1 {s : State} {u : Uses} {c : Context} (h : u.src1 = true) :
    (s.opInput u c).src1 = s.source1 c := by simp [State.opInput, State.source1, h]

@[simp] theorem length_source0 (s : State) (c : Context) : (s.source0 c).length = c.desc.src0Len.toNat := by
  simp [State.source0]

@[simp] theorem length_source1 (s : State) (c : Context) : (s.source1 c).length = c.desc.src1Len.toNat := by
  simp [State.source1]

/-! ### The operations by their stages -/

section Stages

variable {x : OpInput} {e : EngineError} {ts : List Token} {out : Bytes} {bs : List Bit} {tree : Tree}

theorem opLzDecompress_format (h : parseRecs x.src0 = .error e) : opLzDecompress x = .error e := by
  simp [opLzDecompress, h, bind, Except.bind]

theorem opLzDecompress_replay (h : parseRecs x.src0 = .ok ts) :
    opLzDecompress x = (replay ts).map fun out => { out0 := out } := by
  cases hr : replay ts <;> simp [opLzDecompress, h, hr, bind, Except.bind, Except.map]

theorem opTokSerialize_format (h : parseRecs x.src0 = .error e) : opTokSerialize x = .error e := by
  simp [opTokSerialize, h, bind, Except.bind]

theorem opTokSerialize_ok (h : parseRecs x.src0 = .ok ts) :
    opTokSerialize x = .ok { out0 := tokenString (tokfmtOf x.ctrl) ts } := by
  simp [opTokSerialize, h, bind, Except.bind]

theorem opTokParse_format (h : parseTokenString (tokfmtOf x.ctrl) x.src0 = .error e) : opTokParse x = .error e := by
  simp [opTokParse, h, bind, Except.bind]

theorem opTokParse_ok (h : parseTokenString (tokfmtOf x.ctrl) x.src0 = .ok ts) :
    opTokParse x = .ok { out0 := recs ts } := by
  simp [opTokParse, h, bind, Except.bind]

theorem opHufEncode_miss (h : hufEncode x.src0 x.tree = .error e) : opHufEncode x = .error e := by
  simp [opHufEncode, h, bind, Except.bind]

theorem opHufEncode_ok (h : hufEncode x.src0 x.tree = .ok bs) : opHufEncode x = .ok { out0 := bytesOf bs } := by
  simp [opHufEncode, h, bind, Except.bind]

theorem opHufDecode_badBits (h : bitsOf x.src0 = .error e) : opHufDecode x = .error e := by
  simp [opHufDecode, h, bind, Except.bind]

theorem opHufDecode_decode (h : bitsOf x.src0 = .ok bs) :
    opHufDecode x = (hufDecode bs x.tree (exactOf x.ctrl)).map fun out => { out0 := out } := by
  cases hd : hufDecode bs x.tree (exactOf x.ctrl) <;> simp [opHufDecode, h, hd, bind, Except.bind, Except.map]

theorem opTreeDeserialize_corrupt (h : parseTreeBlob x.src0 = .error e) : opTreeDeserialize x = .error e := by
  simp [opTreeDeserialize, h, bind, Except.bind]

theorem opTreeDeserialize_ok (h : parseTreeBlob x.src0 = .ok tree) :
    opTreeDeserialize x = .ok { tree := some tree } := by
  simp [opTreeDeserialize, h, bind, Except.bind]

theorem opBitPack_badBits (h : bitsOf x.src0 = .error e) : opBitPack x = .error e := by
  simp [opBitPack, h, bind, Except.bind]

theorem opBitPack_ok (h : bitsOf x.src0 = .ok bs) : opBitPack x = .ok { out0 := pack bs, bitcnt := some bs.length } := by
  simp [opBitPack, h, bind, Except.bind]

theorem opBitUnpack_badBitcnt (h : unpack x.src0 (exactOf x.ctrl) x.bitcnt.toNat = .error e) :
    opBitUnpack x = .error e := by
  simp [opBitUnpack, h, bind, Except.bind]

theorem opBitUnpack_ok (h : unpack x.src0 (exactOf x.ctrl) x.bitcnt.toNat = .ok bs) :
    opBitUnpack x = .ok { out0 := bytesOf bs } := by
  simp [opBitUnpack, h, bind, Except.bind]

end Stages

/-- The scratch check passes exactly when the intermediate fits (R321). -/
theorem scratchCheck_ok {capacity : Option Nat} {n : Nat} (h : FitsScratch capacity n) : scratchCheck capacity n = .ok () := by
  cases capacity with
  | none => rfl
  | some k =>
    have := h k rfl
    simp [scratchCheck, Nat.not_lt.mpr this]

theorem scratchCheck_error {capacity : Option Nat} {n : Nat} (h : ¬FitsScratch capacity n) :
    scratchCheck capacity n = .error ⟨.scratch, min n Config.maxU32⟩ := by
  cases capacity with
  | none => exact absurd (fun k hk => by cases hk) h
  | some k =>
    have : k < n := by
      by_contra hk
      exact h fun j hj => by
        cases hj
        omega
    simp [scratchCheck, this]

/-! ### A command whose operation returns -/

/-- The outputs fit exactly when no capacity error is raised (R175). -/
theorem capacityError_of_fits {u : Uses} {d : Descriptors} {r : OpResult}
    (h0 : u.dst0 = true → r.out0.length ≤ d.dst0Cap.toNat) (h1 : u.dst1 = true → r.out1.length ≤ d.dst1Cap.toNat) :
    capacityError u d r = none := by
  cases hu0 : u.dst0 <;> cases hu1 : u.dst1 <;> simp_all [capacityError, Nat.not_lt.mpr]

/-- A command with legal operands whose operation returns what fits ends in the successful completion (R174, R175, R177). -/
theorem exec_of_result {s : State} {c : Context} {i : Instr} {r : OpResult} (hr : s.runs c)
    (ho : OperandsOk s.params.memBytes (usesOf i) c.desc)
    (hop : operationOf i (s.opInput (usesOf i) c) = .ok r)
    (h0 : (usesOf i).dst0 = true → r.out0.length ≤ c.desc.dst0Cap.toNat)
    (h1 : (usesOf i).dst1 = true → r.out1.length ≤ c.desc.dst1Cap.toNat)
    (hn0 : (usesOf i).dst0 = false → r.out0 = []) (hn1 : (usesOf i).dst1 = false → r.out1 = []) :
    exec i s = .next (s.successCompletion (usesOf i) c r) ∧
      Succeeded c s (s.successCompletion (usesOf i) c r) r.out0 r.out1 := by
  have hc := capacityError_of_fits h0 h1
  refine ⟨?_, succeeded_successCompletion s _ c r hn0 hn1 hc ho.dst0dst1⟩
  rw [exec_of_runs hr, State.complete_of_ok (operandError_of_ok ho) hop hc]

end Sys2Proof.Machine
end

