-- ==== Sys2Proof/Laws/PerInstr.lean ====
section
/-! SUPPORT. The statements made of every command one by one, as syntax. -/

namespace Sys2Proof.Laws.EncodedWord

/-- The word of a command is well formed: `RSVD` is 0 and `OPCODE` is one of the fifteen (R120, R121). -/
def Statement (i : Instr) : Prop := commandWordWf (encodeWord i) = true

theorem nop : Statement .nop := rfl
theorem lzCompress : Statement .lzCompress := rfl
theorem lzDecompress : Statement .lzDecompress := rfl
theorem tokSerialize : Statement .tokSerialize := rfl
theorem tokParse : Statement .tokParse := rfl
theorem hufBuild : Statement .hufBuild := rfl
theorem hufEncode : Statement .hufEncode := rfl
theorem hufDecode : Statement .hufDecode := rfl
theorem treeSerialize : Statement .treeSerialize := rfl
theorem treeDeserialize : Statement .treeDeserialize := rfl
theorem treeReset : Statement .treeReset := rfl
theorem bitPack : Statement .bitPack := rfl
theorem bitUnpack : Statement .bitUnpack := rfl
theorem compress : Statement .compress := rfl
theorem decompress : Statement .decompress := rfl

end Sys2Proof.Laws.EncodedWord
end

