-- ==== Sys2Proof/Tests/Slice0.lean ====
section
/-! SUPPORT. The model's own tests: what WellFormed refuses, every command's word decoded, and small vectors of
95_test_vectors.md, each about one step. After them, for every statement with hypotheses, a witness that meets them. -/

namespace Sys2Proof.Tests

open Sys2Proof Sys2Proof.Machine

set_option Elab.async false

/-! ### Helpers -/

/-- Four ranges that lie apart: SRC0 at 0, SRC1 at 0x100, DST0 at 0x200, DST1 at 0x400. -/
def layout (n0 n1 c0 c1 : Word) : Descriptors := ⟨0, n0, 0x100, n1, 0x200, c0, 0x400, c1⟩

/-- The context of a command with its own word. -/
def contextOf (i : Instr) (ctrl bitcnt : Word) (d : Descriptors) : Context := ⟨encodeWord i, ctrl, bitcnt, d⟩

/-- A command accepted just now, over the sources `b0` and `b1`; it completes in the next step. -/
def running (i : Instr) (ctrl bitcnt : Word) (d : Descriptors) (tree : Tree) (b0 b1 : Bytes) : State :=
  { State.reset with
    ctrl := ctrl
    cmd := encodeWord i
    bitcnt := bitcnt
    desc := d
    tree := tree
    treeNodes := BitVec.ofNat 32 tree.count
    mem := (State.reset.mem.writeBytes 0 b0).writeBytes 0x100 b1
    seq := .busy (contextOf i ctrl bitcnt d) 0 }

/-- What a test looks at in the next state; nothing when there is none. -/
def seen {α : Type} (o : Host.Outcome State Fault Refusal) (f : State → α) : Option α :=
  match o with
  | .next t => some (f t)
  | .fault _ => none
  | .refused _ => none

/-- The step over `b0` in SRC0, with 0x100 bytes of room in both destinations. -/
def runOn {α : Type} (i : Instr) (ctrl bitcnt : Word) (tree : Tree) (b0 : Bytes) (f : State → α) : Option α :=
  seen (step (running i ctrl bitcnt (layout (BitVec.ofNat 32 b0.length) 0 0x100 0x100) tree b0 [])) f

/-- `STATUS` and `ERRINFO`. -/
def report (s : State) : Word × Word := (s.readReg .status, s.readReg .errinfo)

/-- The bytes of DST0 that the last command wrote. -/
def output (s : State) : Bytes := s.mem.readBytes 0x200 s.dst0Len.toNat

/-- The tree of "aab" (R253). -/
def treeAab : Tree := .node (.internal 3 (.leaf 0x62 1) (.leaf 0x61 2))

/-- The tree of "abc" (R265). -/
def treeAbc : Tree := .node (.internal 3 (.leaf 0x63 1) (.internal 2 (.leaf 0x61 1) (.leaf 0x62 1)))

/-- What an operation returns passes a test. -/
def okWith {ε α : Type} (x : Except ε α) (p : α → Bool) : Bool :=
  match x with
  | .ok a => p a
  | .error _ => false

theorem exists_of_okWith {ε α : Type} {x : Except ε α} {p : α → Bool} (h : okWith x p = true) :
    ∃ a, x = .ok a ∧ p a = true := by
  cases x with
  | ok a => exact ⟨a, rfl, h⟩
  | error e => cases h

/-- The state with one input for the host. -/
def withInputs (s : State) (inputs : List Input) : State := { s with inputs := inputs }

/-! ### WellFormed -/

theorem test_wf_refuses_reserved_field : commandWordWf 0x00000105#32 = false := by decide
theorem test_wf_refuses_reserved_opcode : commandWordWf 0x0000000F#32 = false := by decide
theorem test_wf_accepts_decompress : commandWordWf 0x0000000E#32 = true := by decide
theorem test_wf_refuses_empty_memory : Params.wf { Params.standard with memBytes := 0 } = false := by decide
theorem test_wf_refuses_too_much_memory : Params.wf { Params.standard with memBytes := 2147483648 } = false := by decide
theorem test_wf_refuses_windows_that_overlap : Params.wf { Params.standard with regBase := 0xFFC } = false := by decide
theorem test_wf_accepts_standard : Params.standard.wf = true := by decide
theorem test_wf_refuses_a_value_twice : Tree.wf (.node (.internal 2 (.leaf 1 1) (.leaf 1 1))) = false := by decide
theorem test_wf_accepts_empty_tree : Tree.wf .empty = true := by decide

/-! ### Decoding: every word written out bit by bit from R120 and R121 -/

theorem test_decode_nop : decode [0b00000000#8, 0, 0, 0] = .ok (.nop, []) := rfl
theorem test_decode_lzCompress : decode [0b00000001#8, 0, 0, 0] = .ok (.lzCompress, []) := rfl
theorem test_decode_lzDecompress : decode [0b00000010#8, 0, 0, 0] = .ok (.lzDecompress, []) := rfl
theorem test_decode_tokSerialize : decode [0b00000011#8, 0, 0, 0] = .ok (.tokSerialize, []) := rfl
theorem test_decode_tokParse : decode [0b00000100#8, 0, 0, 0] = .ok (.tokParse, []) := rfl
theorem test_decode_hufBuild : decode [0b00000101#8, 0, 0, 0] = .ok (.hufBuild, []) := rfl
theorem test_decode_hufEncode : decode [0b00000110#8, 0, 0, 0] = .ok (.hufEncode, []) := rfl
theorem test_decode_hufDecode : decode [0b00000111#8, 0, 0, 0] = .ok (.hufDecode, []) := rfl
theorem test_decode_treeSerialize : decode [0b00001000#8, 0, 0, 0] = .ok (.treeSerialize, []) := rfl
theorem test_decode_treeDeserialize : decode [0b00001001#8, 0, 0, 0] = .ok (.treeDeserialize, []) := rfl
theorem test_decode_treeReset : decode [0b00001010#8, 0, 0, 0] = .ok (.treeReset, []) := rfl
theorem test_decode_bitPack : decode [0b00001011#8, 0, 0, 0] = .ok (.bitPack, []) := rfl
theorem test_decode_bitUnpack : decode [0b00001100#8, 0, 0, 0] = .ok (.bitUnpack, []) := rfl
theorem test_decode_compress : decode [0b00001101#8, 0, 0, 0] = .ok (.compress, []) := rfl
theorem test_decode_decompress : decode [0b00001110#8, 0, 0, 0] = .ok (.decompress, []) := rfl
theorem test_decode_reserved_opcode : decode [0b00001111#8, 0, 0, 0] = .error .reservedOpcode := rfl
theorem test_decode_reserved_field : decode [0x00#8, 0x01#8, 0, 0] = .error .reservedField := rfl
theorem test_decode_truncated : decode [0x00#8, 0, 0] = .error .truncated := rfl
theorem test_decodeTableWord : decodeTableWord 32 0x0000000D = some .compress ∧ decodeTableWord 32 0x10D = none := by decide

/-- Every opcode, as the first instruction after reset, ends IDLE in one step (R170, R177). -/
theorem test_every_opcode_completes_after_reset :
    ∀ w ∈ List.range 15, seen (step (State.reset.withFetchWord 32 w)) (fun t => t.isBusy) = some false := by
  decide +kernel

/-! ### The commands, on the vectors of 95_test_vectors.md and of the rules' examples -/

/-- R178. -/
theorem test_nop : runOn .nop 2 0 .empty [] report = some (0x00000002, 0) := by decide +kernel

/-- V-LZ-6, FIRST_SCANNED: the last token is (5, 2, none). -/
theorem test_lzCompress_ties :
    (runOn .lzCompress 2 0 .empty [0x61, 0x62, 0x61, 0x62, 0x78, 0x61, 0x62] fun t => (output t).drop 20) =
      some [2, 0, 0, 0, 2, 0, 0, 0, 1, 0x78, 5, 0, 0, 0, 2, 0, 0, 0, 0, 0] := by decide +kernel

/-- V-LZ-6, NEAREST: the last token is (3, 2, none). -/
theorem test_lz77_nearest :
    (lz77 .nearest [0x61, 0x62, 0x61, 0x62, 0x78, 0x61, 0x62]).getLast? = some ⟨3, 2, none⟩ := by decide +kernel

/-- R203: a copy that reads bytes it wrote. -/
theorem test_lzDecompress_overlap :
    runOn .lzDecompress 2 0 .empty
      [0, 0, 0, 0, 0, 0, 0, 0, 1, 0x61, 1, 0, 0, 0, 3, 0, 0, 0, 0, 0] output = some [0x61, 0x61, 0x61, 0x61] := by
  decide +kernel

/-- R203: a reference before the output is BAD_TOKEN with the token's ordinal. -/
theorem test_lzDecompress_badToken :
    runOn .lzDecompress 2 0 .empty
      [0, 0, 0, 0, 0, 0, 0, 0, 1, 0x61, 2, 0, 0, 0, 1, 0, 0, 0, 0, 0] report = some (0x00000A04, 1) := by
  decide +kernel

/-- R204: the text of the records of `(0,0,a)(1,3,)`. -/
theorem test_tokSerialize_text :
    runOn .tokSerialize 2 0 .empty [0, 0, 0, 0, 0, 0, 0, 0, 1, 0x61, 1, 0, 0, 0, 3, 0, 0, 0, 0, 0] output =
      some [0x28, 0x30, 0x2C, 0x30, 0x2C, 0x61, 0x29, 0x28, 0x31, 0x2C, 0x33, 0x2C, 0x29] := by decide +kernel

/-- V-TOK-20 with a flag byte of 2: FORMAT at the flag (R141). -/
theorem test_tokSerialize_flag :
    runOn .tokSerialize 2 0 .empty [0, 0, 0, 0, 0, 0, 0, 0, 2, 0] report = some (0x00000704, 8) := by decide +kernel

/-- V-TOK-6: `)` as a next byte. -/
theorem test_tokParse_close :
    runOn .tokParse 2 0 .empty [0x28, 0x30, 0x2C, 0x30, 0x2C, 0x29, 0x29] output =
      some [0, 0, 0, 0, 0, 0, 0, 0, 1, 0x29] := by decide +kernel

/-- V-TOK-15: `(4294967296,0,a)` is FORMAT(10). -/
theorem test_tokParse_tooBig :
    runOn .tokParse 2 0 .empty
      [0x28, 0x34, 0x32, 0x39, 0x34, 0x39, 0x36, 0x37, 0x32, 0x39, 0x36, 0x2C, 0x30, 0x2C, 0x61, 0x29] report =
      some (0x00000704, 10) := by decide +kernel

/-- R253: "aab". -/
theorem test_hufBuild : runOn .hufBuild 2 0 .empty [0x61, 0x61, 0x62] (fun t => (t.tree, t.treeNodes)) =
    some (treeAab, 3) := by decide +kernel

/-- R265: "aaabbc", where a leaf ties with nothing and an internal node ties with a leaf. -/
theorem test_hufBuild_ties : build [0x61, 0x61, 0x61, 0x62, 0x62, 0x63] =
    .node (.internal 6 (.leaf 0x61 3) (.internal 3 (.leaf 0x63 1) (.leaf 0x62 2))) := by decide +kernel

/-- R254. -/
theorem test_hufEncode : runOn .hufEncode 2 0 treeAab [0x61, 0x61, 0x62] output = some [1, 1, 0] := by decide +kernel

/-- R254: a byte with no leaf. -/
theorem test_hufEncode_miss : runOn .hufEncode 2 0 treeAab [0x61, 0x63] report = some (0x00000904, 1) := by
  decide +kernel

/-- R256: bits `1 1 0 1` with the tree of "aab" give "aaba". -/
theorem test_hufDecode : runOn .hufDecode 2 0 treeAab [1, 1, 0, 1] output = some [0x61, 0x61, 0x62, 0x61] := by
  decide +kernel

/-- R256: bit `1` with the tree of "abc" stops inside a code. -/
theorem test_hufDecode_partial : runOn .hufDecode 2 0 treeAbc [1] report = some (0x00000B04, 1) := by decide +kernel

/-- R258. -/
theorem test_treeSerialize : runOn .treeSerialize 2 0 treeAab [] output =
    some [3, 0, 0, 0, 0, 3, 0, 0, 0, 1, 0x62, 1, 0, 0, 0, 1, 0x61, 2, 0, 0, 0] := by decide +kernel

/-- R260. -/
theorem test_treeDeserialize : runOn .treeDeserialize 2 0 treeAab [1, 0, 0, 0, 1, 0x62, 4, 0, 0, 0]
    (fun t => (t.tree, t.treeNodes)) = some (.node (.leaf 0x62 4), 1) := by decide +kernel

/-- R260: the second child's tag lies past the end, and the tree stays. -/
theorem test_treeDeserialize_truncated :
    runOn .treeDeserialize 2 0 treeAbc [3, 0, 0, 0, 0, 3, 0, 0, 0, 1, 0x62, 1, 0, 0, 0]
      (fun t => (report t, t.tree)) = some ((0x00000804, 15), treeAbc) := by decide +kernel

/-- R261. -/
theorem test_treeReset : runOn .treeReset 2 0 treeAab [] (fun t => (t.tree, t.treeNodes)) = some (.empty, 0) := by
  decide +kernel

/-- R300: bits `1 0 1 1 0` give B0 and 5. -/
theorem test_bitPack : runOn .bitPack 2 0 .empty [1, 0, 1, 1, 0] (fun t => (output t, t.bitcnt)) =
    some ([0xB0], 5) := by decide +kernel

/-- R300: a byte that is no bit; `BITCNT` stays. -/
theorem test_bitPack_badBits : runOn .bitPack 2 7 .empty [1, 2] (fun t => (report t, t.bitcnt)) =
    some ((0x00000B04, 1), 7) := by decide +kernel

/-- R302: C0 in exact mode with `BITCNT = 3`. -/
theorem test_bitUnpack_exact : runOn .bitUnpack 2 3 .empty [0xC0] output = some [1, 1, 0] := by decide +kernel

/-- R302: `BITCNT = 9` does not fit one byte. -/
theorem test_bitUnpack_badBitcnt : runOn .bitUnpack 2 9 .empty [0xC0] report = some (0x00000C04, 9) := by decide +kernel

/-- R320: "aaaa" in TEXT. -/
theorem test_compress : runOn .compress 2 0 .empty [0x61, 0x61, 0x61, 0x61]
    (fun t => (t.dst0Len, t.mem.readBytes 0x400 t.dst1Len.toNat, t.bitcnt, t.treeNodes)) =
    some (76, [0x7E, 0xF2, 0xCC, 0x46, 0xC0], 35, 13) := by decide +kernel

/-- R322, S4: the blob of the leaf `(` and one bit decode to `(`, which is FORMAT(1) as a text. -/
theorem test_decompress_single_leaf :
    seen (step (running .decompress 2 1 (layout 10 1 0x10 0) .empty [1, 0, 0, 0, 1, 0x28, 1, 0, 0, 0] [0])) report =
      some (0x00000704, 1) := by decide +kernel

/-- S4: with no payload it succeeds with no byte, and the tree is the leaf. -/
theorem test_decompress_empty_payload :
    seen (step (running .decompress 2 0 (layout 10 0 0x10 0) .empty [1, 0, 0, 0, 1, 0x28, 1, 0, 0, 0] []))
      (fun t => (report t, t.dst0Len, t.tree)) = some ((2, 0), 0, .node (.leaf 0x28 1)) := by decide +kernel

/-- P4, line 9: SRC0 past the end of `DMEM`. -/
theorem test_range : seen (step (running .hufBuild 6 0 ⟨0xFFC, 8, 0, 0, 0, 0, 0, 0⟩ .empty [] []))
    (fun t => (report t, t.irq)) = some ((0x00000204, 0), true) := by decide +kernel

/-- P4, line 14: DST0 over SRC0. -/
theorem test_overlap : seen (step (running .lzCompress 2 0 ⟨0, 4, 0, 0, 2, 4, 0, 0⟩ .empty [1, 2, 3, 4] [])) report =
    some (0x00000304, 0x200) := by decide +kernel

/-- P4, line 17: 39 bytes of room for 40. -/
theorem test_capacity : seen (step (running .lzCompress 2 0 (layout 4 0 39 0) .empty [0x61, 0x62, 0x63, 0x64] []))
    report = some (0x00000404, 40) := by decide +kernel

/-- R175, R320: "a" is the text `(0,0,a)` of 7 bytes, whose counts 1, 1, 1, 2, 2 merge with the sums 2, 3, 4 and 7: 16 bits, which
need 2 bytes in DST1. -/
theorem test_capacity_dst1 : seen (step (running .compress 2 0 (layout 1 0 0x100 1) .empty [0x61] [])) report =
    some (0x00000504, 2) := by decide +kernel

/-- R321: one token takes 10 bytes of scratch. -/
theorem test_scratch :
    seen (step { running .compress 2 0 (layout 1 0 0x100 0x100) .empty [0x61] [] with
      params := { Params.standard with scratchBytes := some 9 } }) report = some (0x00000604, 10) := by decide +kernel

/-- P4, line 5: `RSVD` is not 0. -/
theorem test_illegal_word : seen (step (State.reset.withFetchWord 32 0x105)) report = some (0x00000104, 0x105) := by
  decide +kernel

/-! ### Registers and the host -/

/-- V-REG-3. -/
theorem test_ctrl_reserved_bits :
    seen (step (withInputs State.reset [.write 4 0x80000004 0xFFFFFFFF])) (fun t => t.readReg .ctrl) = some 7 := by
  decide +kernel

/-- V-REG-6. -/
theorem test_status_done_bit_alone :
    seen (step (withInputs { State.reset with err := true, errCode := .illegalCmd } [.write 4 0x8000000C 2]))
      (fun t => t.readReg .status) = some 0x104 := by decide +kernel

/-- R84: bytes 1 to 4 of a host word, least significant first. -/
theorem test_host_word :
    seen (step (withInputs State.reset [.write 4 0x10 0x04030201])) (fun t => t.mem.readBytes 0x10 4) =
      some [1, 2, 3, 4] := by decide +kernel

/-- R84: two bytes of the value, and no other byte. -/
theorem test_host_half_word :
    seen (step (withInputs { State.reset with mem := State.reset.mem.writeBytes 0x10 [5, 6, 7, 8] }
      [.write 2 0x12 0x04030201])) (fun t => t.mem.readBytes 0x10 4) = some [5, 6, 1, 2] := by decide +kernel

/-! ### Witnesses: a state and operands that meet the hypotheses of each statement, clause by clause -/

/-- The ranges of `layout` pass the checks of every command (R172, R173). -/
theorem layout_ok (u : Uses) (n0 n1 c0 c1 : Word) (h0 : n0.toNat ≤ 0x100) (h1 : n1.toNat ≤ 0x100)
    (k0 : c0.toNat ≤ 0x200) (k1 : c1.toNat ≤ 0x200) : OperandsOk 0x1000 u (layout n0 n1 c0 c1) := by
  constructor <;> intros <;> simp [layout, DescriptorOk, NoCommonByte] <;> omega

theorem running_runs (i : Instr) (ctrl bitcnt : Word) (d : Descriptors) (tree : Tree) (b0 b1 : Bytes) :
    (running i ctrl bitcnt d tree b0 b1).runs (contextOf i ctrl bitcnt d) := ⟨0, rfl⟩

/-- A command that runs over `b0` with room for 0x100 bytes, as the statements about one command ask for it. -/
abbrev sampleDesc (b0 : Bytes) : Descriptors := layout (BitVec.ofNat 32 b0.length) 0 0x100 0x100

/-- The source bytes of `running` are `b0`, while they fit below SRC1. -/
theorem source0_running (i : Instr) (ctrl bitcnt : Word) (tree : Tree) (b0 : Bytes) (c0 c1 : Word)
    (h : b0.length ≤ 0x100) :
    State.source0 (running i ctrl bitcnt (layout (BitVec.ofNat 32 b0.length) 0 c0 c1) tree b0 [])
      (contextOf i ctrl bitcnt (layout (BitVec.ofNat 32 b0.length) 0 c0 c1)) = b0 := by
  have hl : (BitVec.ofNat 32 b0.length).toNat = b0.length := by
    simp only [BitVec.toNat_ofNat]
    omega
  simp only [State.source0, running, contextOf, layout, hl]
  rw [Memory.readBytes_writeBytes_apart _ _ _ _ _ (by simp; omega)]
  exact Memory.readBytes_writeBytes_same _ _ _

/-- The operands of `running` over `layout` pass the checks. -/
theorem running_ok (i : Instr) (ctrl bitcnt : Word) (tree : Tree) (b0 b1 : Bytes) (n0 n1 c0 c1 : Word)
    (h0 : n0.toNat ≤ 0x100) (h1 : n1.toNat ≤ 0x100) (k0 : c0.toNat ≤ 0x200) (k1 : c1.toNat ≤ 0x200) :
    OperandsOk (running i ctrl bitcnt (layout n0 n1 c0 c1) tree b0 b1).params.memBytes (usesOf i)
      (contextOf i ctrl bitcnt (layout n0 n1 c0 c1)).desc := layout_ok _ _ _ _ _ h0 h1 k0 k1

theorem witness_ReservedWordsEndAsIllegalCommand :
    ∀ w ∈ [0x100, 0x0F, 0xFF], ∃ c, (State.reset.withFetchWord 32 w).seq = .busy c 0 ∧
      (c.word.toNat / 256 ≠ 0 ∨ 0x0F ≤ c.word.toNat % 256) := by
  intro w hw
  refine ⟨_, rfl, ?_⟩
  revert w
  decide

theorem witness_StepRunsTheAcceptedCommand :
    (∃ c, (State.reset.withFetchWord 32 0x0E).seq = .busy c 0 ∧ decode (bytesLe32 c.word) = .ok (.decompress, [])) ∧
    (∃ (s : State) (c : Context), s.seq = .busy c (0 + 1)) ∧ State.reset.seq = .idle ∧ State.reset.inputs = [] ∧
    (withInputs State.reset [.waitPoll]).inputs = .waitPoll :: [] ∧
    (withInputs State.reset [.waitIrq]).inputs = .waitIrq :: [] :=
  ⟨⟨_, rfl, rfl⟩, ⟨{ State.reset with seq := .busy (contextOf .nop 2 0 (layout 0 0 0 0)) 1 }, _, rfl⟩, rfl, rfl, rfl, rfl⟩

/-- A NOP that still takes `n` steps, with inputs for the host. -/
def delayed (n : Nat) (inputs : List Input) : State :=
  { State.reset with seq := .busy (contextOf .lzCompress 2 0 (layout 4 0 0x100 0)) n, inputs := inputs }

theorem witness_DelayDoesNotChangeTheCompletion :
    (∃ c n, (delayed 3 []).seq = .busy c n ∧ decodeWord c.word = .ok .lzCompress ∧ (delayed 3 []).inputs = []) ∧
    (∃ c n, (delayed 0 [.waitPoll]).seq = .busy c n ∧ decodeWord c.word = .ok .lzCompress ∧
      ∃ rest, (delayed 0 [.waitPoll]).inputs = .waitPoll :: rest) :=
  ⟨⟨_, _, rfl, rfl, rfl⟩, ⟨_, _, rfl, rfl, _, rfl⟩⟩

theorem witness_AcceptanceLatchesTheCommand :
    ∃ s : State, s.seq = .idle ∧ s.inputs = .write 4 (s.params.regBase + 0x08) 0x0D#32 :: [] :=
  ⟨withInputs State.reset [.write 4 0x80000008 0x0D], rfl, rfl⟩

theorem witness_BusyRegisterWritesAreIgnored :
    ∃ (s1 s2 : State) (c : Context),
      (s1.seq = .busy c (0 + 1) ∧ 0xFC < 0x100 ∧ 0xFC % 4 = 0 ∧ s1.inputs = .write 4 (s1.params.regBase + 0xFC) 5 :: []) ∧
      (s2.seq = .busy c (0 + 1) ∧ 0x0C < 0x100 ∧ 0x0C % 4 = 0 ∧ s2.inputs = .read 4 (s2.params.regBase + 0x0C) :: [] ∧
        s2.inputs.head? ≠ some .reset ∧ ∃ t, step s2 = .next t) :=
  ⟨delayed 1 [.write 4 0x800000FC 5], delayed 1 [.read 4 0x8000000C], _,
    ⟨rfl, by decide, rfl, rfl⟩, rfl, by decide, rfl, rfl, by simp [delayed], _, rfl⟩

theorem witness_RegisterReadsAndReadOnlyWrites :
    (∀ off ∈ [0x00, 0x04, 0x08, 0x0C, 0x10, 0x14, 0x18, 0x1C, 0x20, 0x24, 0x28, 0x2C, 0x30, 0x34, 0x38, 0x3C, 0x40, 0x44],
      ∃ s : State, s.inputs = .read 4 (s.params.regBase + off) :: []) ∧
    (∃ s : State, s.inputs = .read 4 (s.params.regBase + 0x48) :: []) ∧
    (∃ s : State, s.inputs = .read 4 (s.params.regBase + 0xFC) :: []) ∧
    (∃ s : State, s.inputs = .write 4 (s.params.regBase + 0x00) 1 :: []) ∧
    (∃ s : State, s.inputs = .write 4 (s.params.regBase + 0x44) 1 :: []) ∧
    (∃ s : State, s.inputs = .write 4 (s.params.regBase + 0xFC) 1 :: []) :=
  ⟨fun off _ => ⟨withInputs State.reset [.read 4 (0x80000000 + off)], rfl⟩,
    ⟨withInputs State.reset [.read 4 0x80000048], rfl⟩, ⟨withInputs State.reset [.read 4 0x800000FC], rfl⟩,
    ⟨withInputs State.reset [.write 4 0x80000000 1], rfl⟩, ⟨withInputs State.reset [.write 4 0x80000044 1], rfl⟩,
    ⟨withInputs State.reset [.write 4 0x800000FC 1], rfl⟩⟩

theorem witness_StatusRegister :
    (∃ s : State, s.seq = .idle ∧ s.inputs = .write 4 (s.params.regBase + 0x0C) 6 :: []) ∧
    (∃ (s : State) (c : Context), s.seq = .busy c (0 + 1) ∧ s.inputs = .write 4 (s.params.regBase + 0x0C) 6 :: []) :=
  ⟨⟨withInputs State.reset [.write 4 0x8000000C 6], rfl, rfl⟩, ⟨delayed 1 [.write 4 0x8000000C 6], _, rfl, rfl⟩⟩

theorem witness_IdleWritesStoreRegisters :
    ∀ off ∈ [0x04, 0x1C, 0x20, 0x24, 0x28, 0x2C, 0x30, 0x34, 0x38, 0x3C],
      ∃ s : State, s.seq = .idle ∧ s.inputs = .write 4 (s.params.regBase + off) 0xFFFFFFFF#32 :: [] :=
  fun off _ => ⟨withInputs State.reset [.write 4 (0x80000000 + off) 0xFFFFFFFF], rfl, rfl⟩

theorem witness_IllegalHostAccessesFault :
    (0xFC < 0x100 ∧ 4 = 4 ∧ 0xFC % 4 = 0) ∧ (0xFF < 0x100 ∧ ¬(1 = 4 ∧ 0xFF % 4 = 0)) ∧
    (State.reset.seq = .idle ∧ inRegBlock State.reset.params (State.reset.params.dmemBase + 0xFFC) = false ∧
      0xFFC % 4 = 0 ∧ 0xFFC + 4 ≤ State.reset.params.memBytes) ∧
    (inRegBlock State.reset.params (State.reset.params.dmemBase + 0x1000) = false ∧ 0x1000 % 1 = 0 ∧
      State.reset.params.memBytes < 0x1000 + 1) ∧
    (inRegBlock State.reset.params (State.reset.params.dmemBase + 0xFFE) = false ∧
      ¬((4 = 1 ∨ 4 = 2 ∨ 4 = 4) ∧ 0xFFE % 4 = 0)) := by decide

/-- The last bytes of `DMEM`, in each width. -/
theorem witness_HostWordsAreLittleEndian :
    ∀ x ∈ [(1, 0xFFF), (2, 0xFFE), (4, 0xFFC)], ∃ (s1 s2 s3 : State) (v : Word),
      s1.seq = .idle ∧ s2.seq = .idle ∧ s3.seq = .idle ∧
      inRegBlock s1.params (s1.params.dmemBase + x.2) = false ∧ (x.1 = 1 ∨ x.1 = 2 ∨ x.1 = 4) ∧ x.2 % x.1 = 0 ∧
      x.2 + x.1 = s1.params.memBytes ∧
      s1.inputs = .write x.1 (s1.params.dmemBase + x.2) v :: [] ∧
      s2.inputs = .read x.1 (s2.params.dmemBase + x.2) :: [] ∧
      s3.inputs = .write x.1 (s3.params.dmemBase + x.2) v :: .read x.1 (s3.params.dmemBase + x.2) :: [] := by
  intro x hx
  refine ⟨withInputs State.reset [.write x.1 (0 + x.2) 7], withInputs State.reset [.read x.1 (0 + x.2)],
    withInputs State.reset [.write x.1 (0 + x.2) 7, .read x.1 (0 + x.2)], 7, rfl, rfl, rfl, ?_, ?_, ?_, ?_, rfl, rfl, rfl⟩ <;>
    revert x <;> decide

/-- The used ranges of `delayed` are [0, 4) and [0x200, 0x300). -/
theorem witness_BusyMemoryHazards :
    ∃ (s1 s2 s3 s4 : State) (c : Context), s1.seq = .busy c 0 ∧ s2.seq = .busy c 0 ∧ s3.seq = .busy c 0 ∧
      s4.seq = .busy c 0 ∧ decodeWord c.word = .ok .lzCompress ∧
      (inRegBlock s1.params (s1.params.dmemBase + 0x3) = false ∧ 0x3 + 1 ≤ s1.params.memBytes ∧
        s1.inputs = .write 1 (s1.params.dmemBase + 0x3) 0 :: [] ∧ inUsedSrc (usesOf .lzCompress) c.desc 0x3 = true) ∧
      (s2.inputs = .write 4 (s2.params.dmemBase + 0x4) 0 :: [] ∧
        ∀ x, 0x4 ≤ x → x < 0x4 + 4 →
          inUsedSrc (usesOf .lzCompress) c.desc x = false ∧ inUsedDst (usesOf .lzCompress) c.desc x = false) ∧
      (s3.inputs = .read 1 (s3.params.dmemBase + 0x200) :: [] ∧ inUsedDst (usesOf .lzCompress) c.desc 0x200 = true) ∧
      (s4.inputs = .read 1 (s4.params.dmemBase + 0x1FF) :: [] ∧ ∀ x, 0x1FF ≤ x → x < 0x1FF + 1 →
        inUsedDst (usesOf .lzCompress) c.desc x = false) := by
  refine ⟨delayed 0 [.write 1 0x3 0], delayed 0 [.write 4 0x4 0], delayed 0 [.read 1 0x200], delayed 0 [.read 1 0x1FF], _,
    rfl, rfl, rfl, rfl, rfl, ⟨by decide, by decide, rfl, by decide⟩, ⟨rfl, ?_⟩, ⟨rfl, by decide⟩, ⟨rfl, ?_⟩⟩
  · intro x h1 h2
    simp [usesOf, contextOf, layout, inUsedSrc, inUsedDst, inDescriptor]
    omega
  · intro x h1 h2
    simp [usesOf, contextOf, layout, inUsedDst, inDescriptor]
    omega

theorem witness_HostReadsHaveNoSideEffect :
    ∃ s t : State, s.inputs = .read 4 (s.params.regBase + 0x0C) :: [] ∧ s.hostTurn = .next t ∧ s.seq = .idle :=
  ⟨withInputs State.reset [.read 4 0x8000000C], _, rfl, rfl, rfl⟩

theorem witness_RunningCommandKeepsItsOperands :
    ∃ (s t : State) (c : Context), s.seq = .busy c (0 + 1) ∧ decodeWord c.word = .ok .lzCompress ∧
      s.inputs.head? ≠ some .reset ∧ step s = .next t ∧ inUsedSrc (usesOf .lzCompress) c.desc 3 = true ∧
      inUsedDst (usesOf .lzCompress) c.desc 0x2FF = true :=
  ⟨delayed 1 [.write 4 0x4 9], _, _, rfl, rfl, by simp [delayed], rfl, by decide, by decide⟩

theorem witness_ResetAbandonsTheCommand :
    (∃ s : State, s.inputs = .reset :: [] ∧ s.seq = .idle) ∧
    (∃ s : State, s.inputs = .reset :: [] ∧ ∃ c n, s.seq = .busy c (n + 1)) :=
  ⟨⟨withInputs State.reset [.reset], rfl, rfl⟩, ⟨delayed 1 [.reset], rfl, _, _, rfl⟩⟩

theorem witness_ResetMeetsTheInvariant :
    Params.wf { Params.standard with memBytes := 1 } = true ∧
    Params.wf { Params.standard with memBytes := 2147483647 } = true := by decide

/-- The invariant holds while a TREE_RESET runs over the tree of "aab". -/
theorem running_inv : (running .treeReset 2 0 (layout 0 0 0 0) treeAab [] []).Inv where
  params := by decide
  ctrlReserved := by decide
  flags := by decide
  errCode := by decide
  irq := by decide
  treeNodes := rfl
  tree := by decide
  mem := ⟨List.Pairwise.nil, fun x hx => by cases hx⟩
  context := by
    intro c n h
    cases h
    exact ⟨rfl, rfl, rfl⟩

theorem witness_StepKeepsTheInvariant :
    ∃ s t : State, s.Inv ∧ step s = .next t := ⟨_, _, running_inv, rfl⟩

theorem witness_OnlyTreeCommandsChangeTheTree :
    ∃ s t : State, s.Inv ∧ step s = .next t ∧ t.tree ≠ s.tree := ⟨_, _, running_inv, rfl, by simp [running, treeAab]; decide⟩

theorem witness_EveryCommandCompletes : ∀ i : Instr, ∃ (s : State) (c : Context), s.runs c ∧ c.word = encodeWord i ∧
    s.done = false ∧ s.err = false :=
  fun i => ⟨running i 2 0 (layout 0 0 0 0) .empty [] [], _, running_runs _ _ _ _ _ _ _, rfl, rfl, rfl⟩

theorem witness_OnlyHostAccessesStop :
    (∃ c, (delayed 0 [.read 3 0]).seq = .busy c 0) ∧
    ((∀ size addr rest, (delayed 1 [.waitPoll]).inputs ≠ .read size addr :: rest) ∧
      ∀ size addr v rest, (delayed 1 [.waitPoll]).inputs ≠ .write size addr v :: rest) :=
  ⟨⟨_, rfl⟩, by simp [delayed], by simp [delayed]⟩

/-- Descriptors for which each check in its place is the first to fail, COMPRESS and DECOMPRESS using them. -/
theorem witness_OperandChecksInOrder :
    operandError 0x1000 (usesOf .compress) ⟨0xFFF, 2, 0, 0, 0xFFF, 2, 0, 0⟩ = some ⟨.range, 0⟩ ∧
    operandError 0x1000 (usesOf .decompress) ⟨0xFFF, 1, 0x1000, 1, 0, 0, 0, 0⟩ = some ⟨.range, 1⟩ ∧
    operandError 0x1000 (usesOf .compress) ⟨0, 1, 0, 0, 0xFFFFFFFF, 1, 0, 0⟩ = some ⟨.range, 2⟩ ∧
    operandError 0x1000 (usesOf .compress) ⟨0, 1, 0, 0, 0, 1, 0, 0x1001⟩ = some ⟨.range, 3⟩ ∧
    operandError 0x1000 (usesOf .compress) ⟨0, 4, 0, 0, 3, 4, 6, 4⟩ = some ⟨.overlap, 0x0200⟩ ∧
    operandError 0x1000 (usesOf .decompress) ⟨0, 4, 7, 4, 4, 4, 0, 0⟩ = some ⟨.overlap, 0x0201⟩ ∧
    operandError 0x1000 (usesOf .compress) ⟨0, 4, 0, 0, 4, 4, 3, 4⟩ = some ⟨.overlap, 0x0300⟩ ∧
    operandError 0x1000 ⟨true, true, true, true⟩ ⟨0, 4, 8, 4, 4, 4, 11, 4⟩ = some ⟨.overlap, 0x0301⟩ ∧
    operandError 0x1000 (usesOf .compress) ⟨0, 4, 0, 0, 4, 4, 7, 4⟩ = some ⟨.overlap, 0x0203⟩ ∧
    operandError 0x1000 (usesOf .compress) ⟨0, 4, 0, 0, 4, 4, 8, 0xFF8⟩ = none := by decide

/-- Of the list of checks: at the first and the last place, with nothing failing before it. -/
theorem witness_OperandChecksInOrder_places :
    (∃ bad : Prop, (operandChecks 0x1000 (usesOf .compress) ⟨0xFFF, 2, 0, 0, 0, 0, 0, 0⟩)[0]? =
      some (bad, ⟨.range, 0⟩) ∧ bad) ∧
    (∃ bad : Prop, (operandChecks 0x1000 (usesOf .compress) ⟨0, 4, 0, 0, 4, 4, 7, 4⟩)[8]? =
      some (bad, ⟨.overlap, 0x0203⟩) ∧ bad ∧
      ∀ j bad' e', j < 8 → (operandChecks 0x1000 (usesOf .compress) ⟨0, 4, 0, 0, 4, 4, 7, 4⟩)[j]? = some (bad', e') →
        ¬bad') := by
  refine ⟨⟨_, rfl, rfl, by simp [DescriptorOk]⟩, ⟨_, rfl, ⟨rfl, rfl, fun h => h 7 (by decide)⟩, ?_⟩⟩
  intro j bad' e' hj h
  interval_cases j <;>
    simp only [operandChecks, List.getElem?_cons_zero, List.getElem?_cons_succ, Option.some.injEq, Prod.mk.injEq] at h <;>
    obtain ⟨rfl, -⟩ := h <;>
    simp [usesOf, DescriptorOk, NoCommonByte] <;> omega

/-! ### Witnesses: the statements about every command -/

/-- The records of `(0,0,a)`. -/
def recordA : Bytes := [0, 0, 0, 0, 0, 0, 0, 0, 1, 0x61]

/-- The records of a reference before the output. -/
def recordBad : Bytes := [0, 0, 0, 0, 1, 0, 0, 0, 0, 0]

theorem witness_OperationErrorsEndTheCommand :
    ∃ (s : State) (c : Context) (e : EngineError), s.runs c ∧
      OperandsOk s.params.memBytes (usesOf .lzDecompress) c.desc ∧
      operationOf .lzDecompress (s.opInput (usesOf .lzDecompress) c) = .error e :=
  ⟨running .lzDecompress 2 0 (sampleDesc recordBad) .empty recordBad [], _, _, running_runs _ _ _ _ _ _ _,
    running_ok _ _ _ _ _ _ _ _ _ _ (by decide) (by decide) (by decide) (by decide), rfl⟩

theorem compress_a : okWith (opCompress ⟨Params.standard, 2, 0, [0x61], [], .empty⟩)
    (fun r => decide (r.out0.length ≤ 0x200) && decide (0 < r.out1.length)) = true := by decide +kernel

/-- One byte of room too little in DST0 (a blob of 4 bytes), and in DST1. -/
theorem witness_CapacityErrorsReportTheLength :
    (∃ (s : State) (c : Context) (r : OpResult), s.runs c ∧
      OperandsOk s.params.memBytes (usesOf .treeSerialize) c.desc ∧
      operationOf .treeSerialize (s.opInput (usesOf .treeSerialize) c) = .ok r ∧
      c.desc.dst0Cap.toNat + 1 = r.out0.length) ∧
    (∃ (s : State) (c : Context) (r : OpResult), s.runs c ∧
      OperandsOk s.params.memBytes (usesOf .compress) c.desc ∧
      operationOf .compress (s.opInput (usesOf .compress) c) = .ok r ∧
      r.out0.length ≤ c.desc.dst0Cap.toNat ∧ c.desc.dst1Cap.toNat < r.out1.length) := by
  refine ⟨⟨running .treeSerialize 2 0 (layout 0 0 3 0) .empty [] [], _, _, running_runs _ _ _ _ _ _ _,
    running_ok _ _ _ _ _ _ _ _ _ _ (by decide) (by decide) (by decide) (by decide), rfl, rfl⟩, ?_⟩
  obtain ⟨r, h, h'⟩ := exists_of_okWith compress_a
  refine ⟨running .compress 2 0 (layout 1 0 0x200 0) .empty [0x61] [], _, r, running_runs _ _ _ _ _ _ _,
    running_ok _ _ _ _ _ _ _ _ _ _ (by decide) (by decide) (by decide) (by decide), h, ?_⟩
  simpa [contextOf, layout] using h'

theorem witness_SuccessWritesExactlyItsOutputs :
    ∃ (s t : State) (c : Context), s.runs c ∧ s.done = false ∧ exec .treeSerialize s = .next t ∧ t.done = true :=
  ⟨running .treeSerialize 2 0 (layout 0 0 4 0) .empty [] [], _, _, running_runs _ _ _ _ _ _ _, rfl, rfl, rfl⟩

/-- An error of a check, and one of the capacity. -/
theorem witness_ErrorsLeaveOtherBytes :
    (∃ (s t : State) (c : Context), s.runs c ∧ s.err = false ∧ exec .treeSerialize s = .next t ∧ t.err = true ∧
      t.errCode.isCheck = true) ∧
    (∃ (s t : State) (c : Context), s.runs c ∧ s.err = false ∧ exec .treeSerialize s = .next t ∧ t.err = true ∧
      t.errCode.isCheck = false ∧ inUsedDst (usesOf .treeSerialize) c.desc 0x202 = true) :=
  ⟨⟨running .treeSerialize 2 0 (layout 0 0 0xE01 0) .empty [] [], _, _, running_runs _ _ _ _ _ _ _, rfl, rfl, rfl, rfl⟩,
    ⟨running .treeSerialize 2 0 (layout 0 0 3 0) .empty [] [], _, _, running_runs _ _ _ _ _ _ _, rfl, rfl, rfl, rfl,
      by decide⟩⟩

theorem witness_CommandFrame : ∃ (s t : State) (c : Context), s.runs c ∧ exec .nop s = .next t :=
  ⟨running .nop 2 0 (layout 0 0 0 0) treeAab [] [], _, _, running_runs _ _ _ _ _ _ _, rfl⟩

/-- Two states that differ in `BITCNT`, in a byte outside the sources and in the time the command takes. -/
theorem witness_CompletionDependsOnlyOnOperands :
    ∃ (s1 s2 : State) (c : Context), s1.runs c ∧ s2.runs c ∧ s1 ≠ s2 ∧ s1.params = s2.params ∧ s1.tree = s2.tree ∧
      (∀ a, inUsedSrc (usesOf .hufBuild) c.desc a = true → s1.mem.byte a = s2.mem.byte a) ∧ s1.done = false ∧
      s2.done = false ∧ s1.err = false ∧ s2.err = false ∧ s1.errCode = s2.errCode := by
  refine ⟨running .hufBuild 2 0 (layout 2 0 0 0) .empty [1, 2] [],
    { running .hufBuild 2 0 (layout 2 0 0 0) .empty [1, 2] [] with
      bitcnt := 5
      seq := .busy (contextOf .hufBuild 2 0 (layout 2 0 0 0)) 3
      mem := (running .hufBuild 2 0 (layout 2 0 0 0) .empty [1, 2] []).mem.writeBytes 2 [3] },
    _, running_runs _ _ _ _ _ _ _, ⟨3, rfl⟩, ?_, rfl, rfl, ?_, rfl, rfl, rfl, rfl, rfl⟩
  · intro h
    have := congrArg State.bitcnt h
    simp [running] at this
  · intro a h
    refine (Memory.byte_writeBytes_outside _ _ _ _ (.inl ?_)).symm
    simpa [inUsedSrc, usesOf, contextOf, layout, inDescriptor] using h

/-! ### Witnesses: the statements about one command, clause by clause -/

theorem witness_NopCompletes_and_TreeResetEmptiesTheStore :
    (∃ (s : State) (c : Context), s.runs c) ∧ ∃ (s : State) (c : Context), s.runs c ∧ s.tree ≠ .empty :=
  ⟨⟨running .nop 2 0 (layout 0 0 0 0) .empty [] [], _, running_runs _ _ _ _ _ _ _⟩,
    ⟨running .treeReset 2 0 (layout 0 0 0 0) treeAab [] [], _, running_runs _ _ _ _ _ _ _, by simp [running, treeAab]⟩⟩

/-- What the statements about one command ask for first: it runs, its operands are legal, and its source is `b0`. -/
def sampleRuns (i : Instr) (ctrl bitcnt : Word) (tree : Tree) (b0 : Bytes) (c0 : Word) : Prop :=
  ∃ (s : State) (c : Context), s.runs c ∧ OperandsOk s.params.memBytes (usesOf i) c.desc ∧ s.source0 c = b0 ∧
    c.ctrl = ctrl ∧ c.bitcnt = bitcnt ∧ s.tree = tree ∧ s.params = Params.standard ∧ c.desc.dst0Cap = c0

theorem sampleRuns_any (i : Instr) (ctrl bitcnt : Word) (tree : Tree) (b0 : Bytes) (c0 : Word) (h : b0.length ≤ 0x100)
    (hc : c0.toNat ≤ 0x200) : sampleRuns i ctrl bitcnt tree b0 c0 :=
  ⟨running i ctrl bitcnt (layout (BitVec.ofNat 32 b0.length) 0 c0 0x100) tree b0 [], _, running_runs _ _ _ _ _ _ _,
    running_ok _ _ _ _ _ _ _ _ _ _ (by simp only [BitVec.toNat_ofNat]; omega) (by decide) hc (by decide),
    source0_running _ _ _ _ _ _ _ h, rfl, rfl, rfl, rfl, rfl⟩

/-- The two bytes "ab" are two records: 20 bytes fit, 19 do not. -/
theorem witness_LzCompressWritesRecords :
    (lz77 .firstScanned [0x61, 0x62]).length = 2 ∧
    sampleRuns .lzCompress 2 0 .empty [0x61, 0x62] 20 ∧
    sampleRuns .lzCompress 2 0 .empty [0x61, 0x62] 19 :=
  ⟨by decide, sampleRuns_any _ _ _ _ _ _ (by decide) (by decide), sampleRuns_any _ _ _ _ _ _ (by decide) (by decide)⟩

/-- A token that copies after one that is a literal; the other clauses of the statement stand below. -/
theorem witness_LzDecompressReplaysTokens_token :
    replay [⟨0, 0, some 0x61⟩] = .ok [0x61] ∧
    replay ([⟨0, 0, some 0x61⟩] ++ [⟨1, 2, some 0x62⟩]) = .ok [0x61, 0x61, 0x61, 0x62] := ⟨rfl, rfl⟩

theorem witness_LzDecompressReplaysTokens :
    (sampleRuns .lzDecompress 2 0 .empty [1] 8 ∧ parseRecs [1] = .error ⟨.format, 0⟩) ∧
    (sampleRuns .lzDecompress 2 0 .empty recordBad 8 ∧
      parseRecs recordBad = .ok [⟨0, 1, none⟩] ∧ replay [⟨0, 1, none⟩] = .error ⟨.badToken, 0⟩) ∧
    (sampleRuns .lzDecompress 2 0 .empty recordA 1 ∧
      sampleRuns .lzDecompress 2 0 .empty recordA 0 ∧
      parseRecs recordA = .ok [⟨0, 0, some 0x61⟩] ∧ replay [⟨0, 0, some 0x61⟩] = .ok [0x61]) :=
  ⟨⟨sampleRuns_any _ _ _ _ _ _ (by decide) (by decide), rfl⟩,
    ⟨sampleRuns_any _ _ _ _ _ _ (by decide) (by decide), rfl, rfl⟩,
    ⟨sampleRuns_any _ _ _ _ _ _ (by decide) (by decide), sampleRuns_any _ _ _ _ _ _ (by decide) (by decide), rfl, rfl⟩⟩

/-- `(0,0,a)` is 7 bytes of text; in BINARY the record is copied. -/
theorem witness_TokSerializeWritesTheTokenString :
    (sampleRuns .tokSerialize 2 0 .empty [1] 8 ∧ parseRecs [1] = .error ⟨.format, 0⟩) ∧
    (sampleRuns .tokSerialize 2 0 .empty recordA 7 ∧
      sampleRuns .tokSerialize 2 0 .empty recordA 6 ∧
      parseRecs recordA = .ok [⟨0, 0, some 0x61⟩] ∧ (text [⟨0, 0, some 0x61⟩]).length = 7) ∧
    (sampleRuns .tokSerialize 3 0 .empty recordA 10 ∧
      sampleRuns .tokSerialize 3 0 .empty recordA 9) :=
  ⟨⟨sampleRuns_any _ _ _ _ _ _ (by decide) (by decide), rfl⟩,
    ⟨sampleRuns_any _ _ _ _ _ _ (by decide) (by decide), sampleRuns_any _ _ _ _ _ _ (by decide) (by decide), rfl, rfl⟩,
    ⟨sampleRuns_any _ _ _ _ _ _ (by decide) (by decide), sampleRuns_any _ _ _ _ _ _ (by decide) (by decide)⟩⟩

theorem witness_TokParseWritesRecords :
    (sampleRuns .tokParse 2 0 .empty [0x78] 10 ∧ parseText [0x78] = .error ⟨.format, 0⟩) ∧
    (sampleRuns .tokParse 2 0 .empty [0x28, 0x30, 0x2C, 0x30, 0x2C, 0x29] 10 ∧
      sampleRuns .tokParse 2 0 .empty [0x28, 0x30, 0x2C, 0x30, 0x2C, 0x29] 9 ∧
      parseText [0x28, 0x30, 0x2C, 0x30, 0x2C, 0x29] = .ok [⟨0, 0, none⟩]) ∧
    (sampleRuns .tokParse 3 0 .empty recordA 10 ∧ parseRecs recordA = .ok [⟨0, 0, some 0x61⟩]) :=
  ⟨⟨sampleRuns_any _ _ _ _ _ _ (by decide) (by decide), rfl⟩,
    ⟨sampleRuns_any _ _ _ _ _ _ (by decide) (by decide), sampleRuns_any _ _ _ _ _ _ (by decide) (by decide), rfl⟩,
    ⟨sampleRuns_any _ _ _ _ _ _ (by decide) (by decide), rfl⟩⟩

/-- The empty source, and one byte. -/
theorem witness_HufBuildReplacesTheTree :
    sampleRuns .hufBuild 2 0 treeAab [] 0 ∧ sampleRuns .hufBuild 2 0 treeAab [0x62] 0 :=
  ⟨sampleRuns_any _ _ _ _ _ _ (by decide) (by decide), sampleRuns_any _ _ _ _ _ _ (by decide) (by decide)⟩

theorem witness_HufEncodeWritesTheCodes :
    (sampleRuns .hufEncode 2 0 treeAab [0x61, 0x63] 8 ∧ code treeAab 0x63 = none ∧
      ∀ u ∈ [(0x61 : Byte), 0x63].take 1, code treeAab u ≠ none) ∧
    (sampleRuns .hufEncode 2 0 treeAab [0x61, 0x62] 2 ∧
      sampleRuns .hufEncode 2 0 treeAab [0x61, 0x62] 1 ∧
      (∀ v ∈ [(0x61 : Byte), 0x62], code treeAab v ≠ none) ∧
      [true, false] = [(0x61 : Byte), 0x62].flatMap fun v => (code treeAab v).getD []) :=
  ⟨⟨sampleRuns_any _ _ _ _ _ _ (by decide) (by decide), by decide, by decide⟩,
    ⟨sampleRuns_any _ _ _ _ _ _ (by decide) (by decide), sampleRuns_any _ _ _ _ _ _ (by decide) (by decide), by decide,
      by decide⟩⟩

theorem witness_HufDecodeWritesTheBytes :
    (sampleRuns .hufDecode 2 0 treeAab [1, 2] 8 ∧ ¬IsBitByte 2 ∧
      ∀ u ∈ [(1 : Byte), 2].take 1, IsBitByte u) ∧
    (sampleRuns .hufDecode 2 0 .empty [1] 8 ∧ [1] = bytesOf [true]) ∧
    (sampleRuns .hufDecode 2 0 treeAbc [1] 8 ∧ hufDecode [true] treeAbc true = .error ⟨.badBits, 1⟩) ∧
    (sampleRuns .hufDecode 0 0 treeAab [1, 0] 2 ∧
      sampleRuns .hufDecode 0 0 treeAab [1, 0] 1 ∧
      hufDecode [true, false] treeAab false = .ok [0x61, 0x62]) :=
  ⟨⟨sampleRuns_any _ _ _ _ _ _ (by decide) (by decide), by simp [IsBitByte], by simp [IsBitByte]⟩,
    ⟨sampleRuns_any _ _ _ _ _ _ (by decide) (by decide), rfl⟩,
    ⟨sampleRuns_any _ _ _ _ _ _ (by decide) (by decide), rfl⟩,
    ⟨sampleRuns_any _ _ _ _ _ _ (by decide) (by decide), sampleRuns_any _ _ _ _ _ _ (by decide) (by decide), rfl⟩⟩

theorem witness_TreeSerializeWritesTheBlob :
    (sampleRuns .treeSerialize 2 0 .empty [] 4 ∧ (treeBlob .empty).length = 4) ∧
    (sampleRuns .treeSerialize 2 0 treeAab [] 21 ∧
      sampleRuns .treeSerialize 2 0 treeAab [] 20 ∧ (treeBlob treeAab).length = 21) :=
  ⟨⟨sampleRuns_any _ _ _ _ _ _ (by decide) (by decide), rfl⟩,
    ⟨sampleRuns_any _ _ _ _ _ _ (by decide) (by decide), sampleRuns_any _ _ _ _ _ _ (by decide) (by decide), rfl⟩⟩

theorem witness_TreeDeserializeLoadsTheTree :
    (sampleRuns .treeDeserialize 2 0 treeAab [0, 0, 0] 0 ∧
      parseTreeBlob [0, 0, 0] = .error ⟨.corruptTree, 0⟩) ∧
    (sampleRuns .treeDeserialize 2 0 treeAab [0, 0, 0, 0] 0 ∧ parseTreeBlob [0, 0, 0, 0] = .ok .empty) :=
  ⟨⟨sampleRuns_any _ _ _ _ _ _ (by decide) (by decide), rfl⟩, ⟨sampleRuns_any _ _ _ _ _ _ (by decide) (by decide), rfl⟩⟩

/-- Nine bits are two bytes. -/
theorem witness_BitPackWritesThePayload :
    (sampleRuns .bitPack 2 0 .empty [1, 2] 8 ∧ ¬IsBitByte 2 ∧
      ∀ u ∈ [(1 : Byte), 2].take 1, IsBitByte u) ∧
    (sampleRuns .bitPack 2 0 .empty [1, 1, 1, 1, 1, 1, 1, 1, 0] 2 ∧
      sampleRuns .bitPack 2 0 .empty [1, 1, 1, 1, 1, 1, 1, 1, 0] 1 ∧
      [1, 1, 1, 1, 1, 1, 1, 1, 0] = bytesOf [true, true, true, true, true, true, true, true, false]) :=
  ⟨⟨sampleRuns_any _ _ _ _ _ _ (by decide) (by decide), by simp [IsBitByte], by simp [IsBitByte]⟩,
    ⟨sampleRuns_any _ _ _ _ _ _ (by decide) (by decide), sampleRuns_any _ _ _ _ _ _ (by decide) (by decide), rfl⟩⟩

/-- In exact mode one byte takes a `BITCNT` of 1 to 8: 9 and 0 do not name its bits. -/
theorem witness_BitUnpackWritesTheBits :
    (sampleRuns .bitUnpack 2 9 .empty [0xC0] 8 ∧ 8 * [(0xC0 : Byte)].length < (9 : Word).toNat) ∧
    (sampleRuns .bitUnpack 2 0 .empty [0xC0] 8 ∧ (0 : Word).toNat + 7 < 8 * [(0xC0 : Byte)].length) ∧
    (sampleRuns .bitUnpack 2 1 .empty [0xC0] 1 ∧
      sampleRuns .bitUnpack 2 8 .empty [0xC0] 7 ∧ 8 * [(0xC0 : Byte)].length ≤ (1 : Word).toNat + 7) ∧
    sampleRuns .bitUnpack 0 0 .empty [0xC0] 8 :=
  ⟨⟨sampleRuns_any _ _ _ _ _ _ (by decide) (by decide), by decide⟩,
    ⟨sampleRuns_any _ _ _ _ _ _ (by decide) (by decide), by decide⟩,
    ⟨sampleRuns_any _ _ _ _ _ _ (by decide) (by decide), sampleRuns_any _ _ _ _ _ _ (by decide) (by decide), by decide⟩,
    sampleRuns_any _ _ _ _ _ _ (by decide) (by decide)⟩

/-- COMPRESS runs over `b0`, with a blob that may take `c0` bytes, a payload that may take `c1`, and that scratch capacity. -/
def compressRuns (scratch : Option Nat) (ctrl : Word) (b0 : Bytes) (c0 c1 : Word) : Prop :=
  ∃ (s : State) (c : Context), s.runs c ∧ OperandsOk s.params.memBytes (usesOf .compress) c.desc ∧ s.source0 c = b0 ∧
    c.ctrl = ctrl ∧ s.params = { Params.standard with scratchBytes := scratch } ∧ c.desc.dst0Cap = c0 ∧ c.desc.dst1Cap = c1

theorem compressRuns_any (scratch : Option Nat) (ctrl : Word) (b0 : Bytes) (c0 c1 : Word) (h : b0.length ≤ 0x100)
    (h0 : c0.toNat ≤ 0x200) (h1 : c1.toNat ≤ 0x200) : compressRuns scratch ctrl b0 c0 c1 :=
  ⟨{ running .compress ctrl 0 (layout (BitVec.ofNat 32 b0.length) 0 c0 c1) .empty b0 [] with
      params := { Params.standard with scratchBytes := scratch } },
    contextOf .compress ctrl 0 (layout (BitVec.ofNat 32 b0.length) 0 c0 c1), ⟨0, rfl⟩,
    layout_ok _ _ _ _ _ (by simp only [BitVec.toNat_ofNat]; omega) (by decide) h0 h1,
    source0_running .compress ctrl 0 .empty b0 c0 c1 h, rfl, rfl, rfl, rfl⟩

theorem compress_empty : lz77 .firstScanned [] = [] ∧ text [] = [] ∧ build [] = .empty ∧ hufEncode [] .empty = .ok [] :=
  ⟨by decide, by decide, by decide +kernel, rfl⟩

/-- One token takes 10 bytes of scratch: 9 are too few. The blob of "" takes 4 bytes: 3 are too few, 4 are enough. The payload
of "a" takes at least a byte (`compress_a`): none is too few. The bit-count limit is in the same clause as SCRATCH; no small
input reaches it. -/
theorem witness_CompressWritesBlobAndPayload :
    (compressRuns (some 9) 2 [0x61] 0x100 0x100 ∧ 10 * (lz77 .firstScanned [0x61]).length = 10 ∧
      ¬FitsScratch (some 9) 10 ∧ FitsScratch (some 10) 10) ∧
    (compressRuns none 2 [] 3 0 ∧ compressRuns none 2 [] 4 0 ∧ (treeBlob (build [])).length = 4) ∧
    compressRuns none 2 [0x61] 0x200 0 := by
  refine ⟨⟨compressRuns_any _ _ _ _ _ (by decide) (by decide) (by decide), by decide, ?_, ?_⟩,
    ⟨compressRuns_any _ _ _ _ _ (by decide) (by decide) (by decide),
      compressRuns_any _ _ _ _ _ (by decide) (by decide) (by decide), by decide +kernel⟩,
    compressRuns_any _ _ _ _ _ (by decide) (by decide) (by decide)⟩
  · intro h
    have := h 9 rfl
    omega
  · intro n h
    cases h
    decide

/-- DECOMPRESS runs over the blob `b0` and the payload `b1`. -/
def decompressRuns (scratch : Option Nat) (ctrl bitcnt : Word) (b0 b1 : Bytes) (c0 : Word) : Prop :=
  ∃ (s : State) (c : Context), s.runs c ∧ OperandsOk s.params.memBytes (usesOf .decompress) c.desc ∧
    s.source0 c = b0 ∧ s.source1 c = b1 ∧ c.ctrl = ctrl ∧ c.bitcnt = bitcnt ∧
    s.params = { Params.standard with scratchBytes := scratch } ∧ c.desc.dst0Cap = c0

theorem decompressRuns_any (scratch : Option Nat) (ctrl bitcnt : Word) (b0 b1 : Bytes) (c0 : Word)
    (h0 : b0.length ≤ 0x100) (h1 : b1.length ≤ 0x100) (hc : c0.toNat ≤ 0x200) :
    decompressRuns scratch ctrl bitcnt b0 b1 c0 := by
  have l0 : (BitVec.ofNat 32 b0.length).toNat = b0.length := by simp only [BitVec.toNat_ofNat]; omega
  have l1 : (BitVec.ofNat 32 b1.length).toNat = b1.length := by simp only [BitVec.toNat_ofNat]; omega
  refine ⟨{ running .decompress ctrl bitcnt
      (layout (BitVec.ofNat 32 b0.length) (BitVec.ofNat 32 b1.length) c0 0) .empty b0 b1 with
      params := { Params.standard with scratchBytes := scratch } },
    contextOf .decompress ctrl bitcnt (layout (BitVec.ofNat 32 b0.length) (BitVec.ofNat 32 b1.length) c0 0), ⟨0, rfl⟩,
    layout_ok _ _ _ _ _ (by omega) (by omega) hc (by decide), ?_, ?_, rfl, rfl, rfl, rfl⟩
  · simp only [State.source0, running, contextOf, layout, l0]
    rw [Memory.readBytes_writeBytes_apart _ _ _ _ _ (by simp; omega)]
    exact Memory.readBytes_writeBytes_same _ _ _
  · simp only [State.source1, running, contextOf, layout, l1]
    exact Memory.readBytes_writeBytes_same _ _ _

/-- The blob of the leaf `(`, and its tree. -/
def blobOpen : Bytes := [1, 0, 0, 0, 1, 0x28, 1, 0, 0, 0]

/-- The blob of the tree of the text `(0,0,)`. -/
def blobText : Bytes :=
  [7, 0, 0, 0, 0, 6, 0, 0, 0, 0, 2, 0, 0, 0, 1, 40, 1, 0, 0, 0, 1, 41, 1, 0, 0, 0, 0, 4, 0, 0, 0, 1, 44, 2, 0, 0, 0,
    1, 48, 2, 0, 0, 0]

/-- The tree of the text `(0,0,)`. -/
def treeText : Tree :=
  .node (.internal 6 (.internal 2 (.leaf 40 1) (.leaf 41 1)) (.internal 4 (.leaf 44 2) (.leaf 48 2)))

/-- The blob of the tree of `recordBad`. -/
def blobBad : Bytes := [3, 0, 0, 0, 0, 10, 0, 0, 0, 1, 1, 1, 0, 0, 0, 1, 0, 9, 0, 0, 0]

/-- The tree of `recordBad`. -/
def treeBad : Tree := .node (.internal 10 (.leaf 1 1) (.leaf 0 9))

/-- The blob of the tree of `recordA`. -/
def blobA : Bytes :=
  [5, 0, 0, 0, 0, 10, 0, 0, 0, 0, 2, 0, 0, 0, 1, 1, 1, 0, 0, 0, 1, 97, 1, 0, 0, 0, 1, 0, 8, 0, 0, 0]

/-- The tree of `recordA`. -/
def treeA : Tree := .node (.internal 10 (.internal 2 (.leaf 1 1) (.leaf 97 1)) (.leaf 0 8))

/-- The bits of the text `(0,0,)`, of `recordBad` and of `recordA`. -/
def bitsText : List Bit := [false, false, true, true, true, false, true, true, true, false, false, true]
def bitsBad : List Bit := [true, true, true, true, false, true, true, true, true, true]
def bitsA : List Bit := [true, true, true, true, true, true, true, true, false, false, false, true]

/-- A corrupt blob; a bit count that is no count of the payload; too many payload bytes; no tree for the bits; too many decoded
bytes. -/
theorem witness_DecompressWritesTheBytes_first :
    (decompressRuns none 2 0 [] [] 8 ∧ parseTreeBlob [] = .error ⟨.corruptTree, 0⟩) ∧
    (decompressRuns none 2 9 blobOpen [0] 8 ∧ parseTreeBlob blobOpen = .ok (.node (.leaf 0x28 1)) ∧
      unpack [0] true 9 = .error ⟨.badBitcnt, 9⟩) ∧
    (decompressRuns (some 0) 2 1 blobOpen [0] 8 ∧ unpack [0] true 1 = .ok [false] ∧ ¬FitsScratch (some 0) ((1 + 7) / 8)) ∧
    (decompressRuns none 2 1 [0, 0, 0, 0] [0] 8 ∧ parseTreeBlob [0, 0, 0, 0] = .ok .empty ∧
      hufDecode [false] .empty true = .error ⟨.badBits, 0⟩) ∧
    (decompressRuns (some 1) 2 2 blobOpen [0] 8 ∧ unpack [0] true 2 = .ok [false, false] ∧
      FitsScratch (some 1) ((2 + 7) / 8) ∧
      hufDecode [false, false] (.node (.leaf 0x28 1)) true = .ok [0x28, 0x28] ∧ ¬FitsScratch (some 1) 2) :=
  ⟨⟨decompressRuns_any _ _ _ _ _ _ (by decide) (by decide) (by decide), rfl⟩,
    ⟨decompressRuns_any _ _ _ _ _ _ (by decide) (by decide) (by decide), rfl, rfl⟩,
    ⟨decompressRuns_any _ _ _ _ _ _ (by decide) (by decide) (by decide), rfl, by simp [FitsScratch]⟩,
    ⟨decompressRuns_any _ _ _ _ _ _ (by decide) (by decide) (by decide), rfl, rfl⟩,
    ⟨decompressRuns_any _ _ _ _ _ _ (by decide) (by decide) (by decide), rfl, by simp [FitsScratch], rfl,
      by simp [FitsScratch]⟩⟩

/-- A token string that is none; too many records; a token with no output behind it; an output that does not fit, and one that
does. -/
theorem witness_DecompressWritesTheBytes_last :
    (decompressRuns none 2 1 blobOpen [0] 8 ∧ hufDecode [false] (.node (.leaf 0x28 1)) true = .ok [0x28] ∧
      parseTokenString false [0x28] = .error ⟨.format, 1⟩) ∧
    (decompressRuns (some 9) 2 12 blobText [59, 144] 8 ∧ parseTreeBlob blobText = .ok treeText ∧
      unpack [59, 144] true 12 = .ok bitsText ∧ hufDecode bitsText treeText true = .ok [0x28, 0x30, 0x2C, 0x30, 0x2C, 0x29] ∧
      FitsScratch (some 9) 6 ∧ parseTokenString false [0x28, 0x30, 0x2C, 0x30, 0x2C, 0x29] = .ok [⟨0, 0, none⟩] ∧
      ¬FitsScratch (some 9) (10 * 1)) ∧
    (decompressRuns none 3 10 blobBad [247, 192] 0 ∧ parseTreeBlob blobBad = .ok treeBad ∧
      unpack [247, 192] true 10 = .ok bitsBad ∧ hufDecode bitsBad treeBad true = .ok recordBad ∧
      parseTokenString true recordBad = .ok [⟨0, 1, none⟩] ∧ replay [⟨0, 1, none⟩] = .error ⟨.badToken, 0⟩) ∧
    (decompressRuns none 3 12 blobA [255, 16] 0 ∧ decompressRuns none 3 12 blobA [255, 16] 1 ∧
      parseTreeBlob blobA = .ok treeA ∧ unpack [255, 16] true 12 = .ok bitsA ∧ hufDecode bitsA treeA true = .ok recordA ∧
      parseTokenString true recordA = .ok [⟨0, 0, some 0x61⟩] ∧ replay [⟨0, 0, some 0x61⟩] = .ok [0x61]) :=
  ⟨⟨decompressRuns_any _ _ _ _ _ _ (by decide) (by decide) (by decide), rfl, rfl⟩,
    ⟨decompressRuns_any _ _ _ _ _ _ (by decide) (by decide) (by decide), rfl, rfl, rfl, by simp [FitsScratch], rfl,
      by simp [FitsScratch]⟩,
    ⟨decompressRuns_any _ _ _ _ _ _ (by decide) (by decide) (by decide), rfl, rfl, rfl, rfl, rfl⟩,
    ⟨decompressRuns_any _ _ _ _ _ _ (by decide) (by decide) (by decide),
      decompressRuns_any _ _ _ _ _ _ (by decide) (by decide) (by decide), rfl, rfl, rfl, rfl, rfl⟩⟩

/-! ### Witnesses: the codecs -/

theorem witness_SearchKeepsALongestMatch : 0 < 1 ∧ 1 < [(1 : Byte), 1].length ∧ searchMatch .firstScanned [1, 1] 1 = (1, 1) ∧
    searchMatch .nearest [1, 1] 1 = (1, 1) ∧ searchMatch .nearest [1, 2] 1 = (0, 0) := by decide

/-- The second token of "aa" stands at byte 1, and there is none at byte 3. -/
theorem witness_SearchKeepsALongestMatch_tokens : [(0x61 : Byte), 0x61].length ≤ 2147483647 ∧
    1 = (((lz77 .firstScanned [0x61, 0x61]).take 1).map fun t => t.length.toNat + 1).sum ∧
    3 = (((lz77 .firstScanned [0x61, 0x61]).take 2).map fun t => t.length.toNat + 1).sum := by decide

theorem witness_LzTokenBounds : [(1 : Byte), 1].length ≤ 2147483647 ∧
    (lz77 .firstScanned [1, 1])[1]? = some ⟨1, 1, none⟩ := by decide

theorem witness_LzRoundTrip : ([] : Bytes).length ≤ 2147483647 ∧ [(1 : Byte)].length ≤ 2147483647 := by decide

theorem witness_UnrepeatedInputGivesLiterals :
    ∀ i j, j < i → i - 32768 ≤ j → (h : i < [(1 : Byte), 2].length) → [(1 : Byte), 2][j]? ≠ some [(1 : Byte), 2][i] := by
  intro i j hj _ h
  have hi : i = 1 := by
    simp at h
    omega
  subst hi
  have : j = 0 := by omega
  subst this
  simp

/-- A stream that parses; one that is truncated after a good record, one with a value where there is none, one with a bad flag. -/
theorem witness_RecordStreamsRoundTrip :
    parseRecs recordA = .ok [⟨0, 0, some 0x61⟩] ∧ parseRecs (recordA ++ [0]) = .error ⟨.format, 10⟩ ∧
    parseRecs [0, 0, 0, 0, 0, 0, 0, 0, 0, 1] = .error ⟨.format, 9⟩ ∧
    parseRecs [0, 0, 0, 0, 0, 0, 0, 0, 2, 1] = .error ⟨.format, 8⟩ := ⟨rfl, rfl, rfl, rfl⟩

/-- A text that parses; one that ends too early, and one with a byte that no text has there. -/
theorem witness_TextRoundTrip :
    parseText [0x28, 0x30, 0x2C, 0x30, 0x2C, 0x29, 0x29] = .ok [⟨0, 0, some 0x29⟩] ∧
    parseText [0x28] = .error ⟨.format, 1⟩ ∧ parseText [0x28, 0x30, 0x30] = .error ⟨.format, 2⟩ := ⟨rfl, rfl, rfl⟩

theorem witness_BuiltTreesAreLegal : 2147483647 ≤ 2147483647 ∧ [(1 : Byte)] ≠ [] ∧ (1 : Byte) ∈ [(1 : Byte)] ∧
    code (build [1]) 1 = some [false] := by decide +kernel

theorem witness_BuiltCodesArePrefixFree :
    (Node.internal 3 (.leaf 0x63 1) (.internal 2 (.leaf 0x61 1) (.leaf 0x62 1))).leafValues.Nodup ∧ (1 : Byte) ≠ 2 ∧ code (build [1, 2]) 1 = some [false] ∧
    code (build [1, 2]) 2 = some [true] := by decide +kernel

theorem witness_HuffmanRoundTrip : (∀ v ∈ [(0x61 : Byte), 0x62], code treeAab v ≠ none) ∧
    [(0x61 : Byte), 0x63][1]? = some 0x63 ∧ code treeAab 0x63 = none ∧
    ∀ u ∈ [(0x61 : Byte), 0x63].take 1, code treeAab u ≠ none := by decide

/-- The tree of "abc": the bits of `c`, then the first bit of the code of `a`. (The clauses for `EMPTY` and for a single leaf have
no hypothesis.) -/
theorem witness_PartialPathsByMode :
    (Node.internal 3 (.leaf 0x63 1) (.internal 2 (.leaf 0x61 1) (.leaf 0x62 1))).leafValues.Nodup ∧
    hufEncode [0x63] treeAbc = .ok [false] ∧ [true] ≠ [] ∧
    ∃ v c rest, code treeAbc v = some c ∧ c = [true] ++ rest ∧ rest ≠ [] :=
  ⟨by decide, rfl, by decide, 0x61, [true, false], [false], by decide, rfl, by decide⟩

theorem witness_TreeBlobRoundTrip : Tree.wf .empty = true ∧ treeAbc.wf = true := by decide

theorem witness_AcceptedBlobsAreLegalTrees : parseTreeBlob blobOpen = .ok (.node (.leaf 0x28 1)) := rfl

theorem witness_PackedBitPositions : [true][0]? = some true ∧ [true].length ≤ 7 := by decide

/-- One byte, in exact mode: counts that name its bits, and the nearest that do not. -/
theorem witness_PackRoundTrip : (1 ≤ 8 * [(0xC0 : Byte)].length ∧ 8 * [(0xC0 : Byte)].length ≤ 1 + 7) ∧
    (8 ≤ 8 * [(0xC0 : Byte)].length ∧ 8 * [(0xC0 : Byte)].length ≤ 8 + 7) ∧
    8 * [(0xC0 : Byte)].length < 9 ∧ 0 + 7 < 8 * [(0xC0 : Byte)].length := by decide

theorem witness_PipelineRoundTrip :
    ∃ (x y : OpInput) (r : OpResult) (m : Nat), x.src0.length ≤ 2147483647 ∧ opCompress x = .ok r ∧ r.bitcnt = some m ∧
      y.params = x.params ∧ y.src0 = r.out0 ∧ y.src1 = r.out1 ∧ y.bitcnt = BitVec.ofNat 32 m ∧
      y.ctrl.getLsbD 1 = true ∧ y.ctrl.getLsbD 0 = x.ctrl.getLsbD 0 := by
  have hk : okWith (opCompress ⟨Params.standard, 2, 0, [0x61], [], .empty⟩) (fun r => r.bitcnt.isSome) = true := by
    decide +kernel
  obtain ⟨r, h, h'⟩ := exists_of_okWith hk
  obtain ⟨m, hm⟩ := Option.isSome_iff_exists.mp h'
  exact ⟨_, ⟨Params.standard, 2, BitVec.ofNat 32 m, r.out0, r.out1, .empty⟩, r, m, by decide, h, hm, rfl, rfl, rfl, rfl,
    by simp, by simp⟩

/-- What `PadModeOutcome` looks at in the result of a COMPRESS: `k` padding bits, and the leftmost leaf with its depth. -/
def padFacts (r : OpResult) (k : Nat) (leaf : Byte × Nat) : Bool :=
  match r.tree, r.bitcnt with
  | some (.node root), some m => decide ((8 - m % 8) % 8 = k) && decide (leftmostLeaf root = leaf)
  | _, _ => false

theorem padFacts_spec {r : OpResult} {k : Nat} {leaf : Byte × Nat} (h : padFacts r k leaf = true) :
    ∃ m root, r.bitcnt = some m ∧ r.tree = some (.node root) ∧ k = (8 - m % 8) % 8 ∧ leftmostLeaf root = leaf := by
  unfold padFacts at h
  split at h
  · rename_i root m h1 h2
    simp only [Bool.and_eq_true, decide_eq_true_eq] at h
    exact ⟨m, root, h2, h1, h.1.symm, h.2⟩
  · cases h

/-- The inputs that meet the hypotheses of `PadModeOutcome` with the bytes `b`. -/
def PadSample (ctrl : Word) (b : Bytes) (k : Nat) (leaf : Byte × Nat) : Prop :=
  ∃ (x y : OpInput) (r : OpResult) (m : Nat) (root : Node), x.src0 = b ∧ x.ctrl = ctrl ∧ x.params.lzTie = .firstScanned ∧
    x.params.scratchBytes = none ∧ opCompress x = .ok r ∧ r.bitcnt = some m ∧ r.tree = some (.node root) ∧
    k = (8 - m % 8) % 8 ∧ leftmostLeaf root = leaf ∧ y.params = x.params ∧ y.src0 = r.out0 ∧ y.src1 = r.out1 ∧
    y.ctrl.getLsbD 1 = false ∧ y.ctrl.getLsbD 0 = x.ctrl.getLsbD 0

theorem padSample_of {ctrl : Word} {b : Bytes} {k : Nat} {leaf : Byte × Nat}
    (h : okWith (opCompress ⟨Params.standard, ctrl, 0, b, [], .empty⟩) (fun r => padFacts r k leaf) = true) :
    PadSample ctrl b k leaf := by
  obtain ⟨r, h, h'⟩ := exists_of_okWith h
  obtain ⟨m, root, h1, h2, h3, h4⟩ := padFacts_spec h'
  exact ⟨_, ⟨Params.standard, ctrl &&& 1, 0, r.out0, r.out1, .empty⟩, r, m, root, rfl, rfl, rfl, rfl, h, h1, h2, h3, h4, rfl,
    rfl, rfl, by simp, by simp⟩

/-- The leaves of a result's tree from left to right, each with its code: the tree but for its frequencies. -/
def codesOf (r : OpResult) : Option (List (Byte × Option (List Bit))) :=
  r.tree.map fun t => t.leafValues.map fun v => (v, code t v)

/-- R324 for `,00` in TEXT, as it follows from R147, R255, R301 and R322 (assumption 10): COMPRESS, then DECOMPRESS in pad mode.
The payload is the one of `,00)`, and so is the tree but for its frequencies, which affect TREE_SERIALIZE alone (U23); of
`,00)`, with fewer padding zeros than the leftmost leaf is deep, R324 says that the round trip holds. -/
theorem test_pad_mode_close_after_an_absent_token :
    (okWith (opCompress ⟨Params.standard, 0, 0, [0x2C, 0x30, 0x30], [], .empty⟩) fun r =>
      okWith (opDecompress ⟨Params.standard, 0, 0, r.out0, r.out1, .empty⟩) fun d =>
        decide (d.out0 = [0x2C, 0x30, 0x30, 0x29]) &&
      okWith (opCompress ⟨Params.standard, 0, 0, [0x2C, 0x30, 0x30, 0x29], [], .empty⟩) fun r' =>
        decide (r'.out1 = r.out1) && decide (codesOf r' = codesOf r) && padFacts r 3 (0x29, 2) && padFacts r' 1 (0x29, 2)) = true := by decide +kernel

/-- The empty input in pad mode. -/
theorem witness_PadModeOutcome_empty :
    okWith (opCompress ⟨Params.standard, 0, 0, [], [], .empty⟩) (fun r => decide (r.bitcnt = some 0)) = true := by
  decide +kernel

/-- Clause by clause: fewer zeros than the depth; BINARY; TEXT with another leaf, with the leaf `(`, with the leaf `)` after a
present token, and after an absent one with one spurious byte and with more. -/
theorem witness_PadModeOutcome :
    PadSample 2 [97, 40] 1 (0x28, 2) ∧ PadSample 3 [97] 4 (0x01, 2) ∧ PadSample 2 [44] 3 (0x2C, 1) ∧
    PadSample 2 [41] 2 (0x28, 2) ∧ PadSample 2 [40] 2 (0x29, 2) ∧
    (PadSample 2 [41, 40, 40] 2 (0x29, 2) ∧ (lz77 .firstScanned [41, 40, 40]).getLast? = some ⟨1, 1, none⟩) ∧
    (PadSample 2 [97, 41, 41] 7 (0x29, 2) ∧ (lz77 .firstScanned [97, 41, 41]).getLast? = some ⟨1, 1, none⟩) :=
  ⟨padSample_of (by decide +kernel), padSample_of (by decide +kernel), padSample_of (by decide +kernel),
    padSample_of (by decide +kernel), padSample_of (by decide +kernel),
    ⟨padSample_of (by decide +kernel), by decide⟩, ⟨padSample_of (by decide +kernel), by decide⟩⟩

end Sys2Proof.Tests
end

section
/-! SUPPORT. The error codes each operation can raise (40_control.md R176, 60_exceptions.md R350), by the codes of its
parsers and coders. -/

namespace Sys2Proof.Machine

/-- Every error a computation raises has a code of which `p` holds. -/
def RaisesOnly (p : ErrCode → Prop) {α : Type} (x : Except EngineError α) : Prop :=
  ∀ e, x = .error e → p e.code

section Composition

variable {p q : ErrCode → Prop} {α β : Type} {x : Except EngineError α}

@[simp] theorem RaisesOnly.ok (a : α) : RaisesOnly p (.ok a : Except EngineError α) := fun _ h => nomatch h

@[simp] theorem RaisesOnly.error_iff (e : EngineError) : RaisesOnly p (.error e : Except EngineError α) ↔ p e.code :=
  ⟨fun h => h e rfl, fun h _ he => by cases he; exact h⟩

theorem RaisesOnly.mono (h : RaisesOnly p x) (hpq : ∀ c, p c → q c) : RaisesOnly q x :=
  fun e he => hpq _ (h e he)

theorem RaisesOnly.bind {f : α → Except EngineError β} (hx : RaisesOnly p x) (hf : ∀ a, RaisesOnly p (f a)) :
    RaisesOnly p (x >>= f) := by
  cases x with
  | error e => exact (RaisesOnly.error_iff e).mpr (hx e rfl)
  | ok a => exact hf a

theorem RaisesOnly.map {f : α → β} (hx : RaisesOnly p x) : RaisesOnly p (f <$> x) := by
  cases x with
  | error e => exact (RaisesOnly.error_iff e).mpr (hx e rfl)
  | ok a => exact RaisesOnly.ok _

theorem RaisesOnly.ite {c : Prop} [Decidable c] {y : Except EngineError α} (hx : RaisesOnly p x)
    (hy : RaisesOnly p y) : RaisesOnly p (if c then x else y) := by
  split
  · exact hx
  · exact hy

end Composition

/-! ### Token strings: FORMAT -/

@[simp] theorem formatError_raisesOnly {α : Type} (k : Nat) :
    RaisesOnly (· = .format) (formatError k : Except EngineError α) := by
  simp [formatError]

theorem recordNext_raisesOnly (k : Nat) (flag value : Byte) : RaisesOnly (· = .format) (recordNext k flag value) :=
  .ite (.ok _) (.ite (.ite (formatError_raisesOnly _) (.ok _)) (formatError_raisesOnly _))

theorem parseRecsFrom_raisesOnly (k : Nat) (s : Bytes) : RaisesOnly (· = .format) (parseRecsFrom k s) := by
  induction k, s using parseRecsFrom.induct with
  | case1 k => exact .ok _
  | case2 k _ _ _ _ _ _ _ _ flag value rest ih =>
    exact (recordNext_raisesOnly k flag value).bind fun _ => ih.bind fun _ => .ok _
  | case3 s k hnil hrec =>
    rw [parseRecsFrom]
    · exact formatError_raisesOnly k
    · exact hnil
    · exact hrec

theorem parseRecs_raisesOnly (s : Bytes) : RaisesOnly (· = .format) (parseRecs s) := parseRecsFrom_raisesOnly 0 s

theorem numberLoop_raisesOnly (v k : Nat) (s : Bytes) : RaisesOnly (· = .format) (numberLoop v k s) := by
  induction s generalizing v k with
  | nil => exact formatError_raisesOnly k
  | cons c rest ih =>
    exact .ite (.ite (formatError_raisesOnly k) (ih _ _)) (.ite (.ok _) (formatError_raisesOnly k))

theorem parseNumber_raisesOnly (k : Nat) (s : Bytes) : RaisesOnly (· = .format) (parseNumber k s) := by
  cases s with
  | nil => exact formatError_raisesOnly k
  | cons c rest =>
    exact .ite (.ite (formatError_raisesOnly _) (numberLoop_raisesOnly _ _ _)) (formatError_raisesOnly k)

theorem parseNext_raisesOnly (k : Nat) (s : Bytes) : RaisesOnly (· = .format) (parseNext k s) := by
  match s with
  | [] => exact formatError_raisesOnly k
  | [_] => exact .ite (.ok _) (formatError_raisesOnly _)
  | _ :: _ :: _ => exact .ite (.ok _) (.ite (.ok _) (formatError_raisesOnly _))

theorem parseToken_raisesOnly (k : Nat) (s : Bytes) : RaisesOnly (· = .format) (parseToken k s) := by
  cases s with
  | nil => exact formatError_raisesOnly k
  | cons c rest =>
    refine .ite ?_ (formatError_raisesOnly k)
    exact (parseNumber_raisesOnly _ _).bind fun _ => (parseNumber_raisesOnly _ _).bind fun _ =>
      (parseNext_raisesOnly _ _).bind fun _ => .ok _

theorem parseTextFrom_raisesOnly (fuel k : Nat) (s : Bytes) : RaisesOnly (· = .format) (parseTextFrom fuel k s) := by
  induction fuel generalizing k s with
  | zero => cases s with
    | nil => exact .ok _
    | cons c rest => exact formatError_raisesOnly k
  | succ fuel ih => cases s with
    | nil => exact .ok _
    | cons c rest => exact (parseToken_raisesOnly k _).bind fun _ => (ih _ _).bind fun _ => .ok _

theorem parseTokenString_raisesOnly (binary : Bool) (s : Bytes) :
    RaisesOnly (· = .format) (parseTokenString binary s) :=
  .ite (parseRecs_raisesOnly s) (parseTextFrom_raisesOnly _ 0 s)

theorem replayFrom_raisesOnly (k : Nat) (out : Bytes) (ts : List Token) :
    RaisesOnly (· = .badToken) (replayFrom k out ts) := by
  induction ts generalizing k out with
  | nil => exact .ok _
  | cons t ts ih => exact .ite ((RaisesOnly.error_iff _).mpr rfl) (ih _ _)

theorem replay_raisesOnly (ts : List Token) : RaisesOnly (· = .badToken) (replay ts) := replayFrom_raisesOnly 0 [] ts

/-! ### Bit arrays and payloads: BAD_BITS, BAD_BITCNT -/

theorem bitsFrom_raisesOnly (k : Nat) (s : Bytes) : RaisesOnly (· = .badBits) (bitsFrom k s) := by
  induction s generalizing k with
  | nil => exact .ok _
  | cons c rest ih => exact .ite (ih _).map (.ite (ih _).map ((RaisesOnly.error_iff _).mpr rfl))

theorem bitsOf_raisesOnly (s : Bytes) : RaisesOnly (· = .badBits) (bitsOf s) := bitsFrom_raisesOnly 0 s

theorem unpack_raisesOnly (s : Bytes) (exact : Bool) (bc : Nat) : RaisesOnly (· = .badBitcnt) (unpack s exact bc) :=
  .ite (.ite ((RaisesOnly.error_iff _).mpr rfl) (.ok _)) (.ok _)

/-! ### Huffman codes: ENCODE_MISS, BAD_BITS -/

theorem hufEncodeFrom_raisesOnly (t : Tree) (k : Nat) (s : Bytes) :
    RaisesOnly (· = .encodeMiss) (hufEncodeFrom t k s) := by
  induction s generalizing k with
  | nil => exact .ok _
  | cons v rest ih =>
    rw [hufEncodeFrom]
    split
    · exact (RaisesOnly.error_iff _).mpr rfl
    · exact (ih _).map

theorem hufEncode_raisesOnly (s : Bytes) (t : Tree) : RaisesOnly (· = .encodeMiss) (hufEncode s t) :=
  hufEncodeFrom_raisesOnly t 0 s

theorem walkBits_raisesOnly (root : Node) (exact : Bool) (total : Nat) (cur : Node) (mid : Bool) (bs : List Bit) :
    RaisesOnly (· = .badBits) (walkBits root exact total cur mid bs) := by
  induction bs generalizing cur mid with
  | nil => exact .ite ((RaisesOnly.error_iff _).mpr rfl) (.ok _)
  | cons b bs ih =>
    rw [walkBits]
    split
    · exact (ih _ _).map
    · exact ih _ _

theorem hufDecode_raisesOnly (bs : List Bit) (t : Tree) (exact : Bool) :
    RaisesOnly (· = .badBits) (hufDecode bs t exact) := by
  match t with
  | .empty => exact .ite (.ok _) ((RaisesOnly.error_iff _).mpr rfl)
  | .node (.leaf _ _) => exact .ok _
  | .node (.internal _ _ _) => exact walkBits_raisesOnly _ _ _ _ _ _

/-! ### Tree blobs: CORRUPT_TREE -/

@[simp] theorem corruptTree_raisesOnly {α : Type} (k : Nat) :
    RaisesOnly (· = .corruptTree) (corruptTree k : Except EngineError α) := by
  simp [corruptTree]

theorem readNode_raisesOnly (fuel : Nat) (k : TreeCursor) : RaisesOnly (· = .corruptTree) (readNode fuel k) := by
  induction fuel generalizing k with
  | zero => exact corruptTree_raisesOnly _
  | succ fuel ih =>
    rw [readNode]
    refine .ite (corruptTree_raisesOnly _) ?_
    split
    · exact corruptTree_raisesOnly _
    · refine .ite ?_ (.ite ?_ (corruptTree_raisesOnly _))
      · split
        · exact .ite (corruptTree_raisesOnly _) (.ok _)
        · exact corruptTree_raisesOnly _
      · split
        · exact (ih _).bind fun _ => (ih _).bind fun _ => .ok _
        · exact corruptTree_raisesOnly _

theorem parseTreeBlob_raisesOnly (b : Bytes) : RaisesOnly (· = .corruptTree) (parseTreeBlob b) := by
  unfold parseTreeBlob
  split
  · refine .ite (corruptTree_raisesOnly _) (.ite (.ite (.ok _) (corruptTree_raisesOnly _)) ?_)
    exact (readNode_raisesOnly _ _).bind fun _ =>
      .ite (corruptTree_raisesOnly _) (.ite (corruptTree_raisesOnly _) (.ok _))
  · exact corruptTree_raisesOnly _

/-! ### The pipeline's limits: SCRATCH -/

theorem scratchCheck_raisesOnly (capacity : Option Nat) (n : Nat) :
    RaisesOnly (· = .scratch) (scratchCheck capacity n) := by
  cases capacity with
  | none => exact .ok _
  | some k => exact .ite ((RaisesOnly.error_iff _).mpr rfl) (.ok _)

theorem bitCountCheck_raisesOnly (m : Nat) : RaisesOnly (· = .scratch) (bitCountCheck m) :=
  .ite ((RaisesOnly.error_iff _).mpr rfl) (.ok _)

/-! ### The operations -/

/-- A computation whose errors have one code, other than 0, raises no error with the code 0. -/
theorem RaisesOnly.ne_noError {α : Type} {x : Except EngineError α} {c : ErrCode} (h : RaisesOnly (· = c) x)
    (hc : c ≠ .noError) : RaisesOnly (· ≠ .noError) x :=
  h.mono fun _ hd => hd ▸ hc

/-- No operation raises an error with the code 0 (R350). -/
theorem operationOf_raisesOnly (i : Instr) (x : OpInput) : RaisesOnly (· ≠ .noError) (operationOf i x) := by
  have records := (parseRecs_raisesOnly x.src0).ne_noError (by decide)
  have tokens : ∀ s, RaisesOnly (· ≠ .noError) (parseTokenString (tokfmtOf x.ctrl) s) := fun s =>
    (parseTokenString_raisesOnly _ s).ne_noError (by decide)
  have replays : ∀ ts, RaisesOnly (· ≠ .noError) (replay ts) := fun ts => (replay_raisesOnly ts).ne_noError (by decide)
  have bits := (bitsOf_raisesOnly x.src0).ne_noError (by decide)
  have unpacks : ∀ s, RaisesOnly (· ≠ .noError) (unpack s (exactOf x.ctrl) x.bitcnt.toNat) := fun s =>
    (unpack_raisesOnly s _ _).ne_noError (by decide)
  have encodes : ∀ s t, RaisesOnly (· ≠ .noError) (hufEncode s t) := fun s t =>
    (hufEncode_raisesOnly s t).ne_noError (by decide)
  have decodes : ∀ bs t, RaisesOnly (· ≠ .noError) (hufDecode bs t (exactOf x.ctrl)) := fun bs t =>
    (hufDecode_raisesOnly bs t _).ne_noError (by decide)
  have blob := (parseTreeBlob_raisesOnly x.src0).ne_noError (by decide)
  have scratch : ∀ n, RaisesOnly (· ≠ .noError) (scratchCheck x.params.scratchBytes n) := fun n =>
    (scratchCheck_raisesOnly _ n).ne_noError (by decide)
  have bitCount : ∀ m, RaisesOnly (· ≠ .noError) (bitCountCheck m) := fun m =>
    (bitCountCheck_raisesOnly m).ne_noError (by decide)
  cases i with
  | nop | lzCompress | hufBuild | treeSerialize | treeReset => exact .ok _
  | lzDecompress => exact records.bind fun ts => (replays ts).bind fun _ => .ok _
  | tokSerialize => exact records.bind fun _ => .ok _
  | tokParse => exact (tokens _).bind fun _ => .ok _
  | hufEncode => exact (encodes _ _).bind fun _ => .ok _
  | hufDecode => exact bits.bind fun bs => (decodes bs _).bind fun _ => .ok _
  | treeDeserialize => exact blob.bind fun _ => .ok _
  | bitPack => exact bits.bind fun _ => .ok _
  | bitUnpack => exact (unpacks _).bind fun _ => .ok _
  | compress =>
    exact (scratch _).bind fun _ => (scratch _).bind fun _ => (encodes _ _).bind fun _ =>
      (scratch _).bind fun _ => (bitCount _).bind fun _ => .ok _
  | decompress =>
    exact blob.bind fun _ => (unpacks _).bind fun _ => (scratch _).bind fun _ => (decodes _ _).bind fun _ =>
      (scratch _).bind fun _ => (tokens _).bind fun _ => (scratch _).bind fun _ => (replays _).bind fun _ => .ok _

end Sys2Proof.Machine
end

section
/-! SUPPORT. The trees the operations make are legal (10_state.md R50): the node count is odd, `2L - 1` for `L` leaves, so a
tree whose leaves differ has at most 511 nodes; building and reading a blob both keep the leaves apart. -/

namespace Sys2Proof.Machine

/-! ### Legal trees -/

/-- A node has one internal node less than it has leaves (R252). -/
theorem Node.count_add_one (n : Node) : n.count + 1 = 2 * n.leafValues.length := by
  induction n with
  | leaf v f => rfl
  | internal f l r ihl ihr =>
    simp only [Node.count, Node.leafValues, List.length_append]
    omega

/-- A byte string with no repeated byte has at most 256 bytes. -/
theorem length_le_of_nodup_bytes {bs : Bytes} (h : bs.Nodup) : bs.length ≤ 256 := by
  have hn : (bs.map BitVec.toFin).Nodup := h.map fun _ _ hab => BitVec.eq_of_toFin_eq hab
  simpa using hn.length_le_card

/-- Invariant (b) of the tree store follows from invariant (c) (R50). -/
theorem Tree.wf_iff_nodup (t : Tree) : t.wf = true ↔ t.leafValues.Nodup := by
  simp only [Tree.wf, Bool.and_eq_true, decide_eq_true_eq, and_iff_right_iff_imp]
  intro h
  cases t with
  | empty => exact Nat.zero_le _
  | node n =>
    have hc := n.count_add_one
    have hl : n.leafValues.length ≤ 256 := length_le_of_nodup_bytes h
    simp only [Tree.count]
    omega

/-! ### Building -/

/-- The values of the leaves of all entries of a queue, from its head on (R251). -/
def queueLeaves (q : List QueueEntry) : List Byte := q.flatMap fun x => x.node.leafValues

@[simp] theorem queueLeaves_nil : queueLeaves [] = [] := rfl

@[simp] theorem queueLeaves_cons (x : QueueEntry) (q : List QueueEntry) :
    queueLeaves (x :: q) = x.node.leafValues ++ queueLeaves q := rfl

/-- Where an entry is put into the queue only moves its leaves. -/
theorem queueLeaves_enqueue_perm (x : QueueEntry) (q : List QueueEntry) :
    (queueLeaves (enqueue x q)).Perm (x.node.leafValues ++ queueLeaves q) := by
  induction q with
  | nil => exact .refl _
  | cons y ys ih =>
    rw [enqueue]
    split
    · exact .refl _
    · calc y.node.leafValues ++ queueLeaves (enqueue x ys)
        _ |>.Perm (y.node.leafValues ++ (x.node.leafValues ++ queueLeaves ys)) := ih.append_left _
        _ |>.Perm (x.node.leafValues ++ queueLeaves (y :: ys)) := List.perm_append_comm_assoc _ _ _

/-- The queue before the merging holds the bytes that occur, each once for each time it is listed (R251). -/
theorem queueLeaves_enqueueLeaves_perm (s : Bytes) (vs : List Byte) (seq : Nat) (q : List QueueEntry) :
    (queueLeaves (enqueueLeaves s vs seq q).2).Perm (vs.filter (fun v => decide (freqOf s v > 0)) ++ queueLeaves q) := by
  induction vs, seq, q using enqueueLeaves.induct s with
  | case1 seq q => exact .refl _
  | case2 v vs seq q hv ih =>
    rw [enqueueLeaves, if_pos hv, List.filter_cons_of_pos (by simpa using hv)]
    exact ih.trans (((queueLeaves_enqueue_perm _ _).append_left _).trans List.perm_middle)
  | case3 v vs seq q hv ih =>
    rwa [enqueueLeaves, if_neg hv, List.filter_cons_of_neg (by simpa using hv)]

theorem length_enqueue (x : QueueEntry) (q : List QueueEntry) : (enqueue x q).length = q.length + 1 := by
  induction q with
  | nil => rfl
  | cons y ys ih =>
    rw [enqueue]
    split <;> simp [ih]

/-- Merging keeps the leaves of the queue (R251). -/
theorem leafValues_mergeQueue_perm (fuel seq : Nat) (q : List QueueEntry) (hf : q.length ≤ fuel + 1) :
    (mergeQueue fuel seq q).leafValues.Perm (queueLeaves q) := by
  induction fuel, seq, q using mergeQueue.induct with
  | case1 fuel seq => simp [mergeQueue, Tree.leafValues]
  | case2 fuel seq x => simp [mergeQueue, Tree.leafValues]
  | case3 seq a b q => simp at hf
  | case4 fuel seq a b q ih =>
    rw [mergeQueue]
    have hlen : (enqueue ⟨a.fr + b.fr, seq, .internal (freqWord (a.fr + b.fr)) a.node b.node⟩ q).length ≤ fuel + 1 := by
      rw [length_enqueue]
      simpa using hf
    refine (ih hlen).trans ((queueLeaves_enqueue_perm _ _).trans ?_)
    simp [Node.leafValues]

theorem nodup_allBytes : allBytes.Nodup := by
  refine List.Nodup.map_on (fun a ha b hb hab => ?_) List.nodup_range
  have := congrArg BitVec.toNat hab
  simp only [List.mem_range, BitVec.toNat_ofNat] at *
  omega

/-- The leaves of a built tree are the bytes that occur, each once (R251). -/
theorem leafValues_build_perm (s : Bytes) :
    (build s).leafValues.Perm (allBytes.filter fun v => decide (freqOf s v > 0)) := by
  refine (leafValues_mergeQueue_perm _ _ _ (Nat.le_succ _)).trans ?_
  simpa using queueLeaves_enqueueLeaves_perm s allBytes 0 []

/-- A built tree is legal (R50, R251). -/
theorem build_wf (s : Bytes) : (build s).wf = true := by
  rw [Tree.wf_iff_nodup, (leafValues_build_perm s).nodup_iff]
  exact nodup_allBytes.filter _

/-! ### What a computation returns -/

/-- Everything a computation returns is a value of which `p` holds. -/
def ReturnsOnly {α : Type} (p : α → Prop) (x : Except EngineError α) : Prop :=
  ∀ a, x = .ok a → p a

section Composition

variable {α β : Type} {p : α → Prop} {q : β → Prop} {x : Except EngineError α}

theorem ReturnsOnly.anything : ReturnsOnly (fun _ => True) x := fun _ _ => trivial

theorem ReturnsOnly.error (e : EngineError) : ReturnsOnly p (.error e) := fun _ h => nomatch h

theorem ReturnsOnly.ok {a : α} (h : p a) : ReturnsOnly p (.ok a) := fun _ ha => by cases ha; exact h

theorem ReturnsOnly.bind {f : α → Except EngineError β} (hx : ReturnsOnly p x)
    (hf : ∀ a, p a → ReturnsOnly q (f a)) : ReturnsOnly q (x >>= f) := by
  cases x with
  | error e => exact .error e
  | ok a => exact hf a (hx a rfl)

/-- A stage that may return anything before one that returns what `q` holds of. -/
theorem ReturnsOnly.andThen {f : α → Except EngineError β} (hf : ∀ a, ReturnsOnly q (f a)) :
    ReturnsOnly q (x >>= f) :=
  .bind .anything fun a _ => hf a

theorem ReturnsOnly.ite {c : Prop} [Decidable c] {y : Except EngineError α} (hx : c → ReturnsOnly p x)
    (hy : ¬c → ReturnsOnly p y) : ReturnsOnly p (if c then x else y) := by
  split
  · exact hx ‹_›
  · exact hy ‹_›

end Composition

/-! ### Reading a blob -/

theorem corruptTree_returnsOnly {α : Type} {p : α → Prop} (k : Nat) :
    ReturnsOnly p (corruptTree k : Except EngineError α) := .error _

/-- A node read from a cursor adds its leaves, last first, to the ones seen, and repeats none of them (R259). -/
def ReadsFresh (k : TreeCursor) (x : Node × TreeCursor) : Prop :=
  x.2.seen = x.1.leafValues.reverse ++ k.seen ∧ x.2.seen.Nodup

theorem readNode_returnsOnly (fuel : Nat) (k : TreeCursor) (hs : k.seen.Nodup) :
    ReturnsOnly (ReadsFresh k) (readNode fuel k) := by
  induction fuel generalizing k with
  | zero => exact corruptTree_returnsOnly _
  | succ fuel ih =>
    rw [readNode]
    refine .ite (fun _ => corruptTree_returnsOnly _) fun _ => ?_
    split
    · exact corruptTree_returnsOnly _
    · refine .ite (fun _ => ?leaf) fun _ => .ite (fun _ => ?internal) fun _ => corruptTree_returnsOnly _
      case leaf =>
        split
        · exact .ite (fun _ => corruptTree_returnsOnly _) fun hv => .ok ⟨rfl, List.nodup_cons.mpr ⟨hv, hs⟩⟩
        · exact corruptTree_returnsOnly _
      case internal =>
        split
        · refine .bind (ih _ hs) fun ⟨l, k1⟩ ⟨sl, dl⟩ => .bind (ih k1 dl) fun ⟨r, k2⟩ ⟨sr, dr⟩ => .ok ⟨?_, dr⟩
          simp only at sl sr
          simp [sl, sr, Node.leafValues]
        · exact corruptTree_returnsOnly _

/-- A tree read from a blob is legal (R50, R259). -/
theorem parseTreeBlob_returnsOnly (b : Bytes) : ReturnsOnly (fun t => t.wf = true) (parseTreeBlob b) := by
  unfold parseTreeBlob
  split
  · refine .ite (fun _ => corruptTree_returnsOnly _) fun _ => .ite (fun _ => ?empty) fun _ => ?root
    case empty => exact .ite (fun _ => .ok rfl) fun _ => corruptTree_returnsOnly _
    case root =>
      refine .bind (readNode_returnsOnly _ _ List.nodup_nil) fun ⟨root, k⟩ ⟨hseen, hnodup⟩ => ?_
      have hroot : (Tree.node root).leafValues.Nodup := by
        rw [hseen] at hnodup
        simpa [Tree.leafValues] using hnodup
      exact .ite (fun _ => corruptTree_returnsOnly _) fun _ => .ite (fun _ => corruptTree_returnsOnly _) fun _ =>
        .ok ((Tree.wf_iff_nodup _).mpr hroot)
  · exact corruptTree_returnsOnly _

/-! ### The results of the operations -/

/-- What a result may hold for `T` and `BITCNT`: a legal tree for a command that writes `T`, a count for one that writes
`BITCNT`, and nothing for any other (R39, R50, R174). -/
structure LegalResult (i : Instr) (r : OpResult) : Prop where
  tree : ∀ t, r.tree = some t → writesTree i ∧ t.wf = true
  bitcnt : ∀ b, r.bitcnt = some b → writesBitcnt i

/-- A result that holds outputs alone. -/
theorem LegalResult.outputs (i : Instr) (out0 out1 : Bytes) : LegalResult i { out0 := out0, out1 := out1 } :=
  ⟨nofun, nofun⟩

/-- A result that holds a tree and no count. -/
theorem LegalResult.ofTree {i : Instr} {out0 : Bytes} {t : Tree} (hi : writesTree i) (ht : t.wf = true) :
    LegalResult i { out0 := out0, tree := some t } :=
  ⟨fun _ h => by cases h; exact ⟨hi, ht⟩, nofun⟩

theorem operationOf_returnsOnly (i : Instr) (x : OpInput) : ReturnsOnly (LegalResult i) (operationOf i x) := by
  have blob := parseTreeBlob_returnsOnly x.src0
  have outputs := fun out0 => ReturnsOnly.ok (LegalResult.outputs i out0 [])
  cases i with
  | nop | lzCompress | treeSerialize => exact outputs _
  | tokSerialize | tokParse | hufEncode | bitUnpack => exact .andThen fun _ => outputs _
  | lzDecompress | hufDecode => exact .andThen fun _ => .andThen fun _ => outputs _
  | hufBuild => exact .ok (.ofTree (by simp [writesTree]) (build_wf _))
  | treeReset => exact .ok (.ofTree (by simp [writesTree]) rfl)
  | treeDeserialize => exact .bind blob fun _ ht => .ok (.ofTree (by simp [writesTree]) ht)
  | bitPack => exact .andThen fun _ => .ok ⟨nofun, fun _ _ => .inl rfl⟩
  | compress =>
    refine .andThen fun _ => .andThen fun _ => .andThen fun _ => .andThen fun _ => .andThen fun _ => .ok ⟨?_, ?_⟩
    · intro t ht
      cases ht
      exact ⟨by simp [writesTree], build_wf _⟩
    · exact fun _ _ => .inr rfl
  | decompress =>
    exact .bind blob fun _ ht => .andThen fun _ => .andThen fun _ => .andThen fun _ => .andThen fun _ =>
      .andThen fun _ => .andThen fun _ => .andThen fun _ => .ok (.ofTree (by simp [writesTree]) ht)

end Sys2Proof.Machine
end

section
/-! SUPPORT. Everything a turn of the host can do, and that each of its effects, and each completion, keeps the invariant. -/

namespace Sys2Proof.Machine

/-! ### What a turn of the host can do -/

/-- The effects a turn of the host can have on the machine. Which inputs are left and what was read is left open. -/
inductive HostEffect (s : State) : State → Prop where
  /-- It takes an input or waits, reads, or makes a write that is ignored (R42, R43). -/
  | observes (inputs : List Input) (readLog : List Word) (draws : Nat) :
      HostEffect s { s with inputs := inputs, readLog := readLog, draws := draws }
  /-- It writes within `DMEM` (R82). -/
  | writesDmem (inputs : List Input) (a size : Nat) (v : Word) (fits : a + size ≤ s.params.memBytes) :
      HostEffect s { s with inputs := inputs, mem := s.mem.writeBytes a ((bytesLe32 v).take size) }
  /-- It writes a register, while IDLE (R43). -/
  | writesReg (inputs : List Input) (r : RegName) (v : Word) (idle : s.seq = .idle) :
      HostEffect s (State.writeRegIdle { s with inputs := inputs } r v)
  /-- It resets the engine (R400). -/
  | resets (rest : List Input) (next : s.inputs = .reset :: rest) :
      HostEffect s (State.resetInput { s with inputs := rest })

/-- A `DMEM` read that goes on changes what the host has seen and the count of draws alone (R91). -/
theorem hostReadDmem_eq {s t : State} {size a : Nat} (h : s.hostReadDmem size a = .next t) :
    ∃ readLog draws, t = { s with readLog := readLog, draws := draws } := by
  rw [State.hostReadDmem] at h
  split at h
  · split at h
    · cases h
      exact ⟨_, _, rfl⟩
    · cases h
  · cases h

/-- A host read that goes on changes what the host has seen and the count of draws alone (R91). -/
theorem hostRead_eq {s t : State} {size addr : Nat} (h : s.hostRead size addr = .next t) :
    ∃ readLog draws, t = { s with readLog := readLog, draws := draws } := by
  rw [State.hostRead] at h
  split at h
  · split at h
    · cases h
      exact ⟨_, s.draws, rfl⟩
    · cases h
  · split at h
    · exact hostReadDmem_eq h
    · cases h

/-- A `DMEM` write that goes on is legal, within `DMEM` and outside every used range, and writes its bytes (R82, R420). -/
theorem hostWriteDmem_eq {s t : State} {size a : Nat} {v : Word} (h : s.hostWriteDmem size a v = .next t) :
    dmemAccessOk size a = true ∧ a + size ≤ s.params.memBytes ∧ s.touchesUsed a size = false ∧
      t = { s with mem := s.mem.writeBytes a ((bytesLe32 v).take size) } := by
  rw [State.hostWriteDmem] at h
  split at h
  next hok =>
    split at h
    next hfits =>
      split at h
      · cases h
      next hfree =>
        cases h
        exact ⟨hok, hfits, Bool.eq_false_iff.mpr hfree, rfl⟩
    · cases h
  · cases h

/-- A register write has its effect while IDLE and none while BUSY (R43). -/
theorem writeReg_effect (s : State) (inputs : List Input) (r : RegName) (v : Word) :
    HostEffect s (State.writeReg { s with inputs := inputs } r v) := by
  rw [State.writeReg]
  split
  · exact .observes inputs s.readLog s.draws
  next hb => exact .writesReg inputs r v (State.not_isBusy_iff.mp (Bool.eq_false_iff.mpr hb))

theorem hostWrite_effect {s t : State} {inputs : List Input} {size addr : Nat} {v : Word}
    (h : State.hostWrite { s with inputs := inputs } size addr v = .next t) : HostEffect s t := by
  rw [State.hostWrite] at h
  split at h
  · split at h
    · cases h
      rw [State.writeOffset]
      split
      · exact writeReg_effect s inputs _ v
      · exact .observes inputs s.readLog s.draws
    · cases h
  · split at h
    · obtain ⟨-, hfits, -, rfl⟩ := hostWriteDmem_eq h
      exact .writesDmem inputs _ _ v hfits
    · cases h

/-- Every turn of the host that goes on has one of the effects. -/
theorem hostTurn_effect {s t : State} (h : s.hostTurn = .next t) : HostEffect s t := by
  have wait : ∀ inputs, HostEffect s { s with inputs := inputs } := fun inputs =>
    .observes inputs s.readLog s.draws
  cases hi : s.inputs with
  | nil =>
    simp only [State.hostTurn, hi] at h
    cases h
    exact wait s.inputs
  | cons x rest =>
    simp only [State.hostTurn, hi] at h
    cases x with
    | read size addr =>
      obtain ⟨readLog, draws, rfl⟩ := hostRead_eq h
      exact .observes rest readLog draws
    | write size addr v => exact hostWrite_effect h
    | waitPoll =>
      simp only [State.hostInput] at h
      split at h <;> cases h
      · exact wait s.inputs
      · exact wait rest
    | waitIrq =>
      simp only [State.hostInput] at h
      split at h <;> cases h
      · exact wait rest
      · exact wait s.inputs
    | reset =>
      cases h
      exact .resets rest hi

/-! ### The invariant -/

/-- While IDLE there is no context to be current (R52). -/
theorem State.contextCurrent_of_idle {s : State} (h : s.seq = .idle) : s.contextCurrent :=
  fun c n hb => by rw [h] at hb; cases hb

/-- The invariant speaks of nothing that is the outside world's. -/
theorem State.Inv.observes {s : State} (h : s.Inv) (inputs : List Input) (readLog : List Word) (draws : Nat) :
    State.Inv { s with inputs := inputs, readLog := readLog, draws := draws } where
  params := h.params
  ctrlReserved := h.ctrlReserved
  flags := h.flags
  errCode := h.errCode
  irq := h.irq
  treeNodes := h.treeNodes
  tree := h.tree
  mem := h.mem
  context := h.context

/-- A delay that runs keeps the context (R430). -/
theorem State.Inv.delay {s : State} {c : Context} {n m : Nat} (h : s.Inv) (hb : s.seq = .busy c n) :
    State.Inv { s with seq := .busy c m } where
  params := h.params
  ctrlReserved := h.ctrlReserved
  flags := h.flags
  errCode := h.errCode
  irq := h.irq
  treeNodes := h.treeNodes
  tree := h.tree
  mem := h.mem
  context _ _ hc := by
    cases hc
    exact h.context c n hb

/-- A write of the host within `DMEM` keeps its canonical form and its size (R80, R82). -/
theorem State.Inv.writesDmem {s : State} (h : s.Inv) (inputs : List Input) (a size : Nat) (v : Word)
    (hfits : a + size ≤ s.params.memBytes) :
    State.Inv { s with inputs := inputs, mem := s.mem.writeBytes a ((bytesLe32 v).take size) } where
  params := h.params
  ctrlReserved := h.ctrlReserved
  flags := h.flags
  errCode := h.errCode
  irq := h.irq
  treeNodes := h.treeNodes
  tree := h.tree
  mem := by
    obtain ⟨hwf, hin⟩ := h.mem
    have hlen : ((bytesLe32 v).take size).length ≤ size := List.length_take_le _ _
    exact ⟨Memory.wf_writeBytes hwf _ _, Memory.within_writeBytes hin _ _ (.inr (by omega))⟩
  context := h.context

/-- The reserved bits of what `CTRL` stores are 0 (R33). -/
theorem ctrlStored_ctrlStored (v : Word) : ctrlStored (ctrlStored v) = ctrlStored v := by
  simp [ctrlStored, BitVec.and_assoc]

/-- A write to `CTRL` stores legal bits, and `IRQ` follows (R33, R48). -/
theorem State.Inv.writesCtrl {s : State} (h : s.Inv) (hi : s.seq = .idle) (v : Word) :
    (State.refreshIrq { s with ctrl := ctrlStored v }).Inv where
  params := h.params
  ctrlReserved := ctrlStored_ctrlStored v
  flags := h.flags
  errCode := h.errCode
  irq := rfl
  treeNodes := h.treeNodes
  tree := h.tree
  mem := h.mem
  context := State.contextCurrent_of_idle hi

/-- Acceptance latches what is live, and clears the flags (R52, R170). -/
theorem State.Inv.accept {s : State} (h : s.Inv) (w : Word) : (s.accept w).Inv where
  params := h.params
  ctrlReserved := h.ctrlReserved
  flags := by simp
  errCode := by simp
  irq := rfl
  treeNodes := h.treeNodes
  tree := h.tree
  mem := h.mem
  context _ _ hc := by
    cases hc
    exact ⟨rfl, rfl, rfl⟩

/-- A write to `STATUS` clears `ERRCODE` with `ERR` (R35). -/
theorem State.Inv.clearStatus {s : State} (h : s.Inv) (hi : s.seq = .idle) (v : Word) : (s.clearStatus v).Inv where
  params := h.params
  ctrlReserved := h.ctrlReserved
  flags := by
    have := h.flags
    simp only [State.clearStatus_done, State.clearStatus_err, Bool.and_eq_true]
    tauto
  errCode := by
    rw [State.clearStatus_err, State.clearStatus_errCode]
    cases v.getLsbD 2 <;> simp [h.errCode]
  irq := rfl
  treeNodes := h.treeNodes
  tree := h.tree
  mem := h.mem
  context := State.contextCurrent_of_idle hi

/-- A write to `BITCNT` or to a descriptor, while IDLE (R39, R40). -/
theorem State.Inv.writesOperand {s : State} (h : s.Inv) (hi : s.seq = .idle) (bitcnt : Word) (desc : Descriptors) :
    State.Inv { s with bitcnt := bitcnt, desc := desc } where
  params := h.params
  ctrlReserved := h.ctrlReserved
  flags := h.flags
  errCode := h.errCode
  irq := h.irq
  treeNodes := h.treeNodes
  tree := h.tree
  mem := h.mem
  context := State.contextCurrent_of_idle hi

theorem State.Inv.writeRegIdle {s : State} (h : s.Inv) (hi : s.seq = .idle) (r : RegName) (v : Word) :
    (s.writeRegIdle r v).Inv := by
  cases r with
  | id | errinfo | memsize | treeNodes | dst0Len | dst1Len => exact h
  | ctrl => exact h.writesCtrl hi v
  | cmd => exact h.accept v
  | status => exact h.clearStatus hi v
  | bitcnt => exact h.writesOperand hi v s.desc
  | src0Addr | src0Len | src1Addr | src1Len | dst0Addr | dst0Cap | dst1Addr | dst1Cap =>
    exact h.writesOperand hi s.bitcnt _

/-- Reset meets the invariant whenever the parameters are legal (R400). -/
theorem State.Inv.resetInput {s : State} (h : s.Inv) : s.resetInput.Inv where
  params := h.params
  ctrlReserved := by simp [ctrlStored]
  flags := by simp
  errCode := by simp
  irq := by simp [irqLevel]
  treeNodes := rfl
  tree := rfl
  mem := ⟨List.Pairwise.nil, nofun⟩
  context := State.contextCurrent_of_idle rfl

/-- A turn of the host keeps the invariant. -/
theorem State.Inv.hostEffect {s t : State} (h : s.Inv) (ht : HostEffect s t) : t.Inv := by
  cases ht with
  | observes inputs readLog draws => exact h.observes inputs readLog draws
  | writesDmem inputs a size v hfits => exact h.writesDmem inputs a size v hfits
  | writesReg inputs r v hi => exact (h.observes inputs s.readLog s.draws).writeRegIdle hi r v
  | resets rest _ => exact (h.observes rest s.readLog s.draws).resetInput

/-- An error completion keeps the invariant when its code is not 0, and, unless a check raised it, the used destinations lie
within `DMEM` (R89, R177). -/
theorem State.Inv.errorCompletion {s : State} {u : Uses} {c : Context} {e : EngineError} (h : s.Inv)
    (hdone : s.done = false) (hcode : e.code ≠ .noError)
    (hdst : e.code.isCheck = false → operandError s.params.memBytes u c.desc = none) :
    (s.errorCompletion u c e).Inv where
  params := h.params
  ctrlReserved := h.ctrlReserved
  flags := by simp [hdone]
  errCode := by simp [hcode]
  irq := rfl
  treeNodes := h.treeNodes
  tree := h.tree
  mem := by
    obtain ⟨hwf, hin⟩ := h.mem
    rw [State.errorCompletion_mem]
    split
    · exact h.mem
    next hc =>
      obtain ⟨h0, h1⟩ := dstInRange_of_operandError_none (hdst (by simpa using hc))
      exact ⟨wf_scrambleUsed hwf u c.desc _, within_scrambleUsed hin u c.desc _ h0 h1⟩
  context := State.contextCurrent_of_idle rfl

/-- A successful completion keeps the invariant when the tree it stores is legal and its outputs fit (R177). -/
theorem State.Inv.successCompletion {s : State} {u : Uses} {c : Context} {r : OpResult} (h : s.Inv)
    (herr : s.err = false) (hop : operandError s.params.memBytes u c.desc = none)
    (hcap : capacityError u c.desc r = none) (htree : ∀ t, r.tree = some t → t.wf = true) :
    (s.successCompletion u c r).Inv where
  params := h.params
  ctrlReserved := h.ctrlReserved
  flags := by simp [herr]
  errCode := h.errCode
  irq := rfl
  treeNodes := by cases hr : r.tree <;> simp [hr, h.treeNodes]
  tree := by
    cases hr : r.tree with
    | none => simpa [hr] using h.tree
    | some t => simpa [hr] using htree t hr
  mem := by
    obtain ⟨hwf, hin⟩ := h.mem
    obtain ⟨h0, h1⟩ := dstInRange_of_operandError_none hop
    exact ⟨wf_writeOutputs hwf u c.desc r, within_writeOutputs hin hcap h0 h1⟩
  context := State.contextCurrent_of_idle rfl

theorem operandError_ne_noError {m : Nat} {u : Uses} {d : Descriptors} {e : EngineError}
    (h : operandError m u d = some e) : e.code ≠ .noError := fun hc => by
  have := operandError_isCheck h
  simp [hc, ErrCode.isCheck] at this

theorem capacityError_ne_noError {u : Uses} {d : Descriptors} {r : OpResult} {e : EngineError}
    (h : capacityError u d r = some e) : e.code ≠ .noError := by
  unfold capacityError at h
  split at h
  · cases h
    nofun
  · split at h
    · cases h
      nofun
    · cases h

/-- A command that completes keeps the invariant (R172 to R177). -/
theorem State.Inv.complete {s : State} (h : s.Inv) (hdone : s.done = false) (herr : s.err = false) (c : Context)
    (i : Instr) : (s.complete (usesOf i) c (operationOf i)).Inv := by
  obtain ⟨e, he, heq⟩ | ⟨hop, ⟨e, he, heq⟩ | ⟨r, hr, ⟨e, he, heq⟩ | ⟨hcap, heq⟩⟩⟩ :=
    State.complete_cases s (usesOf i) c (operationOf i) <;> rw [heq]
  · refine h.errorCompletion hdone (operandError_ne_noError he) fun hc => ?_
    rw [operandError_isCheck he] at hc
    cases hc
  · exact h.errorCompletion hdone (operationOf_raisesOnly i _ e he) fun _ => hop
  · exact h.errorCompletion hdone (capacityError_ne_noError he) fun _ => hop
  · exact h.successCompletion herr hop hcap fun t ht => ((operationOf_returnsOnly i _ r hr).tree t ht).2

/-- An illegal word that completes keeps the invariant (R171). -/
theorem State.Inv.illegalCommand {s : State} (h : s.Inv) (hdone : s.done = false) (c : Context) :
    (s.illegalCommand c).Inv :=
  h.errorCompletion hdone nofun nofun

/-! ### What a step can do -/

/-- Everything a step can be: a turn of the host, while IDLE or in a delay that runs, or the completion of the accepted word
(R46, R430). -/
theorem step_cases {s t : State} (h : step s = .next t) :
    (s.seq = .idle ∧ s.hostTurn = .next t) ∨
    (∃ c n, s.seq = .busy c (n + 1) ∧ State.hostTurn { s with seq := .busy c n } = .next t) ∨
    (∃ c i, s.seq = .busy c 0 ∧ decodeWord c.word = .ok i ∧ t = s.complete (usesOf i) c (operationOf i)) ∨
    ∃ c, s.seq = .busy c 0 ∧ t = s.illegalCommand c := by
  cases hs : s.seq with
  | idle => exact .inl ⟨rfl, step_of_idle hs ▸ h⟩
  | busy c n =>
    cases n with
    | succ n => exact .inr (.inl ⟨c, n, rfl, step_of_delay hs ▸ h⟩)
    | zero =>
      cases hw : decodeWord c.word with
      | ok i =>
        rw [step_of_word hs hw, exec_of_busy hs] at h
        cases h
        exact .inr (.inr (.inl ⟨c, i, rfl, hw, rfl⟩))
      | error e =>
        rw [step_of_illegal hs hw] at h
        cases h
        exact .inr (.inr (.inr ⟨c, rfl, rfl⟩))

/-- Settles O19: each effect of the host's turn and each completion keeps the invariant. -/
theorem stepKeepsTheInvariant : Obligations.StepKeepsTheInvariant := by
  intro s t h hstep
  obtain ⟨-, ht⟩ | ⟨c, n, hb, ht⟩ | ⟨c, i, hb, -, rfl⟩ | ⟨c, hb, rfl⟩ := step_cases hstep
  · exact h.hostEffect (hostTurn_effect ht)
  · exact (h.delay hb).hostEffect (hostTurn_effect ht)
  · obtain ⟨-, hdone, herr⟩ := h.context c 0 hb
    exact h.complete hdone herr c i
  · obtain ⟨-, hdone, -⟩ := h.context c 0 hb
    exact h.illegalCommand hdone c

end Sys2Proof.Machine
end

section
/-! SUPPORT. The frame of a completion and of a turn of the host, on the tree store and the registers. -/

namespace Sys2Proof.Machine

/-- A completion is an error completion, or a successful one over what the operation returned (R177). -/
theorem State.complete_error_or_success (s : State) (u : Uses) (c : Context)
    (op : OpInput → Except EngineError OpResult) :
    (∃ e, s.complete u c op = s.errorCompletion u c e) ∨
    ∃ r, op (s.opInput u c) = .ok r ∧ s.complete u c op = s.successCompletion u c r := by
  obtain ⟨e, -, heq⟩ | ⟨-, ⟨e, -, heq⟩ | ⟨r, hr, ⟨e, -, heq⟩ | ⟨-, heq⟩⟩⟩ := State.complete_cases s u c op
  · exact .inl ⟨e, heq⟩
  · exact .inl ⟨e, heq⟩
  · exact .inl ⟨e, heq⟩
  · exact .inr ⟨r, hr, heq⟩

/-! ### The tree store -/

/-- No register write reaches the tree store (R50). -/
@[simp] theorem State.writeRegIdle_tree (s : State) (r : RegName) (v : Word) : (s.writeRegIdle r v).tree = s.tree := by
  cases r <;> rfl

/-- No register write reaches `DMEM`. -/
@[simp] theorem State.writeRegIdle_mem (s : State) (r : RegName) (v : Word) : (s.writeRegIdle r v).mem = s.mem := by
  cases r <;> rfl

/-- Of all that a turn of the host can do, only a reset changes the tree store (R50, R400). -/
theorem HostEffect.reset_of_tree_ne {s t : State} (h : HostEffect s t) (hne : t.tree ≠ s.tree) :
    s.inputs.head? = some .reset := by
  cases h with
  | observes | writesDmem => exact absurd rfl hne
  | writesReg inputs r v => exact absurd (State.writeRegIdle_tree _ r v) hne
  | resets rest hi => simp [hi]

/-- A completion that changes the tree store is a successful one of a command that writes it (R50). -/
theorem State.complete_of_tree_ne {s : State} {c : Context} {i : Instr}
    (hne : (s.complete (usesOf i) c (operationOf i)).tree ≠ s.tree) :
    writesTree i ∧ (s.complete (usesOf i) c (operationOf i)).done = true ∧
      (s.complete (usesOf i) c (operationOf i)).err = s.err := by
  obtain ⟨e, heq⟩ | ⟨r, hr, heq⟩ := s.complete_error_or_success (usesOf i) c (operationOf i) <;> rw [heq] at hne ⊢
  · exact absurd rfl hne
  · cases htree : r.tree with
    | none => simp [htree] at hne
    | some t => exact ⟨((operationOf_returnsOnly i _ r hr).tree t htree).1, rfl, rfl⟩

/-- Settles O20: of the effects of the host's turn only the reset, and of the completions only the success of a command that
writes `T`, reach the tree store. -/
theorem onlyTreeCommandsChangeTheTree : Obligations.OnlyTreeCommandsChangeTheTree := by
  intro s t h hstep hne
  obtain ⟨hs, ht⟩ | ⟨c, n, hb, ht⟩ | ⟨c, i, hb, hw, rfl⟩ | ⟨c, -, rfl⟩ := step_cases hstep
  · exact .inl ⟨(hostTurn_effect ht).reset_of_tree_ne hne, .inl hs⟩
  · exact .inl ⟨(hostTurn_effect ht).reset_of_tree_ne hne, .inr ⟨c, n, hb⟩⟩
  · obtain ⟨-, -, herr⟩ := h.context c 0 hb
    obtain ⟨hi, hdone, hkeeps⟩ := State.complete_of_tree_ne hne
    exact .inr ⟨c, i, hb, hw, hi, hdone, hkeeps.trans herr⟩
  · exact absurd rfl hne

/-! ### The frame of a command -/

/-- A result that holds no tree and no count leaves `T`, `TREE_NODES` and `BITCNT` as they are (R38, R39, R50). -/
theorem State.successCompletion_keepsTree {s : State} {u : Uses} {c : Context} {r : OpResult} (h : r.tree = none) :
    (s.successCompletion u c r).tree = s.tree ∧ (s.successCompletion u c r).treeNodes = s.treeNodes := by
  simp [h]

theorem State.successCompletion_keepsBitcnt {s : State} {u : Uses} {c : Context} {r : OpResult}
    (h : r.bitcnt = none) : (s.successCompletion u c r).bitcnt = s.bitcnt := by
  simp [h]

/-- Settles O28: the frame of the two completions, with what the results of the operations hold. -/
theorem commandFrame : Obligations.CommandFrame := by
  intro i s t c hr hexec
  rw [exec_of_runs hr] at hexec
  cases hexec
  obtain ⟨e, heq⟩ | ⟨r, hop, heq⟩ := s.complete_error_or_success (usesOf i) c (operationOf i) <;> rw [heq]
  · exact ⟨⟨rfl, rfl, rfl, rfl, rfl, rfl, rfl⟩, fun _ => ⟨rfl, rfl⟩, fun _ => rfl, fun _ => rfl, fun _ => rfl,
      .inr ⟨rfl, rfl, rfl, rfl, rfl, rfl, rfl⟩⟩
  · have legal := operationOf_returnsOnly i _ r hop
    refine ⟨⟨rfl, rfl, rfl, rfl, rfl, rfl, rfl⟩, fun hi => ?_, fun hi => ?_, fun h0 => by simp [h0],
      fun h1 => by simp [h1], .inl ⟨rfl, rfl, rfl, rfl⟩⟩
    · refine State.successCompletion_keepsTree (Option.eq_none_iff_forall_not_mem.mpr fun t ht => ?_)
      exact hi (legal.tree t ht).1
    · refine State.successCompletion_keepsBitcnt (Option.eq_none_iff_forall_not_mem.mpr fun b hb => ?_)
      exact hi (legal.bitcnt b hb)

end Sys2Proof.Machine
end

section
/-! SUPPORT. The register block as the host sees it (10_state.md R31 to R48): what stands at each offset, and what a write does
while IDLE and while BUSY. -/

namespace Sys2Proof.Machine

/-! ### `STATUS` -/

/-- The error codes stop at 0x0C (R350). -/
theorem ErrCode.value_lt (e : ErrCode) : e.value < 0x0D := by cases e <;> decide

/-- The bits of `STATUS` do not run into each other (R35). -/
theorem toNat_statusWord (busy done err : Bool) (code : ErrCode) :
    (statusWord busy done err code).toNat = busy.toNat + 2 * done.toNat + 4 * err.toNat + 256 * code.value := by
  have := busy.toNat_lt
  have := done.toNat_lt
  have := err.toNat_lt
  have := code.value_lt
  rw [statusWord, BitVec.toNat_ofNat]
  omega

/-- Bit 0 of `STATUS` is `BUSY` (R35). -/
theorem getLsbD_statusWord_zero (busy done err : Bool) (code : ErrCode) :
    (statusWord busy done err code).getLsbD 0 = busy := by
  have hmod : (statusWord busy done err code).toNat % 2 = busy.toNat := by
    have := busy.toNat_lt
    rw [toNat_statusWord]
    omega
  rw [BitVec.getLsbD, Nat.testBit_zero, hmod]
  cases busy <;> rfl

/-- The number `STATUS` reads as, bit by bit (R35). -/
def State.statusValue (s : State) : Nat :=
  (if s.seq = .idle then 0 else 1) + (if s.done = true then 2 else 0) + (if s.err = true then 4 else 0) +
    0x100 * s.errCode.value

theorem State.statusValue_eq (s : State) :
    s.statusValue = s.isBusy.toNat + 2 * s.done.toNat + 4 * s.err.toNat + 256 * s.errCode.value := by
  have hbusy : (if s.seq = .idle then 0 else 1) = s.isBusy.toNat := by
    cases h : s.seq <;> simp [State.isBusy, h]
  rw [State.statusValue, hbusy]
  cases s.done <;> cases s.err <;> rfl

theorem State.readReg_status (s : State) : s.readReg .status = BitVec.ofNat 32 s.statusValue := by
  rw [s.statusValue_eq]
  rfl

theorem State.toNat_readReg_status (s : State) : (s.readReg .status).toNat = s.statusValue := by
  rw [s.statusValue_eq]
  exact toNat_statusWord ..

/-! ### Reads -/

@[simp] theorem State.readOffset_offset (s : State) (r : RegName) : s.readOffset r.offset = s.readReg r := by
  simp [State.readOffset]

/-- What a register reads as does not depend on the outside world. -/
@[simp] theorem State.readReg_inputs (s : State) (inputs : List Input) (r : RegName) :
    State.readReg { s with inputs := inputs } r = s.readReg r := by
  cases r <;> rfl

/-- A reserved offset reads 0 (R42). -/
theorem State.readOffset_reserved (s : State) {off : Nat} (h1 : 0x48 ≤ off) (h2 : off ≤ 0xFC) : s.readOffset off = 0 := by
  simp [State.readOffset, regAt_reserved off h1 h2]

/-- A host read of a register (R44). -/
theorem hostTurn_readReg_offset {s : State} {r : RegName} {rest : List Input}
    (hi : s.inputs = .read 4 (s.params.regBase + r.offset) :: rest) :
    s.hostTurn = .next { s with inputs := rest, readLog := s.readLog ++ [s.readReg r] } := by
  simpa using hostTurn_readReg r.offset_lt r.offset_aligned hi

/-! ### Writes -/

@[simp] theorem State.writeOffset_offset (s : State) (r : RegName) (v : Word) :
    s.writeOffset r.offset v = s.writeReg r v := by
  simp [State.writeOffset]

theorem State.writeReg_of_idle {s : State} (h : s.seq = .idle) (r : RegName) (v : Word) :
    s.writeReg r v = s.writeRegIdle r v := by
  simp [State.writeReg, State.isBusy_of_idle h]

/-- A host write of a register while IDLE (R31 to R41). -/
theorem hostTurn_writeReg_idle {s : State} {r : RegName} {v : Word} {rest : List Input} (hs : s.seq = .idle)
    (hi : s.inputs = .write 4 (s.params.regBase + r.offset) v :: rest) :
    s.hostTurn = .next (State.writeRegIdle { s with inputs := rest } r v) := by
  rw [hostTurn_writeReg r.offset_lt r.offset_aligned hi, State.writeOffset_offset, State.writeReg_of_idle]
  exact hs

/-- A write while BUSY is ignored at every offset (R43). -/
theorem State.writeOffset_of_busy {s : State} (h : s.isBusy = true) (off : Nat) (v : Word) : s.writeOffset off v = s := by
  rw [State.writeOffset]
  split
  · simp [State.writeReg, h]
  · rfl

/-- A host write to the register block while BUSY takes its turn and does nothing (R43). -/
theorem hostTurn_writeReg_busy {s : State} {off : Nat} {v : Word} {rest : List Input} (hb : s.isBusy = true)
    (h : off < 0x100) (ha : off % 4 = 0) (hi : s.inputs = .write 4 (s.params.regBase + off) v :: rest) :
    s.hostTurn = .next { s with inputs := rest } := by
  rw [hostTurn_writeReg h ha hi, State.writeOffset_of_busy]
  exact hb

/-- A write to a read-only register or to a reserved offset is ignored (R32, R36 to R38, R41, R42). -/
theorem State.writeOffset_readOnly (s : State) {off : Nat} (v : Word)
    (h : off ∈ [0x00, 0x10, 0x14, 0x18, 0x40, 0x44] ∨ 0x48 ≤ off ∧ off ≤ 0xFC ∧ off % 4 = 0) :
    s.writeOffset off v = s := by
  rcases h with h | ⟨h1, h2, -⟩
  · simp only [List.mem_cons, List.not_mem_nil, or_false] at h
    rcases h with rfl | rfl | rfl | rfl | rfl | rfl <;> exact ite_self s
  · simp [State.writeOffset, regAt_reserved off h1 h2]

/-! ### The registers that a write stores to -/

/-- The registers that hold what the host wrote, `CTRL` its defined bits alone: all but the read-only ones, `CMD` and `STATUS`
(R31, R33, R39, R40). -/
def RegName.isStorage : RegName → Bool
  | .id | .cmd | .status | .errinfo | .memsize | .treeNodes | .dst0Len | .dst1Len => false
  | .ctrl | .bitcnt | .src0Addr | .src0Len | .src1Addr | .src1Len | .dst0Addr | .dst0Cap | .dst1Addr | .dst1Cap => true

section Storage

variable {r : RegName} (hr : r.isStorage = true) (s : State) (v : Word)
include hr

theorem State.readReg_writeRegIdle_same :
    (s.writeRegIdle r v).readReg r = if r = .ctrl then v &&& 7#32 else v := by
  cases r with
  | id | cmd | status | errinfo | memsize | treeNodes | dst0Len | dst1Len => cases hr
  | ctrl | bitcnt | src0Addr | src0Len | src1Addr | src1Len | dst0Addr | dst0Cap | dst1Addr | dst1Cap => rfl

theorem State.readReg_writeRegIdle_other {r' : RegName} (hne : r' ≠ r) :
    (s.writeRegIdle r v).readReg r' = s.readReg r' := by
  cases r with
  | id | cmd | status | errinfo | memsize | treeNodes | dst0Len | dst1Len => cases hr
  | ctrl | bitcnt | src0Addr | src0Len | src1Addr | src1Len | dst0Addr | dst0Cap | dst1Addr | dst1Cap =>
    cases r' <;> simp_all [State.writeRegIdle, State.readReg, State.isBusy]

theorem State.writeRegIdle_seq_of_storage : (s.writeRegIdle r v).seq = s.seq := by
  cases r with
  | id | cmd | status | errinfo | memsize | treeNodes | dst0Len | dst1Len => cases hr
  | ctrl | bitcnt | src0Addr | src0Len | src1Addr | src1Len | dst0Addr | dst0Cap | dst1Addr | dst1Cap => rfl

/-- `IRQ` follows `CTRL.IRQEN` (R48). -/
theorem State.writeRegIdle_irq_of_storage :
    (s.writeRegIdle r v).irq = if r = .ctrl then v.getLsbD 2 && (s.done || s.err) else s.irq := by
  cases r with
  | id | cmd | status | errinfo | memsize | treeNodes | dst0Len | dst1Len => cases hr
  | ctrl => simp [State.writeRegIdle, irqLevel, irqenOf, ctrlStored]
  | bitcnt | src0Addr | src0Len | src1Addr | src1Len | dst0Addr | dst0Cap | dst1Addr | dst1Cap => rfl

end Storage

/-! ### The statements of the register block -/

/-- Settles O7: a turn of the host while BUSY ignores register writes, and changes no register. -/
theorem busyRegisterWritesAreIgnored : Obligations.BusyRegisterWritesAreIgnored := by
  intro s c n rest hs
  have hb : State.isBusy { s with seq := .busy c n } = true := rfl
  rw [step_of_delay hs]
  refine ⟨fun off v h ha hi => hostTurn_writeReg_busy hb h ha hi,
    fun off h ha hi => ⟨_, hostTurn_readReg h ha hi, ?_⟩, fun t ht hreset => ?_⟩
  · rintro rfl
    exact getLsbD_statusWord_zero true s.done s.err s.errCode
  · obtain ⟨inputs, readLog, draws, mem, rfl, -⟩ := hostTurn_busy_cases hb hreset ht
    exact ⟨rfl, rfl, rfl, rfl, rfl, rfl⟩

/-- The registers of the block in the order of their offsets (R31). -/
def RegName.all : List RegName :=
  [.id, .ctrl, .cmd, .status, .errinfo, .memsize, .treeNodes, .bitcnt, .src0Addr, .src0Len, .src1Addr, .src1Len,
    .dst0Addr, .dst0Cap, .dst1Addr, .dst1Cap, .dst0Len, .dst1Len]

/-- Settles O8: the list of the statement is each register's offset with what it reads as. -/
theorem registerReadsAndReadOnlyWrites : Obligations.RegisterReadsAndReadOnlyWrites := by
  intro s rest
  refine ⟨fun x hx hi => ?_, fun off h1 h2 ha hi => ?_, fun off v h hi => ?_⟩
  · have hx : x ∈ RegName.all.map fun r => (r.offset, s.readReg r) := by
      simp only [RegName.all, List.map, State.readReg_status]
      exact hx
    obtain ⟨r, -, rfl⟩ := List.mem_map.mp hx
    exact hostTurn_readReg_offset hi
  · rw [hostTurn_readReg (by omega) ha hi, State.readOffset_reserved _ h1 h2]
    rfl
  · have hoff : off < 0x100 ∧ off % 4 = 0 := by
      simp only [List.mem_cons, List.not_mem_nil, or_false] at h
      omega
    rw [hostTurn_writeReg hoff.1 hoff.2 hi, State.writeOffset_readOnly _ v h]

/-- Settles O9: `STATUS` as a number, and what acceptance and the two kinds of writes to it do. -/
theorem statusRegister : Obligations.StatusRegister := by
  refine ⟨State.toNat_readReg_status, by decide, ErrCode.value_lt, fun _ _ _ => rfl, fun s v rest hs hi => ?_,
    fun s c n v rest hs hi => ?_, fun s w => ⟨rfl, rfl, rfl⟩⟩
  · have hclear : ∀ flag bit : Bool, (flag && !bit) = if bit then false else flag := by decide
    rw [step_of_idle hs, hostTurn_writeReg_idle (r := .status) hs hi]
    simp only [State.writeRegIdle, State.clearStatus, State.refreshIrq, hclear]
  · rw [step_of_delay hs]
    exact hostTurn_writeReg_busy rfl (by decide) (by decide) hi

/-- Settles O10: a write to a storage register while IDLE, by the laws of `writeRegIdle`. -/
theorem idleWritesStoreRegisters : Obligations.IdleWritesStoreRegisters := by
  intro s off r v rest hs hi hmem
  have hmem : (off, r) ∈ (RegName.all.filter RegName.isStorage).map fun r => (r.offset, r) := hmem
  obtain ⟨r, hr, heq⟩ := List.mem_map.mp hmem
  cases heq
  have hr : r.isStorage = true := List.of_mem_filter hr
  refine ⟨_, (step_of_idle hs).trans (hostTurn_writeReg_idle hs hi), State.readReg_writeRegIdle_same hr _ v,
    fun r' hne => ?_, by simp, by simp, ?_, State.writeRegIdle_irq_of_storage hr _ v⟩
  · rw [State.readReg_writeRegIdle_other hr _ v hne, State.readReg_inputs]
  · exact (State.writeRegIdle_seq_of_storage hr _ v).trans hs

end Sys2Proof.Machine
end

section
/-! SUPPORT. The dispatch of a step, and the accesses of the host that are legal (10_state.md R44 and R46, 20_memory.md R82). -/

namespace Sys2Proof.Machine

/-! ### The dispatch -/

/-- The four bytes of a word give it back (R84). -/
theorem le32_bytesLe32 (w : Word) :
    le32 (w.extractLsb' 0 8) (w.extractLsb' 8 8) (w.extractLsb' 16 8) (w.extractLsb' 24 8) = w := by
  rw [le32, BitVec.extractLsb'_append_extractLsb'_eq_extractLsb' (by rfl : 24 = 16 + 8),
    BitVec.extractLsb'_append_extractLsb'_eq_extractLsb' (by rfl : 16 = 8 + 8),
    BitVec.extractLsb'_append_extractLsb'_eq_extractLsb' (by rfl : 8 = 0 + 8)]
  simp

/-- The decoder reads a word from its four bytes (R84, R120). -/
theorem decode_bytesLe32 (w : Word) (rest : Bytes) :
    decode (bytesLe32 w ++ rest) = (decodeWord w).map fun i => (i, rest) := by
  simp only [bytesLe32, List.cons_append, List.nil_append, decode, le32_bytesLe32]
  cases decodeWord w <;> rfl

theorem decodeWord_of_decode {w : Word} {i : Instr} (h : decode (bytesLe32 w) = .ok (i, [])) : decodeWord w = .ok i := by
  rw [← List.append_nil (bytesLe32 w), decode_bytesLe32] at h
  cases hw : decodeWord w with
  | error e =>
    rw [hw] at h
    cases h
  | ok j =>
    rw [hw] at h
    cases h
    rfl

/-- A wait for the completion ends when the engine is IDLE (R166). -/
theorem hostTurn_waitPoll {s : State} {rest : List Input} (hi : s.inputs = .waitPoll :: rest) :
    s.hostTurn = .next (if s.seq = .idle then { s with inputs := rest } else s) := by
  cases hs : s.seq with
  | idle => simp [State.hostTurn, hi, State.hostInput, State.isBusy_of_idle hs, hs]
  | busy c n => simp [State.hostTurn, hi, State.hostInput, State.isBusy_of_busy hs]

/-- A wait for the interrupt ends when `IRQ` is 1 (R361). -/
theorem hostTurn_waitIrq {s : State} {rest : List Input} (hi : s.inputs = .waitIrq :: rest) :
    s.hostTurn = .next (if s.irq = true then { s with inputs := rest } else s) := by
  cases hq : s.irq <;> simp [State.hostTurn, hi, State.hostInput, State.interruptLine, hq]

/-- Settles O4: the branches of the step, and the two waits. -/
theorem stepRunsTheAcceptedCommand : Obligations.StepRunsTheAcceptedCommand := by
  refine ⟨fun s c i hs hw => step_of_word hs (decodeWord_of_decode hw), fun s c n hs => step_of_delay hs,
    fun s hs => step_of_idle hs, fun s hs hi => ?_, fun s rest hi => hostTurn_waitPoll hi,
    fun s rest hi => hostTurn_waitIrq hi⟩
  rw [step_of_idle hs, State.hostTurn, hi]

/-! ### Legal and illegal accesses -/

theorem regAccessOk_iff (size off : Nat) : regAccessOk size off = true ↔ size = 4 ∧ off % 4 = 0 := by
  simp [regAccessOk]

section Accesses

variable (s : State) (size : Nat) (v : Word)

/-- A read in the register block (R44). -/
theorem State.hostRead_regBlock {off : Nat} (h : off < 0x100) :
    s.hostRead size (s.params.regBase + off) =
      if regAccessOk size off then .next { s with readLog := s.readLog ++ [s.readOffset off] }
      else .fault .hostRegisterAccess := by
  simp [State.hostRead, inRegBlock_offset _ off h]

/-- A write in the register block (R44). -/
theorem State.hostWrite_regBlock {off : Nat} (h : off < 0x100) :
    s.hostWrite size (s.params.regBase + off) v =
      if regAccessOk size off then .next (s.writeOffset off v) else .fault .hostRegisterAccess := by
  simp [State.hostWrite, inRegBlock_offset _ off h]

variable {a : Nat} (hr : inRegBlock s.params (s.params.dmemBase + a) = false)
include hr

/-- A read outside the register block is one of `DMEM` (R81). -/
theorem State.hostRead_dmem : s.hostRead size (s.params.dmemBase + a) = s.hostReadDmem size a := by
  simp [State.hostRead, hr]

/-- A write outside the register block is one of `DMEM` (R81). -/
theorem State.hostWrite_dmem : s.hostWrite size (s.params.dmemBase + a) v = s.hostWriteDmem size a v := by
  simp [State.hostWrite, hr]

end Accesses

/-- Settles O11: the two tests of an access to a register, and of one to `DMEM`, one after another. -/
theorem illegalHostAccessesFault : Obligations.IllegalHostAccessesFault := by
  refine ⟨fun s off size v h => ?_, fun s a size v hr => ?_⟩
  · rw [s.hostRead_regBlock size h, s.hostWrite_regBlock size v h, ← regAccessOk_iff]
    exact ⟨fun hok => ⟨⟨_, if_pos hok⟩, ⟨_, if_pos hok⟩⟩, fun hbad => ⟨if_neg hbad, if_neg hbad⟩⟩
  · rw [s.hostRead_dmem size hr, s.hostWrite_dmem size v hr, State.hostReadDmem, State.hostWriteDmem]
    refine ⟨fun ⟨hs, hw, ha, hfits⟩ => ?_, fun ⟨hw, ha, hend⟩ => ?_, fun hbad => ?_⟩
    · have hok := (dmemAccessOk_iff size a).mpr ⟨hw, ha⟩
      simp [hok, hfits, touchesUsed_of_idle hs]
    · have hok := (dmemAccessOk_iff size a).mpr ⟨hw, ha⟩
      simp [hok, Nat.not_le.mpr hend]
    · have hbad := mt (dmemAccessOk_iff size a).mp hbad
      simp [hbad]

end Sys2Proof.Machine
end

section
/-! SUPPORT. `DMEM` as the host reads and writes it (20_memory.md R82, R84, R91): the bytes of a word, and what an access does
while IDLE and while a command runs. -/

namespace Sys2Proof.Machine

/-! ### Little-endian words -/

@[simp] theorem length_bytesLe32 (v : Word) : (bytesLe32 v).length = 4 := rfl

/-- Byte `k` of a word is its bits from `8k` on (R84). -/
theorem getElem_bytesLe32 (v : Word) (k : Nat) (h : k < (bytesLe32 v).length) :
    (bytesLe32 v)[k] = v.extractLsb' (8 * k) 8 := by
  match k, h with
  | 0, _ | 1, _ | 2, _ | 3, _ => rfl

/-- The four bytes of a word as digits of base 256 (R84). -/
theorem toNat_le32 (b0 b1 b2 b3 : Byte) :
    (le32 b0 b1 b2 b3).toNat = b0.toNat + b1.toNat * 256 + b2.toNat * 256 ^ 2 + b3.toNat * 256 ^ 3 := by
  rw [le32, BitVec.toNat_append, BitVec.toNat_append, BitVec.toNat_append, ← Nat.shiftLeft_add_eq_or_of_lt b0.isLt,
    ← Nat.shiftLeft_add_eq_or_of_lt b1.isLt, ← Nat.shiftLeft_add_eq_or_of_lt b2.isLt]
  simp only [Nat.shiftLeft_eq]
  omega

/-- A byte string of a width the host may use is the number with its bytes as digits of base 256 (R84). -/
theorem toNat_leValue_map {size : Nat} (hw : size = 1 ∨ size = 2 ∨ size = 4) (f : Nat → Byte) :
    (leValue ((List.range size).map f)).toNat = ((List.range size).map fun k => (f k).toNat * 256 ^ k).sum := by
  rcases hw with rfl | rfl | rfl
  · rw [show (List.range 1).map f = [f 0] from rfl, leValue, toNat_le32]
    simp
  · rw [show (List.range 2).map f = [f 0, f 1] from rfl, leValue, toNat_le32]
    simp [List.sum_range_succ]
  · rw [show (List.range 4).map f = [f 0, f 1, f 2, f 3] from rfl, leValue, toNat_le32]
    simp [List.sum_range_succ]

/-- The low bytes of a word are its remainder (R84). -/
theorem leValue_take_bytesLe32 {size : Nat} (hw : size = 1 ∨ size = 2 ∨ size = 4) (v : Word) :
    leValue ((bytesLe32 v).take size) = BitVec.ofNat 32 (v.toNat % 256 ^ size) := by
  have hv := v.isLt
  apply BitVec.eq_of_toNat_eq
  rcases hw with rfl | rfl | rfl <;>
    simp [bytesLe32, leValue, toNat_le32, BitVec.extractLsb'_toNat, Nat.shiftRight_eq_div_pow] <;> omega

/-! ### Accesses while IDLE -/

section Idle

variable {s : State} {size a : Nat} {rest : List Input} (hs : s.seq = .idle)
  (hr : inRegBlock s.params (s.params.dmemBase + a) = false) (hw : size = 1 ∨ size = 2 ∨ size = 4)
  (ha : a % size = 0) (hfits : a + size ≤ s.params.memBytes)
include hs

/-- While IDLE the host reads the byte that stands there (R420). -/
theorem State.hostByte_of_idle (x : Nat) : s.hostByte x = s.mem.byte x := by
  simp [State.hostByte, State.runningUses, hs, inUsedDst]

include hr hw ha hfits

/-- A legal `DMEM` write while IDLE (R82, R84). -/
theorem step_writeDmem_of_idle {v : Word} (hi : s.inputs = .write size (s.params.dmemBase + a) v :: rest) :
    step s = .next { s with inputs := rest, mem := s.mem.writeBytes a ((bytesLe32 v).take size) } := by
  have hok := (dmemAccessOk_iff size a).mpr ⟨hw, ha⟩
  have hfree : State.touchesUsed { s with inputs := rest } a size = false := touchesUsed_of_idle hs a size
  rw [step_of_idle hs, hostTurn_writeDmem hr hi, State.hostWriteDmem, if_pos hok, if_pos hfits, hfree]
  rfl

/-- A legal `DMEM` read while IDLE (R82, R84). -/
theorem step_readDmem_of_idle (hi : s.inputs = .read size (s.params.dmemBase + a) :: rest) :
    step s = .next { s with inputs := rest, readLog := s.readLog ++ [leValue (s.mem.readBytes a size)] } := by
  have hok := (dmemAccessOk_iff size a).mpr ⟨hw, ha⟩
  have hidle : State.isBusy { s with inputs := rest } = false := State.isBusy_of_idle hs
  have hbytes : State.hostByte { s with inputs := rest } = s.mem.byte := funext (State.hostByte_of_idle hs)
  rw [step_of_idle hs, hostTurn_readDmem hr hi, State.hostReadDmem, if_pos hok, if_pos hfits, hidle, hbytes]
  rfl

end Idle

theorem core_run_two {s t u : State} (h1 : step s = .next t) (h2 : step t = .next u) : core.run 2 s = .next u := by
  simp [Host.Core.run, show core.step = step from rfl, h1, h2]

/-- Settles O12: a legal write and a legal read while IDLE, with the bytes of a word as digits of base 256. -/
theorem hostWordsAreLittleEndian : Obligations.HostWordsAreLittleEndian := by
  intro s size a rest hs hr hw ha hfits
  have hlen : ∀ v : Word, ((bytesLe32 v).take size).length = size := fun v => by
    simp only [List.length_take, length_bytesLe32]
    omega
  refine ⟨fun v hi => ⟨_, step_writeDmem_of_idle hs hr hw ha hfits hi, rfl, fun k hk => ?_, fun x hx => ?_⟩,
    fun hi => ⟨_, step_readDmem_of_idle hs hr hw ha hfits hi, ?_⟩, fun v hi => ?_⟩
  · rw [Memory.byte_writeBytes_inside _ _ _ _ (by omega) (by rw [hlen]; omega), List.getElem_take, getElem_bytesLe32,
      Nat.add_sub_cancel_left]
  · exact Memory.byte_writeBytes_outside _ _ _ _ (by rwa [hlen])
  · rw [Memory.readBytes, List.range'_eq_map_range, List.map_map]
    exact toNat_leValue_map hw _
  · refine ⟨_, core_run_two (step_writeDmem_of_idle hs hr hw ha hfits hi)
      (step_readDmem_of_idle (rest := rest) hs hr hw ha hfits rfl), ?_⟩
    have hread := s.mem.readBytes_writeBytes_same a ((bytesLe32 v).take size)
    rw [hlen] at hread
    simp only [hread, leValue_take_bytesLe32 hw]

/-! ### Accesses while a command runs -/

/-- A turn of the host that goes on, other than a reset, keeps every byte of a range in use (R420). -/
theorem hostTurn_busy_keeps_used {s t : State} (hb : s.isBusy = true) (hreset : s.inputs.head? ≠ some .reset)
    (ht : s.hostTurn = .next t) {x : Nat}
    (hx : inUsedSrc s.runningUses.1 s.runningUses.2 x = true ∨ inUsedDst s.runningUses.1 s.runningUses.2 x = true) :
    t.mem.byte x = s.mem.byte x := by
  obtain ⟨inputs, readLog, draws, mem, rfl, rfl | ⟨a, size, v, hfree, -, rfl⟩⟩ := hostTurn_busy_cases hb hreset ht
  · rfl
  · have hout : ¬(a ≤ x ∧ x < a + size) := fun hin => by
      have hused := List.any_eq_false.mp hfree x (List.mem_range'_1.mpr hin)
      exact hused (by simpa using hx)
    have hlen : ((bytesLe32 v).take size).length ≤ size := List.length_take_le _ _
    exact Memory.byte_writeBytes_outside _ _ _ _ (by omega)

/-- The ranges in use while a command runs are the ones it uses (R420). -/
theorem State.runningUses_of_busy {s : State} {c : Context} {n : Nat} {i : Instr} (hb : s.seq = .busy c n)
    (hi : decodeWord c.word = .ok i) : s.runningUses = (usesOf i, c.desc) := by
  simp [State.runningUses, hb, usesOfWord, hi]

/-- Settles O15: the turn of the host in a delay that runs, which can write only outside the ranges in use. -/
theorem runningCommandKeepsItsOperands : Obligations.RunningCommandKeepsItsOperands := by
  intro s t c n i hs hi hreset hstep
  rw [step_of_delay hs] at hstep
  have hb : State.isBusy { s with seq := .busy c n } = true := rfl
  have huses : State.runningUses { s with seq := .busy c n } = (usesOf i, c.desc) := State.runningUses_of_busy rfl hi
  have hkeeps := fun x hx => hostTurn_busy_keeps_used hb hreset hstep (x := x) (by rw [huses]; exact hx)
  obtain ⟨inputs, readLog, draws, mem, rfl, -⟩ := hostTurn_busy_cases hb hreset hstep
  exact ⟨rfl, rfl, hkeeps⟩

/-! ### Reads -/

/-- A `DMEM` read that goes on logs one value and, while BUSY, takes a draw (R91). -/
theorem hostReadDmem_logs {s t : State} {size a : Nat} (h : s.hostReadDmem size a = .next t) :
    ∃ v, t = { s with readLog := s.readLog ++ [v], draws := if s.isBusy then s.draws + 1 else s.draws } := by
  rw [State.hostReadDmem] at h
  split at h
  · split at h <;> cases h
    exact ⟨_, rfl⟩
  · cases h

/-- A host read that goes on logs one value, and while IDLE does nothing else (R91). -/
theorem hostRead_logs {s t : State} {size addr : Nat} (h : s.hostRead size addr = .next t) :
    ∃ v draws, t = { s with readLog := s.readLog ++ [v], draws := draws } ∧ (s.seq = .idle → draws = s.draws) := by
  rw [State.hostRead] at h
  split at h
  · split at h <;> cases h
    exact ⟨_, s.draws, rfl, fun _ => rfl⟩
  · split at h
    · obtain ⟨v, rfl⟩ := hostReadDmem_logs h
      exact ⟨v, _, rfl, fun hs => by simp [State.isBusy_of_idle hs]⟩
    · cases h

/-- Settles O14: a host read that goes on logs one value. -/
theorem hostReadsHaveNoSideEffect : Obligations.HostReadsHaveNoSideEffect := by
  intro s t size addr rest hi ht
  rw [State.hostTurn, hi] at ht
  obtain ⟨v, draws, rfl, hdraws⟩ := hostRead_logs ht
  exact ⟨⟨v, rfl⟩, hdraws⟩

end Sys2Proof.Machine
end

section
/-! SUPPORT. The bytes a command may change (20_memory.md R88, R89): its outputs when it succeeds, its used destinations when it
ends with an error of the operation or of the capacity. -/

namespace Sys2Proof.Machine

/-! ### Success -/

/-- A test that raises an error answers none exactly when it passes and the tests after it answer none. -/
theorem ite_some_eq_none_iff {α : Type} {p : Prop} [Decidable p] {x : α} {y : Option α} :
    (if p then some x else y) = none ↔ ¬p ∧ y = none := by
  split <;> simp [*]

theorem rangeError_eq_none_iff (m : Nat) (u : Uses) (d : Descriptors) :
    rangeError m u d = none ↔
      (u.src0 = true → DescriptorOk m d.src0Addr d.src0Len) ∧ (u.src1 = true → DescriptorOk m d.src1Addr d.src1Len) ∧
      (u.dst0 = true → DescriptorOk m d.dst0Addr d.dst0Cap) ∧ (u.dst1 = true → DescriptorOk m d.dst1Addr d.dst1Cap) := by
  simp [rangeError, ite_some_eq_none_iff, ← inRange_iff]

theorem overlapError_eq_none_iff (u : Uses) (d : Descriptors) :
    overlapError u d = none ↔
      (u.dst0 = true → u.src0 = true → NoCommonByte d.dst0Addr d.dst0Cap d.src0Addr d.src0Len) ∧
      (u.dst0 = true → u.src1 = true → NoCommonByte d.dst0Addr d.dst0Cap d.src1Addr d.src1Len) ∧
      (u.dst1 = true → u.src0 = true → NoCommonByte d.dst1Addr d.dst1Cap d.src0Addr d.src0Len) ∧
      (u.dst1 = true → u.src1 = true → NoCommonByte d.dst1Addr d.dst1Cap d.src1Addr d.src1Len) ∧
      (u.dst0 = true → u.dst1 = true → NoCommonByte d.dst0Addr d.dst0Cap d.dst1Addr d.dst1Cap) := by
  simp [overlapError, ite_some_eq_none_iff, ← overlaps_iff]

/-- The checks before operation pass exactly the legal operands (R172, R173). -/
theorem operandError_eq_none_iff (m : Nat) (u : Uses) (d : Descriptors) :
    operandError m u d = none ↔ OperandsOk m u d := by
  refine ⟨fun h => ?_, operandError_of_ok⟩
  rw [operandError] at h
  split at h
  · cases h
  next hrange =>
    obtain ⟨s0, s1, d0, d1⟩ := (rangeError_eq_none_iff m u d).mp hrange
    obtain ⟨o00, o01, o10, o11, o⟩ := (overlapError_eq_none_iff u d).mp h
    exact ⟨s0, s1, d0, d1, o00, o01, o10, o11, o⟩

/-- A result has no output for a destination the command does not use (R174). -/
structure OutputsUsed (u : Uses) (r : OpResult) : Prop where
  out0 : u.dst0 = false → r.out0 = []
  out1 : u.dst1 = false → r.out1 = []

theorem operationOf_outputsUsed (i : Instr) (x : OpInput) :
    ReturnsOnly (OutputsUsed (usesOf i)) (operationOf i x) := by
  cases i with
  | nop | hufBuild | treeReset => exact .ok ⟨fun _ => rfl, fun _ => rfl⟩
  | lzCompress | treeSerialize => exact .ok ⟨nofun, fun _ => rfl⟩
  | treeDeserialize => exact .andThen fun _ => .ok ⟨fun _ => rfl, fun _ => rfl⟩
  | tokSerialize | tokParse | hufEncode | bitPack | bitUnpack => exact .andThen fun _ => .ok ⟨nofun, fun _ => rfl⟩
  | lzDecompress | hufDecode => exact .andThen fun _ => .andThen fun _ => .ok ⟨nofun, fun _ => rfl⟩
  | compress =>
    exact .andThen fun _ => .andThen fun _ => .andThen fun _ => .andThen fun _ => .andThen fun _ => .ok ⟨nofun, nofun⟩
  | decompress =>
    exact .andThen fun _ => .andThen fun _ => .andThen fun _ => .andThen fun _ => .andThen fun _ => .andThen fun _ =>
      .andThen fun _ => .andThen fun _ => .ok ⟨nofun, fun _ => rfl⟩

/-- A command that newly sets `DONE` completed over what its operation returned, and it fits (R174 to R177). -/
theorem State.complete_of_done {s : State} {c : Context} {i : Instr} (hs : s.done = false)
    (hd : (s.complete (usesOf i) c (operationOf i)).done = true) :
    ∃ r, operationOf i (s.opInput (usesOf i) c) = .ok r ∧ capacityError (usesOf i) c.desc r = none ∧
      s.complete (usesOf i) c (operationOf i) = s.successCompletion (usesOf i) c r ∧
      Succeeded c s (s.successCompletion (usesOf i) c r) r.out0 r.out1 := by
  have failed : ∀ e, s.complete (usesOf i) c (operationOf i) ≠ s.errorCompletion (usesOf i) c e := fun e heq => by
    rw [heq, State.errorCompletion_done, hs] at hd
    cases hd
  obtain ⟨e, -, heq⟩ | ⟨hop, ⟨e, -, heq⟩ | ⟨r, hr, ⟨e, -, heq⟩ | ⟨hcap, heq⟩⟩⟩ :=
    s.complete_cases (usesOf i) c (operationOf i)
  · exact absurd heq (failed e)
  · exact absurd heq (failed e)
  · exact absurd heq (failed e)
  · have hused := operationOf_outputsUsed i _ r hr
    have hok := (operandError_eq_none_iff ..).mp hop
    exact ⟨r, hr, hcap, heq, succeeded_successCompletion s _ c r hused.out0 hused.out1 hcap hok.dst0dst1⟩

/-- Settles O26: a command that newly sets `DONE` ended in the successful completion, over what its operation returned. -/
theorem successWritesExactlyItsOutputs : Obligations.SuccessWritesExactlyItsOutputs := by
  intro i s t c hr hs hexec hdone
  rw [exec_of_runs hr] at hexec
  cases hexec
  obtain ⟨r, hop, hcap, heq, succeeded⟩ := State.complete_of_done hs hdone
  obtain ⟨cap0, cap1⟩ := capacityError_none hcap
  rw [heq, succeeded.dst0Len, succeeded.dst1Len]
  refine ⟨?_, ?_, ⟨r, hop, fun _ => ⟨rfl, succeeded.dst0⟩, fun _ => ⟨rfl, succeeded.dst1⟩⟩, succeeded.otherBytes⟩
  · cases h0 : (usesOf i).dst0 with
    | true => exact .inl (cap0 h0)
    | false => exact .inr ⟨rfl, by simp [h0]⟩
  · cases h1 : (usesOf i).dst1 with
    | true => exact .inl (cap1 h1)
    | false => exact .inr ⟨rfl, by simp [h1]⟩

/-! ### Errors -/

theorem Memory.byte_scramble_inside (m : Memory) {a n x : Nat} (draw : Nat) (h : a ≤ x ∧ x < a + n) :
    (m.scramble a n draw).byte x = Config.freeByte draw x := by
  rw [Memory.scramble, Memory.byte_writeBytes_inside _ _ _ _ h.1 (by simpa using h.2)]
  simp [Nat.add_sub_cancel' h.1]

/-- One destination range, if it is used: its bytes become free values, and no other byte changes (R89). -/
theorem byte_scramble_if (m : Memory) (used : Bool) (addr cap : Word) (draw x : Nat) :
    (if used then m.scramble addr.toNat cap.toNat draw else m).byte x =
      if used && inDescriptor addr cap x then Config.freeByte draw x else m.byte x := by
  cases used with
  | false => rfl
  | true =>
    simp only [Bool.true_and, if_true]
    split
    next hin => exact m.byte_scramble_inside draw ((inDescriptor_iff _ _ _).mp hin)
    next hout =>
      exact m.byte_scramble_outside _ _ _ _ ((inDescriptor_false_iff _ _ _).mp (Bool.eq_false_iff.mpr hout))

/-- The bytes of the used destinations become free values of one draw (R89). -/
theorem byte_scrambleUsed_inside {u : Uses} {d : Descriptors} {a : Nat} (draw : Nat) (m : Memory)
    (h : inUsedDst u d a = true) : (scrambleUsed u d draw m).byte a = Config.freeByte draw a := by
  rw [inUsedDst, Bool.or_eq_true] at h
  rw [scrambleUsed, byte_scramble_if, byte_scramble_if]
  rcases h with h | h <;> simp [h]

/-- Settles O27: a command that newly sets `ERR` ended in the error completion, whose memory is known byte by byte. -/
theorem errorsLeaveOtherBytes : Obligations.ErrorsLeaveOtherBytes := by
  refine ⟨fun e => by cases e <;> decide, fun i s t c hr hs hexec herr => ?_⟩
  rw [exec_of_runs hr] at hexec
  cases hexec
  obtain ⟨e, heq⟩ | ⟨r, -, heq⟩ := s.complete_error_or_success (usesOf i) c (operationOf i) <;> rw [heq] at herr ⊢
  · have failed := failed_errorCompletion s (usesOf i) c e
    refine ⟨failed.checkBytes, failed.otherBytes, fun hcode a ha => ?_⟩
    rw [State.errorCompletion_errCode] at hcode
    rw [State.errorCompletion_mem, hcode]
    exact byte_scrambleUsed_inside s.draws s.mem ha
  · rw [State.successCompletion_err, hs] at herr
    cases herr

end Sys2Proof.Machine
end

section
/-! SUPPORT. The bits of a packed sequence (20_memory.md R85, 43_bitpack.md R300): read bit 7 first, its bytes are the sequence
and its padding. -/

namespace Sys2Proof.Machine

/-! ### The bits of bytes -/

/-- The low `n` bits of a byte, bit `n - 1` first. -/
def lowBits (b : Byte) (n : Nat) : List Bit := (List.range n).map fun k => b.getLsbD (n - 1 - k)

theorem lowBits_eight (b : Byte) : lowBits b 8 = bitsMsbFirst b := rfl

@[simp] theorem length_bitsMsbFirst (b : Byte) : (bitsMsbFirst b).length = 8 := rfl

theorem getElem?_bitsMsbFirst (b : Byte) {j : Nat} (h : j < 8) : (bitsMsbFirst b)[j]? = some (b.getLsbD (7 - j)) := by
  simp [← lowBits_eight, lowBits, h]

@[simp] theorem length_flatMap_bitsMsbFirst (p : Bytes) : (p.flatMap bitsMsbFirst).length = 8 * p.length := by
  simp [List.length_flatMap, Nat.mul_comm]

/-- Bit `j` of the bytes `p`, read bit 7 first, is bit `7 - j mod 8` of byte `j / 8` (R85). -/
theorem getD_flatMap_bitsMsbFirst (p : Bytes) (j : Nat) :
    (p.flatMap bitsMsbFirst).getD j false = (p.getD (j / 8) 0).getLsbD (7 - j % 8) := by
  induction p generalizing j with
  | nil => simp
  | cons b p ih =>
    rw [List.flatMap_cons, List.getD_eq_getElem?_getD]
    by_cases hj : j < 8
    · rw [List.getElem?_append_left hj, getElem?_bitsMsbFirst b hj, Nat.div_eq_of_lt hj, Nat.mod_eq_of_lt hj]
      rfl
    · obtain ⟨k, rfl⟩ := Nat.exists_eq_add_of_le' (Nat.not_lt.mp hj)
      rw [List.getElem?_append_right (by simp), length_bitsMsbFirst, Nat.add_sub_cancel, ← List.getD_eq_getElem?_getD, ih,
        Nat.add_div_right k (by decide), Nat.add_mod_right, List.getD_cons_succ]

/-! ### Packing -/

/-- Shifting a bit in puts it last (R300). -/
theorem lowBits_shiftIn (acc : Byte) {n : Nat} (b : Bit) (h : n < 8) :
    lowBits ((acc <<< 1) ||| (if b then 0x01#8 else 0x00#8)) (n + 1) = lowBits acc n ++ [b] := by
  have hbit : ∀ k, (if b then 0x01#8 else 0x00#8).getLsbD k = (decide (k = 0) && b) := fun k => by
    cases b <;> simp [BitVec.getLsbD_one]
  rw [lowBits, List.range_succ, List.map_append, List.map_singleton]
  congr 1
  · refine List.map_congr_left fun k hk => ?_
    have hk := List.mem_range.mp hk
    have hidx : n + 1 - 1 - k = n - 1 - k + 1 := by omega
    have hlt : n - 1 - k + 1 < 8 := by omega
    rw [hidx, BitVec.getLsbD_or, BitVec.getLsbD_shiftLeft, hbit]
    simp [hlt]
  · rw [Nat.add_sub_cancel, Nat.sub_self, BitVec.getLsbD_or, BitVec.getLsbD_shiftLeft, hbit]
    simp

/-- Shifting the last bits up fills with 0 (R300). -/
theorem bitsMsbFirst_shiftUp (acc : Byte) {n : Nat} (h : n ≤ 8) :
    bitsMsbFirst (acc <<< (8 - n)) = lowBits acc n ++ List.replicate (8 - n) false := by
  interval_cases n <;> simp [bitsMsbFirst, lowBits, List.range_succ]

/-- The number of padding bits after `n` bits (R300). -/
def padding (n : Nat) : Nat := (8 - n % 8) % 8

/-- The loop of `pack`: the bits of its bytes are those in the accumulator, the sequence, and the padding (R300). -/
theorem flatMap_bits_packFrom (acc : Byte) (c : Nat) (bs : List Bit) (hc : c < 8) :
    (packFrom acc c bs).flatMap bitsMsbFirst =
      lowBits acc c ++ bs ++ List.replicate (padding (c + bs.length)) false := by
  induction bs generalizing acc c with
  | nil =>
    rw [packFrom]
    split
    next hpos =>
      have hpad : padding c = 8 - c := by
        rw [padding, Nat.mod_eq_of_lt hc]
        omega
      simp [bitsMsbFirst_shiftUp acc hc.le, hpad]
    next hzero =>
      obtain rfl : c = 0 := by omega
      rfl
  | cons b bs ih =>
    rw [packFrom]
    split
    next hfull =>
      have hpad : padding (c + (bs.length + 1)) = padding (0 + bs.length) := by
        rw [padding, padding]
        omega
      have hbits := lowBits_shiftIn acc b hc
      rw [hfull, lowBits_eight] at hbits
      rw [List.flatMap_cons, ih _ _ (by decide), hbits, List.length_cons, hpad]
      simp [lowBits]
    next hroom =>
      rw [ih _ _ (by omega), lowBits_shiftIn acc b hc, List.length_cons, Nat.add_right_comm c 1, Nat.add_assoc c]
      simp

/-- The bits of a packed sequence are the sequence and its padding (R85, R300). -/
theorem flatMap_bits_pack (bs : List Bit) :
    (pack bs).flatMap bitsMsbFirst = bs ++ List.replicate (padding bs.length) false := by
  simpa [lowBits, pack] using flatMap_bits_packFrom 0 0 bs (by decide)

/-- The bytes of a packed sequence (R161). -/
theorem length_pack (bs : List Bit) : (pack bs).length = (bs.length + 7) / 8 := by
  have h := congrArg List.length (flatMap_bits_pack bs)
  simp only [length_flatMap_bitsMsbFirst, List.length_append, List.length_replicate, padding] at h
  omega

/-- Settles O57: the bits of a packed sequence, at their places in its bytes. -/
theorem packedBitPositions : Obligations.PackedBitPositions := by
  intro bs
  refine ⟨length_pack bs, fun j b hj => ?_, fun j hj => ?_⟩ <;>
    rw [← getD_flatMap_bitsMsbFirst, flatMap_bits_pack, List.getD_eq_getElem?_getD]
  · rw [List.getElem?_append_left (List.getElem?_eq_some_iff.mp hj).1, hj]
    rfl
  · rw [List.getElem?_append_right hj, List.getElem?_replicate]
    split <;> rfl

end Sys2Proof.Machine
end

section
/-! SUPPORT. The text token strings (30_encoding.md R145 to R148): what each field parser reads, and that it fails at the first
byte with which its input is the start of no text. -/

namespace Sys2Proof.Machine

/-- A composition that answers has both answers. -/
theorem bind_eq_ok {α β : Type} {x : Except EngineError α} {f : α → Except EngineError β} {b : β}
    (h : x >>= f = .ok b) : ∃ a, x = .ok a ∧ f a = .ok b := by
  cases x with
  | error e => cases h
  | ok a => exact ⟨a, rfl, h⟩

/-! ### Decimal numerals -/

/-- The canonical decimal numeral of a number (R146). -/
def numeral (n : Nat) : Bytes := if n = 0 then [digitByte 0] else (Nat.digits 10 n).reverse.map digitByte

theorem numeral_of_digit {d : Nat} (hd : d < 10) : numeral d = [digitByte d] := by
  by_cases h0 : d = 0
  · simp [numeral, h0]
  · simp [numeral, h0, Nat.digits_of_lt 10 d h0 hd]

/-- A digit after a numeral with no leading zero makes the next numeral. -/
theorem numeral_snoc {n d : Nat} (hn : 0 < n) (hd : d < 10) : numeral (10 * n + d) = numeral n ++ [digitByte d] := by
  have hdigits := Nat.digits_add 10 (by decide) d n hd (.inr hn.ne')
  rw [numeral, numeral, if_neg (by omega), if_neg hn.ne', Nat.add_comm, hdigits]
  simp

/-- The two ways to make a numeral: one digit, or a digit after the numeral of a positive number. -/
theorem numeral_induction {p : Nat → Prop} (digit : ∀ d < 10, p d)
    (snoc : ∀ n d, 0 < n → d < 10 → p n → p (10 * n + d)) (n : Nat) : p n := by
  induction n using Nat.strong_induction_on with
  | _ n ih =>
    by_cases hn : n < 10
    · exact digit n hn
    · rw [← Nat.div_add_mod n 10]
      exact snoc _ _ (by omega) (Nat.mod_lt _ (by decide)) (ih _ (by omega))

/-- The loop of `dec` writes the numeral (R146). -/
theorem decDigits_eq_numeral (n fuel : Nat) (acc : Bytes) (h : n < 10 ^ fuel) (hf : 0 < fuel) :
    decDigits fuel n acc = numeral n ++ acc := by
  induction n using numeral_induction generalizing fuel acc with
  | digit d hd =>
    obtain ⟨fuel, rfl⟩ := Nat.exists_eq_add_of_le' hf
    simp [decDigits, numeral_of_digit hd, Nat.div_eq_of_lt hd, Nat.mod_eq_of_lt hd]
  | snoc n d hn hd ih =>
    obtain ⟨fuel, rfl⟩ := Nat.exists_eq_add_of_le' hf
    have hdiv : (10 * n + d) / 10 = n := by omega
    have hmod : (10 * n + d) % 10 = d := by omega
    have hlt : n < 10 ^ fuel := by
      rw [Nat.pow_succ] at h
      omega
    have hfuel : 0 < fuel := Nat.pos_of_ne_zero fun h0 => by
      subst h0
      omega
    rw [decDigits, hdiv, hmod, if_neg hn.ne', ih _ _ hlt hfuel, numeral_snoc hn hd]
    simp

theorem decimal_eq_numeral (v : Word) : decimal v = numeral v.toNat := by
  have hv : v.toNat < 10 ^ 10 := by
    have := v.isLt
    omega
  simpa [decimal] using decDigits_eq_numeral v.toNat 10 [] hv (by decide)

/-! ### Digits -/

theorem toNat_digitByte {d : Nat} (hd : d < 10) : (digitByte d).toNat = 0x30 + d := by
  rw [digitByte, BitVec.toNat_ofNat, Nat.mod_eq_of_lt (by omega)]

@[simp] theorem isDigit_digitByte {d : Nat} (hd : d < 10) : isDigit (digitByte d) = true := by
  rw [isDigit, toNat_digitByte hd, Bool.and_eq_true, decide_eq_true_eq, decide_eq_true_eq]
  omega

/-- A byte is a decimal digit or not. -/
theorem digitByte_or_not_isDigit (c : Byte) : (∃ d < 10, c = digitByte d) ∨ isDigit c = false := by
  cases hc : isDigit c with
  | false => exact .inr rfl
  | true =>
    simp only [isDigit, Bool.and_eq_true, decide_eq_true_eq] at hc
    have hd : c.toNat - 0x30 < 10 := by omega
    refine .inl ⟨c.toNat - 0x30, hd, BitVec.eq_of_toNat_eq ?_⟩
    rw [toNat_digitByte hd]
    omega

/-! ### What a number parser answers -/

@[simp] theorem startsWithDigit_cons (c : Byte) (s : Bytes) : startsWithDigit (c :: s) = isDigit c := rfl

theorem numberLoop_digit (v p : Nat) {d : Nat} (hd : d < 10) (s : Bytes) :
    numberLoop v p (digitByte d :: s) =
      if 10 * v + d > 4294967295 then formatError p else numberLoop (10 * v + d) (p + 1) s := by
  simp [numberLoop, hd, toNat_digitByte hd]

@[simp] theorem numberLoop_comma (v p : Nat) (s : Bytes) : numberLoop v p (chComma :: s) = .ok (v, p + 1, s) := rfl

theorem numberLoop_other (v p : Nat) {c : Byte} (hc : isDigit c = false) (hcomma : c ≠ chComma) (s : Bytes) :
    numberLoop v p (c :: s) = formatError p := by
  simp [numberLoop, hc, hcomma]

theorem parseNumber_digit (p : Nat) {d : Nat} (hd : d < 10) (s : Bytes) :
    parseNumber p (digitByte d :: s) =
      if d = 0 ∧ startsWithDigit s = true then formatError (p + 1) else numberLoop d (p + 1) s := by
  have hzero : digitByte d = 0x30#8 ↔ d = 0 := by
    rw [← BitVec.toNat_inj, toNat_digitByte hd]
    simp
  have hfit : ¬(4294967295 < d) := by omega
  simp [parseNumber, hd, hzero, numberLoop_digit 0 p hd, hfit]

theorem parseNumber_other (p : Nat) {c : Byte} (hc : isDigit c = false) (s : Bytes) :
    parseNumber p (c :: s) = formatError p := by
  simp [parseNumber, hc]

/-- The parser reads a numeral that fits `u32`, and goes on after it (R147). -/
theorem parseNumber_numeral (p n : Nat) (s : Bytes) (hn : n ≤ 4294967295) (hs : n = 0 → startsWithDigit s = false) :
    parseNumber p (numeral n ++ s) = numberLoop n (p + (numeral n).length) s := by
  induction n using numeral_induction generalizing s with
  | digit d hd =>
    have hzero : ¬(d = 0 ∧ startsWithDigit s = true) := fun ⟨h0, h1⟩ => by simp [hs h0] at h1
    rw [numeral_of_digit hd, List.singleton_append, parseNumber_digit p hd, if_neg hzero]
    rfl
  | snoc n d hn0 hd ih =>
    rw [numeral_snoc hn0 hd, List.append_assoc, ih _ (by omega) fun h0 => absurd h0 hn0.ne', List.singleton_append,
      numberLoop_digit _ _ hd, if_neg (by omega), List.length_append, List.length_singleton, Nat.add_assoc]

/-- What the loop answers, it has read with its `,`, as more digits of the numeral `v` (R147). -/
theorem numberLoop_ok {v p : Nat} {s : Bytes} {n p' : Nat} {s' : Bytes} (h : numberLoop v p s = .ok (n, p', s'))
    (hv : v ≤ 4294967295) (hs : v = 0 → startsWithDigit s = false) :
    n ≤ 4294967295 ∧ numeral v ++ s = numeral n ++ chComma :: s' ∧
      p' + (numeral v).length = p + (numeral n).length + 1 := by
  induction s generalizing v p with
  | nil => cases h
  | cons c s ih =>
    obtain ⟨d, hd, rfl⟩ | hc := digitByte_or_not_isDigit c
    · have hpos : 0 < v := Nat.pos_of_ne_zero fun h0 => by simpa [hd] using hs h0
      rw [numberLoop_digit _ _ hd] at h
      split at h
      · cases h
      · obtain ⟨hn, htext, hend⟩ := ih h (by omega) (by omega)
        rw [numeral_snoc hpos hd, List.append_assoc] at htext
        rw [numeral_snoc hpos hd, List.length_append, List.length_singleton] at hend
        exact ⟨hn, htext, by omega⟩
    · by_cases hcomma : c = chComma
      · subst hcomma
        cases h
        exact ⟨hv, rfl, by omega⟩
      · rw [numberLoop_other _ _ hc hcomma] at h
        cases h

/-! ### The fields of a token -/

/-- A number and its `,` (R145). -/
def numberField (v : Word) : Bytes := decimal v ++ [chComma]

/-- The next byte, or nothing, and the `)` (R145). -/
def nextField (x : Option Byte) : Bytes := x.toList ++ [chClose]

theorem tokenText_eq (t : Token) :
    tokenText t = [chOpen] ++ (numberField t.offset ++ (numberField t.length ++ nextField t.next)) := by
  simp [tokenText, numberField, nextField]

theorem length_tokenText (t : Token) : (tokenText t).length =
    1 + (numberField t.offset).length + (numberField t.length).length + (nextField t.next).length := by
  rw [tokenText_eq]
  simp only [List.length_append, List.length_singleton, Nat.add_assoc]

theorem parseNumber_numberField (p : Nat) (v : Word) (s : Bytes) :
    parseNumber p (numberField v ++ s) = .ok (v.toNat, p + (numberField v).length, s) := by
  have hv : v.toNat ≤ 4294967295 := by
    have := v.isLt
    omega
  rw [numberField, decimal_eq_numeral, List.append_assoc, List.singleton_append,
    parseNumber_numeral p _ _ hv fun _ => rfl, numberLoop_comma, List.length_append]
  rfl

/-- A number that the parser answers stood in the text with its `,` (R147). -/
theorem parseNumber_ok {p : Nat} {s : Bytes} {n p' : Nat} {s' : Bytes} (h : parseNumber p s = .ok (n, p', s')) :
    ∃ v : Word, n = v.toNat ∧ s = numberField v ++ s' ∧ p' = p + (numberField v).length := by
  cases s with
  | nil => cases h
  | cons c s =>
    obtain ⟨d, hd, rfl⟩ | hc := digitByte_or_not_isDigit c
    · rw [parseNumber_digit p hd] at h
      split at h
      · cases h
      next hzero =>
        have hs : d = 0 → startsWithDigit s = false := fun h0 => Bool.eq_false_iff.mpr fun h1 => hzero ⟨h0, h1⟩
        obtain ⟨hn, htext, hpos⟩ := numberLoop_ok h (by omega) hs
        have hv : (BitVec.ofNat 32 n).toNat = n := by rw [BitVec.toNat_ofNat, Nat.mod_eq_of_lt (by omega)]
        rw [numeral_of_digit hd] at htext hpos
        refine ⟨BitVec.ofNat 32 n, hv.symm, ?_, ?_⟩ <;> rw [numberField, decimal_eq_numeral, hv]
        · simpa using htext
        · simp only [List.length_append, List.length_singleton] at hpos ⊢
          omega
    · rw [parseNumber_other p hc] at h
      cases h

/-- The parser reads the third field back. After a field with no next byte it looks one byte further, which is `(` (R148). -/
theorem parseNext_nextField (p : Nat) (x : Option Byte) (s : Bytes) (hs : x = none → s.head? ≠ some chClose) :
    parseNext p (nextField x ++ s) = .ok (x, p + (nextField x).length, s) := by
  match x, s with
  | some c, s => simp [nextField, parseNext]
  | none, [] => rfl
  | none, d :: s =>
    have hd : d ≠ chClose := fun h => hs rfl (congrArg some h)
    simp [nextField, parseNext, hd]

/-- What the parser answers for the third field stood in the text (R147). -/
theorem parseNext_ok {p : Nat} {s : Bytes} {x : Option Byte} {p' : Nat} {s' : Bytes}
    (h : parseNext p s = .ok (x, p', s')) :
    s = nextField x ++ s' ∧ p' = p + (nextField x).length ∧ (x = none → s'.head? ≠ some chClose) := by
  match s with
  | [] => cases h
  | [c] =>
    rw [parseNext] at h
    split at h <;> cases h
    next hc => exact ⟨by rw [hc]; rfl, rfl, fun _ => nofun⟩
  | c :: d :: s =>
    rw [parseNext] at h
    split at h
    next hd =>
      cases h
      exact ⟨by rw [hd]; rfl, rfl, nofun⟩
    next hd =>
      split at h <;> cases h
      next hc => exact ⟨by rw [hc]; rfl, rfl, fun _ => by simpa using hd⟩

/-! ### Tokens -/

/-- The parser reads a token back (R148). -/
theorem parseToken_tokenText (p : Nat) (t : Token) (s : Bytes) (hs : t.next = none → s.head? ≠ some chClose) :
    parseToken p (tokenText t ++ s) = .ok (t, p + (tokenText t).length, s) := by
  have happend : tokenText t ++ s =
      chOpen :: (numberField t.offset ++ (numberField t.length ++ (nextField t.next ++ s))) := by simp [tokenText_eq]
  rw [happend, length_tokenText]
  simp [parseToken, parseNumber_numberField, parseNext_nextField _ _ _ hs, bind, Except.bind, Nat.add_assoc]

/-- A token that the parser answers stood in the text (R147). -/
theorem parseToken_ok {p : Nat} {s : Bytes} {t : Token} {p' : Nat} {s' : Bytes} (h : parseToken p s = .ok (t, p', s')) :
    s = tokenText t ++ s' ∧ p' = p + (tokenText t).length ∧ (t.next = none → s'.head? ≠ some chClose) := by
  cases s with
  | nil => cases h
  | cons c s =>
    rw [parseToken] at h
    split at h
    next hc =>
      obtain ⟨⟨o, p1, s1⟩, ho, h⟩ := bind_eq_ok h
      obtain ⟨⟨l, p2, s2⟩, hl, h⟩ := bind_eq_ok h
      obtain ⟨⟨x, p3, s3⟩, hx, h⟩ := bind_eq_ok h
      cases h
      obtain ⟨o, rfl, rfl, rfl⟩ := parseNumber_ok ho
      obtain ⟨l, rfl, rfl, rfl⟩ := parseNumber_ok hl
      obtain ⟨rfl, rfl, hs⟩ := parseNext_ok hx
      refine ⟨by simp [hc, tokenText_eq], ?_, hs⟩
      simp only [length_tokenText, BitVec.ofNat_toNat, BitVec.setWidth_eq, Nat.add_assoc]
    · cases h

/-! ### Texts -/

@[simp] theorem text_nil : text [] = [] := rfl

theorem text_cons (t : Token) (ts : List Token) : text (t :: ts) = tokenText t ++ text ts := List.flatMap_cons

/-- No text starts with `)` (R148). -/
theorem text_head?_ne_chClose (ts : List Token) : (text ts).head? ≠ some chClose := by
  cases ts with
  | nil => nofun
  | cons t ts => exact fun h => absurd (Option.some.inj h) (by decide)

theorem parseTextFrom_succ (fuel p : Nat) (c : Byte) (s : Bytes) :
    parseTextFrom (fuel + 1) p (c :: s) = (do
      let (t, p', s') ← parseToken p (c :: s)
      let ts ← parseTextFrom fuel p' s'
      .ok (t :: ts)) := rfl

theorem parseTextFrom_text (fuel p : Nat) (ts : List Token) (h : ts.length ≤ fuel) :
    parseTextFrom fuel p (text ts) = .ok ts := by
  induction ts generalizing fuel p with
  | nil => cases fuel <;> rfl
  | cons t ts ih =>
    obtain ⟨fuel, rfl⟩ := Nat.exists_eq_add_of_le' (Nat.zero_lt_of_lt h)
    have hlen : ts.length ≤ fuel := by simpa using h
    have htoken := parseToken_tokenText p t (text ts) fun _ => text_head?_ne_chClose ts
    rw [← text_cons] at htoken
    cases htext : text (t :: ts) with
    | nil => simp [text_cons, tokenText_eq] at htext
    | cons c s =>
      rw [parseTextFrom_succ, ← htext, htoken]
      simp [ih _ _ hlen, bind, Except.bind]

theorem parseTextFrom_ok {fuel p : Nat} {s : Bytes} {ts : List Token} (h : parseTextFrom fuel p s = .ok ts) :
    text ts = s := by
  induction fuel generalizing p s ts with
  | zero => cases s <;> cases h; rfl
  | succ fuel ih =>
    cases s with
    | nil =>
      cases h
      rfl
    | cons c s =>
      obtain ⟨⟨t, p', s'⟩, ht, h⟩ := bind_eq_ok h
      obtain ⟨ts, hts, h⟩ := bind_eq_ok h
      cases h
      rw [text_cons, ih hts, (parseToken_ok ht).1]

/-! ### The first fault -/

/-- `s` is the start of a string of `P`. -/
def Starts (P : Bytes → Prop) (s : Bytes) : Prop := ∃ u, P (s ++ u)

/-- The first fault of `s` for the language `P` is at byte `k` (R147). -/
def FaultAt (P : Bytes → Prop) (s : Bytes) (k : Nat) : Prop :=
  k ≤ s.length ∧ Starts P (s.take k) ∧ (k < s.length → ¬Starts P (s.take (k + 1)))

/-- An error of a parser that stands at byte `p`, before `s`, names the first fault of `s` for the language `P`. -/
def FaultsIn (P : Bytes → Prop) (p : Nat) (s : Bytes) {α : Type} (x : Except EngineError α) : Prop :=
  ∀ e, x = .error e → ∃ k, e.info = p + k ∧ FaultAt P s k

section Faults

variable {P Q : Bytes → Prop} {p : Nat} {s : Bytes} {α β : Type} {x : Except EngineError α}

theorem FaultsIn.ok (a : α) : FaultsIn P p s (.ok a : Except EngineError α) := fun _ h => nomatch h

theorem FaultsIn.bind {f : α → Except EngineError β} (hx : FaultsIn P p s x)
    (hf : ∀ a, x = .ok a → FaultsIn P p s (f a)) : FaultsIn P p s (x >>= f) := by
  cases x with
  | error e =>
    intro e' he
    cases he
    exact hx e rfl
  | ok a => exact hf a rfl

/-- A text that ends too early has its fault at its end. -/
theorem FaultsIn.atEnd (h : ∃ u, P u) : FaultsIn P p [] (formatError p : Except EngineError α) := by
  intro e he
  cases he
  exact ⟨0, rfl, le_rfl, h, nofun⟩

/-- A byte with which no string of the language starts is the fault. -/
theorem FaultsIn.atByte {c : Byte} (h : ∃ u, P u) (hc : ∀ u, ¬P (c :: u)) :
    FaultsIn P p (c :: s) (formatError p : Except EngineError α) := by
  intro e he
  cases he
  exact ⟨0, rfl, Nat.zero_le _, h, fun _ ⟨u, hu⟩ => hc u hu⟩

/-- A parser that has consumed `a` is left with the language `Q` of what may follow `a`. Of the strings that start as `s` does,
it must have them all. -/
theorem FaultsIn.consumed {a : Bytes} (h : FaultsIn Q (p + a.length) s x) (hlive : ∀ u, Q u → P (a ++ u))
    (hall : ∀ u, u.head? = s.head? → P (a ++ u) → Q u) : FaultsIn P p (a ++ s) x := by
  intro e he
  obtain ⟨k, hinfo, hk, ⟨u, hu⟩, hdead⟩ := h e he
  refine ⟨a.length + k, by omega, by simpa using hk, ⟨u, ?_⟩, fun hlt ⟨v, hv⟩ => ?_⟩
  · rw [List.take_length_add_append, List.append_assoc]
    exact hlive _ hu
  · have hlt : k < s.length := by simpa using hlt
    rw [Nat.add_assoc, List.take_length_add_append, List.append_assoc] at hv
    refine hdead hlt ⟨v, hall _ ?_ hv⟩
    cases s with
    | nil => cases hlt
    | cons c s => rfl

end Faults

/-! ### The faults of a number -/

/-- A field, and then a string of `Q`. -/
def FieldThen {α : Type} (field : α → Bytes) (Q : Bytes → Prop) (s : Bytes) : Prop := ∃ a u, Q u ∧ s = field a ++ u

theorem exists_fieldThen {α : Type} {field : α → Bytes} {Q : Bytes → Prop} (a : α) (h : ∃ u, Q u) :
    ∃ u, FieldThen field Q u := h.elim fun u hu => ⟨_, a, u, hu, rfl⟩

section Number

variable {Q : Bytes → Prop} {p : Nat} {s : Bytes}

/-- After `a`, a byte with which the number parser fails whatever follows is the fault. -/
theorem FaultsIn.noNumber {α : Type} {a : Bytes} {c : Byte} {k : Nat} (h : ∃ u, FieldThen numberField Q (a ++ u))
    (hc : ∀ u, parseNumber 0 (a ++ c :: u) = formatError k) :
    FaultsIn (fun u => FieldThen numberField Q (a ++ u)) p (c :: s) (formatError p : Except EngineError α) := by
  refine .atByte h fun u ⟨v, u', _, heq⟩ => ?_
  have hfail := hc u
  rw [heq, parseNumber_numberField] at hfail
  cases hfail

/-- Only the rest follows a number that has been read. -/
theorem fieldThen_numberField_iff {v : Word} {u : Bytes} : FieldThen numberField Q (numberField v ++ u) ↔ Q u := by
  refine ⟨fun ⟨w, u', hu', heq⟩ => ?_, fun hu => ⟨v, u, hu, rfl⟩⟩
  have h := parseNumber_numberField 0 v u
  rw [heq, parseNumber_numberField] at h
  simp only [Except.ok.injEq, Prod.mk.injEq] at h
  obtain ⟨-, -, rfl⟩ := h
  exact hu'

/-- The numeral of every `u32` starts a number. -/
theorem fieldThen_numeral {n : Nat} (hn : n ≤ 4294967295) (hQ : ∃ u, Q u) :
    ∃ u, FieldThen numberField Q (numeral n ++ u) := by
  obtain ⟨u, hu⟩ := hQ
  refine ⟨chComma :: u, BitVec.ofNat 32 n, u, hu, ?_⟩
  rw [numberField, decimal_eq_numeral, BitVec.toNat_ofNat, Nat.mod_eq_of_lt (by omega)]
  simp

/-- The loop has read the numeral `v`, and fails at the first byte that continues it to no number (R147). -/
theorem numberLoop_faultsIn {v : Nat} (hv : v ≤ 4294967295) (hs : v = 0 → startsWithDigit s = false) (hQ : ∃ u, Q u) :
    FaultsIn (fun u => FieldThen numberField Q (numeral v ++ u)) p s (numberLoop v p s) := by
  induction s generalizing v p with
  | nil => exact .atEnd (fieldThen_numeral hv hQ)
  | cons c s ih =>
    have hlive := fieldThen_numeral hv hQ
    obtain ⟨d, hd, rfl⟩ | hc := digitByte_or_not_isDigit c
    · have hpos : 0 < v := Nat.pos_of_ne_zero fun h0 => by simpa [hd] using hs h0
      rw [numberLoop_digit _ _ hd]
      split
      next hbig =>
        refine .noNumber (k := 0 + (numeral v).length) hlive fun u => ?_
        rw [parseNumber_numeral _ _ _ hv fun h0 => absurd h0 hpos.ne', numberLoop_digit _ _ hd, if_pos hbig]
      next hfit =>
        refine FaultsIn.consumed (a := [digitByte d]) (ih (v := 10 * v + d) (by omega) (by omega)) ?_ ?_ <;>
          simp [numeral_snoc hpos hd]
    · by_cases hcomma : c = chComma
      · subst hcomma
        exact .ok _
      · rw [numberLoop_other _ _ hc hcomma]
        refine .noNumber (k := 0 + (numeral v).length) hlive fun u => ?_
        rw [parseNumber_numeral _ _ (c :: u) hv fun _ => hc, numberLoop_other _ _ hc hcomma]

theorem parseNumber_faultsIn (hQ : ∃ u, Q u) : FaultsIn (FieldThen numberField Q) p s (parseNumber p s) := by
  cases s with
  | nil => exact .atEnd (exists_fieldThen 0 hQ)
  | cons c s =>
    obtain ⟨d, hd, rfl⟩ | hc := digitByte_or_not_isDigit c
    · have hlive := fieldThen_numeral (n := d) (by omega) hQ
      rw [parseNumber_digit p hd]
      refine FaultsIn.consumed (a := [digitByte d]) (Q := fun u => FieldThen numberField Q (numeral d ++ u)) ?_ ?_ ?_
      · split
        next hzero =>
          cases s with
          | nil => cases hzero.2
          | cons c s =>
            refine .noNumber (k := 0 + 1) hlive fun u => ?_
            rw [startsWithDigit_cons] at hzero
            rw [numeral_of_digit hd, List.singleton_append, parseNumber_digit _ hd, startsWithDigit_cons, if_pos hzero]
        next hzero =>
          exact numberLoop_faultsIn (by omega) (fun h0 => Bool.eq_false_iff.mpr fun h1 => hzero ⟨h0, h1⟩) hQ
      · simp [numeral_of_digit hd]
      · simp [numeral_of_digit hd]
    · rw [parseNumber_other p hc]
      exact .noNumber (a := []) (exists_fieldThen 0 hQ) (parseNumber_other 0 hc)

end Number

/-! ### The faults of a text -/

/-- The texts of tokens. -/
def IsText (s : Bytes) : Prop := ∃ ts, s = text ts

theorem exists_isText : ∃ u, IsText u := ⟨[], [], rfl⟩

theorem parseNext_faultsIn (p : Nat) (s : Bytes) : FaultsIn (FieldThen nextField IsText) p s (parseNext p s) := by
  match s with
  | [] => exact .atEnd (exists_fieldThen none exists_isText)
  | [c] =>
    rw [parseNext]
    split
    · exact .ok _
    next hc =>
      refine FaultsIn.consumed (a := [c]) (.atEnd ?_) (fun u hu => hu) fun u _ hu => hu
      exact ⟨[chClose], some c, [], ⟨[], rfl⟩, rfl⟩
  | c :: d :: s =>
    rw [parseNext]
    split
    · exact .ok _
    next hd =>
      split
      · exact .ok _
      next hc =>
        refine FaultsIn.consumed (a := [c]) (.atByte ?_ ?_) (fun u hu => hu) fun u _ hu => hu
        · exact ⟨[chClose], some c, [], ⟨[], rfl⟩, rfl⟩
        · rintro u ⟨x, u', -, heq⟩
          cases x with
          | none => exact hc (List.cons.inj heq).1
          | some b => exact hd (List.cons.inj (List.cons.inj heq).2).1

/-- What may follow `(` in a text (R145). -/
theorem isText_chOpen_iff (u : Bytes) :
    IsText (chOpen :: u) ↔ FieldThen numberField (FieldThen numberField (FieldThen nextField IsText)) u := by
  constructor
  · rintro ⟨ts, hts⟩
    cases ts with
    | nil => cases hts
    | cons t ts =>
      rw [text_cons, tokenText_eq] at hts
      obtain ⟨-, rfl⟩ := List.cons.inj hts
      exact ⟨t.offset, _, ⟨t.length, _, ⟨t.next, _, ⟨ts, rfl⟩, rfl⟩, rfl⟩, by simp⟩
  · rintro ⟨o, _, ⟨l, _, ⟨x, _, ⟨ts, rfl⟩, rfl⟩, rfl⟩, rfl⟩
    exact ⟨⟨o, l, x⟩ :: ts, by simp [text_cons, tokenText_eq]⟩

theorem parseToken_faultsIn (p : Nat) (c : Byte) (s : Bytes) : FaultsIn IsText p (c :: s) (parseToken p (c :: s)) := by
  rw [parseToken]
  split
  next hc =>
    subst hc
    refine FaultsIn.consumed (a := [chOpen]) ?_ (fun u => (isText_chOpen_iff u).mpr) fun u _ => (isText_chOpen_iff u).mp
    refine (parseNumber_faultsIn (exists_fieldThen 0 (exists_fieldThen none exists_isText))).bind fun ⟨o, p1, s1⟩ ho => ?_
    obtain ⟨o, rfl, rfl, rfl⟩ := parseNumber_ok ho
    refine FaultsIn.consumed ?_ (fun u => fieldThen_numberField_iff.mpr) fun u _ => fieldThen_numberField_iff.mp
    refine (parseNumber_faultsIn (exists_fieldThen none exists_isText)).bind fun ⟨l, p2, s2⟩ hl => ?_
    obtain ⟨l, rfl, rfl, rfl⟩ := parseNumber_ok hl
    refine FaultsIn.consumed ?_ (fun u => fieldThen_numberField_iff.mpr) fun u _ => fieldThen_numberField_iff.mp
    exact (parseNext_faultsIn _ _).bind fun _ _ => .ok _
  next hc =>
    refine .atByte exists_isText fun u => ?_
    rintro ⟨ts, hts⟩
    cases ts with
    | nil => cases hts
    | cons t ts =>
      rw [text_cons, tokenText_eq] at hts
      exact hc (List.cons.inj hts).1

/-- Only a text follows a token in a text. -/
theorem IsText.of_tokenText {t : Token} {u : Bytes} (hu : t.next = none → u.head? ≠ some chClose)
    (h : IsText (tokenText t ++ u)) : IsText u := by
  obtain ⟨ts, hts⟩ := h
  have hparse := parseToken_tokenText 0 t u hu
  cases ts with
  | nil => simp [tokenText_eq] at hts
  | cons t' ts =>
    rw [hts, text_cons, parseToken_tokenText 0 t' _ fun _ => text_head?_ne_chClose ts] at hparse
    cases hparse
    exact ⟨ts, rfl⟩

theorem parseTextFrom_faultsIn (fuel p : Nat) (s : Bytes) (h : s.length ≤ fuel) :
    FaultsIn IsText p s (parseTextFrom fuel p s) := by
  induction fuel generalizing p s with
  | zero =>
    obtain rfl := List.length_eq_zero_iff.mp (Nat.le_zero.mp h)
    exact .ok _
  | succ fuel ih =>
    cases s with
    | nil => exact .ok _
    | cons c s =>
      rw [parseTextFrom_succ]
      refine (parseToken_faultsIn p c s).bind fun ⟨t, p', s'⟩ ht => ?_
      obtain ⟨htext, rfl, hs'⟩ := parseToken_ok ht
      rw [htext] at h ⊢
      have hlen : s'.length ≤ fuel := by
        rw [List.length_append, length_tokenText] at h
        omega
      refine FaultsIn.consumed ((ih _ _ hlen).bind fun _ _ => .ok _) ?_ fun u hu => .of_tokenText (hu ▸ hs')
      rintro _ ⟨ts, rfl⟩
      exact ⟨t :: ts, (text_cons t ts).symm⟩

theorem startsText_iff (s : Bytes) : StartsText s ↔ Starts IsText s :=
  ⟨fun ⟨ts, u, hu⟩ => ⟨u, ts, hu⟩, fun ⟨u, ts, hu⟩ => ⟨ts, u, hu⟩⟩

/-- The fault of R147 is the first fault for the language of texts. -/
theorem textFaultAt_iff (s : Bytes) (k : Nat) : TextFaultAt s k ↔ FaultAt IsText s k := by
  simp only [TextFaultAt, FaultAt, startsText_iff]

theorem length_le_length_text (ts : List Token) : ts.length ≤ (text ts).length := by
  induction ts with
  | nil => exact le_rfl
  | cons t ts ih =>
    rw [text_cons, List.length_append, length_tokenText, List.length_cons]
    omega

/-- Settles O50: the parser reads texts and nothing else, and its errors are first faults. -/
theorem textRoundTrip : Obligations.TextRoundTrip := by
  refine ⟨rfl, fun t ts => rfl, fun v => ?_, fun ts => parseTextFrom_text _ 0 ts (length_le_length_text ts),
    fun s ts h => parseTextFrom_ok h, fun s e h => ⟨parseTokenString_raisesOnly false s e h, ?_⟩⟩
  · have hzero : v = 0 ↔ v.toNat = 0 := by rw [← BitVec.toNat_inj]; rfl
    simp only [decimal_eq_numeral, numeral, hzero]
    rfl
  · obtain ⟨k, hinfo, hfault⟩ := parseTextFrom_faultsIn _ 0 s le_rfl e h
    rwa [hinfo, Nat.zero_add, textFaultAt_iff]

end Sys2Proof.Machine
end

section
/-! SUPPORT. Command words (30_encoding.md R120 to R122) and token records (R140, R141): what the decoder and the record parser
read back, and where the parser fails. -/

namespace Sys2Proof.Machine

/-! ### Command words -/

/-- An `OPCODE` selects a command exactly when it is that command's (R121). -/
theorem decodeOpcode_eq_some_iff {op : Byte} {i : Instr} : decodeOpcode op = some i ↔ op = i.opcode := by
  constructor
  · intro h
    rw [decodeOpcode] at h
    split at h <;> cases h <;> exact BitVec.eq_of_toNat_eq ‹_›
  · rintro rfl
    cases i <;> rfl

/-- A word decodes to a command exactly when it is that command's word (R120 to R122). -/
theorem decodeWord_eq_ok_iff {w : Word} {i : Instr} : decodeWord w = .ok i ↔ w = encodeWord i := by
  constructor
  · intro h
    rw [decodeWord] at h
    split at h
    · cases h
    next hrsvd =>
      split at h <;> cases h
      next hop =>
        have hsplit : w.extractLsb' 8 24 ++ w.extractLsb' 0 8 = w := by
          rw [BitVec.extractLsb'_append_extractLsb'_eq_extractLsb' (by rfl : 8 = 0 + 8)]
          simp
        rw [← hsplit, not_not.mp hrsvd, decodeOpcode_eq_some_iff.mp hop]
        rfl
  · rintro rfl
    cases i <;> rfl

/-- Settles O1: the word of a command is the only one that decodes to it, and its bytes are read back. -/
theorem decodeAndEncodeAgree : Obligations.DecodeAndEncodeAgree := by
  refine ⟨fun i rest => ?_, fun w i => decodeWord_eq_ok_iff⟩
  rw [encode, decode_bytesLe32, decodeWord_eq_ok_iff.mpr rfl]
  rfl

/-- Settles O2: each word of the list is its command's. -/
theorem sampleCommandWordsDecode : Obligations.SampleCommandWordsDecode := by
  refine ⟨?_, rfl, rfl⟩
  simp only [decodeWord_eq_ok_iff]
  decide

/-! ### Token records -/

/-- A word from four bytes has those bytes (R84). -/
theorem bytesLe32_le32 (b0 b1 b2 b3 : Byte) : bytesLe32 (le32 b0 b1 b2 b3) = [b0, b1, b2, b3] := by
  have hbyte : ∀ k < 4, (le32 b0 b1 b2 b3).extractLsb' (8 * k) 8 = [b0, b1, b2, b3].getD k 0 := fun k hk => by
    have h0 := b0.isLt
    have h1 := b1.isLt
    have h2 := b2.isLt
    apply BitVec.eq_of_toNat_eq
    rw [BitVec.extractLsb'_toNat, toNat_le32, Nat.shiftRight_eq_div_pow]
    interval_cases k <;> simp <;> omega
  rw [bytesLe32, hbyte 0 (by decide), hbyte 1 (by decide), hbyte 2 (by decide), hbyte 3 (by decide)]
  rfl

theorem recs_cons (t : Token) (ts : List Token) : recs (t :: ts) = tokenRecord t ++ recs ts := List.flatMap_cons

@[simp] theorem length_tokenRecord (t : Token) : (tokenRecord t).length = 10 := by
  obtain ⟨o, l, x⟩ := t
  cases x <;> rfl

@[simp] theorem length_recs (ts : List Token) : (recs ts).length = 10 * ts.length := by
  simp [recs, List.length_flatMap, Nat.mul_comm]

/-- The parser reads a record back (R141). -/
theorem parseRecsFrom_tokenRecord (p : Nat) (t : Token) (s : Bytes) :
    parseRecsFrom p (tokenRecord t ++ s) = (t :: ·) <$> parseRecsFrom (p + 10) s := by
  obtain ⟨o, l, x⟩ := t
  cases x <;>
    simp [tokenRecord, bytesLe32, parseRecsFrom, recordNext, le32_bytesLe32, bind, Except.bind, Functor.map, Except.map]

theorem parseRecsFrom_recs (p : Nat) (ts : List Token) : parseRecsFrom p (recs ts) = .ok ts := by
  induction ts generalizing p with
  | nil => rfl
  | cons t ts ih =>
    rw [recs_cons, parseRecsFrom_tokenRecord, ih]
    rfl

/-- A flag and a value that are read are the last two bytes of the token's record (R140, R141). -/
theorem tokenRecord_of_recordNext {p : Nat} {o0 o1 o2 o3 l0 l1 l2 l3 flag value : Byte} {x : Option Byte}
    (h : recordNext p flag value = .ok x) :
    tokenRecord ⟨le32 o0 o1 o2 o3, le32 l0 l1 l2 l3, x⟩ = [o0, o1, o2, o3, l0, l1, l2, l3, flag, value] := by
  rw [recordNext] at h
  split at h
  next hflag =>
    cases h
    simp [tokenRecord, bytesLe32_le32, hflag]
  next hset =>
    split at h
    next hflag =>
      split at h <;> cases h
      next hvalue => simp [tokenRecord, bytesLe32_le32, hflag, not_not.mp hvalue]
    · cases h

/-- What the parser answers, it has read as records (R141). -/
theorem recs_of_parseRecsFrom {p : Nat} {s : Bytes} {ts : List Token} (h : parseRecsFrom p s = .ok ts) : recs ts = s := by
  induction p, s using parseRecsFrom.induct generalizing ts with
  | case1 p =>
    cases h
    rfl
  | case2 p o0 o1 o2 o3 l0 l1 l2 l3 flag value rest ih =>
    obtain ⟨x, hx, h⟩ := bind_eq_ok h
    obtain ⟨ts, hts, h⟩ := bind_eq_ok h
    cases h
    rw [recs_cons, tokenRecord_of_recordNext hx, ih hts]
    rfl
  | case3 s p hnil hrec =>
    rw [parseRecsFrom] at h
    · cases h
    · exact hnil
    · exact hrec

/-- The flag or the value of a record that is not read is the fault (R141). -/
theorem recordNext_error {p : Nat} {flag value : Byte} {e : EngineError} (h : recordNext p flag value = .error e) :
    flag = 0x00#8 ∧ value ≠ 0x00#8 ∧ e.info = p + 9 ∨ flag ≠ 0x00#8 ∧ flag ≠ 0x01#8 ∧ e.info = p + 8 := by
  rw [recordNext] at h
  split at h
  · cases h
  next hset =>
    split at h
    next hflag =>
      split at h <;> cases h
      next hvalue => exact .inl ⟨hflag, hvalue, rfl⟩
    next hclear =>
      cases h
      exact .inr ⟨hclear, hset, rfl⟩

/-- Bytes that are neither none nor a record are less than a record. -/
theorem length_lt_of_noRecord {s : Bytes}
    (h : ∀ o0 o1 o2 o3 l0 l1 l2 l3 flag value rest,
      s ≠ o0 :: o1 :: o2 :: o3 :: l0 :: l1 :: l2 :: l3 :: flag :: value :: rest) :
    s.length < 10 := by
  match s with
  | [] | [_] | [_, _] | [_, _, _] | [_, _, _, _] | [_, _, _, _, _] | [_, _, _, _, _, _] | [_, _, _, _, _, _, _]
  | [_, _, _, _, _, _, _, _] | [_, _, _, _, _, _, _, _, _] => simp
  | _ :: _ :: _ :: _ :: _ :: _ :: _ :: _ :: _ :: _ :: _ => exact absurd rfl (h _ _ _ _ _ _ _ _ _ _ _)

/-- The first fault after a record is one of the stream (R141). -/
theorem RecordFaultAt.tokenRecord_append {s : Bytes} {k : Nat} (t : Token) (h : RecordFaultAt s k) :
    RecordFaultAt (tokenRecord t ++ s) (10 + k) := by
  obtain ⟨p, ts, hp, hgood, hlen, hfault⟩ := h
  have htake : (tokenRecord t ++ s).take (10 + p) = recs (t :: ts) := by
    rw [recs_cons, recs_of_parseRecsFrom hgood, ← length_tokenRecord t, List.take_length_add_append]
  have hbyte : ∀ n, (tokenRecord t ++ s)[10 + p + n]? = s[p + n]? := fun n => by
    rw [List.getElem?_append_right (by rw [length_tokenRecord]; omega), length_tokenRecord, Nat.add_assoc,
      Nat.add_sub_cancel_left]
  refine ⟨10 + p, t :: ts, ?_, ?_, ?_, ?_⟩
  · rw [List.length_append, length_tokenRecord]
    omega
  · rw [htake]
    exact parseRecsFrom_recs 0 _
  · rw [hlen, List.length_cons]
    omega
  · have hlong : p + 10 ≤ s.length → 10 + p + 10 ≤ 10 + s.length := by omega
    rw [hbyte, hbyte, List.length_append, length_tokenRecord]
    obtain ⟨hshort, hk⟩ | ⟨hall, hflag, hvalue, hk⟩ | ⟨hall, hclear, hset, hk⟩ := hfault
    · exact .inl ⟨by omega, by omega⟩
    · exact .inr (.inl ⟨hlong hall, hflag, hvalue, by omega⟩)
    · exact .inr (.inr ⟨hlong hall, hclear, hset, by omega⟩)

/-- An error of the parser that stands at byte `p`, before `s`, is the first fault of `s` (R141). -/
theorem parseRecsFrom_fault {p : Nat} {s : Bytes} {e : EngineError} (h : parseRecsFrom p s = .error e) :
    ∃ k, e.info = p + k ∧ RecordFaultAt s k := by
  induction p, s using parseRecsFrom.induct with
  | case1 p => cases h
  | case2 p o0 o1 o2 o3 l0 l1 l2 l3 flag value rest ih =>
    rw [parseRecsFrom] at h
    cases hx : recordNext p flag value with
    | error e' =>
      rw [hx] at h
      cases h
      obtain ⟨hflag, hvalue, hinfo⟩ | ⟨hclear, hset, hinfo⟩ := recordNext_error hx
      · exact ⟨9, hinfo, 0, [], by simp, rfl, rfl, .inr (.inl (by simp [hflag, hvalue]))⟩
      · exact ⟨8, hinfo, 0, [], by simp, rfl, rfl, .inr (.inr (by simp [hclear, hset]))⟩
    | ok x =>
      rw [hx] at h
      cases hrest : parseRecsFrom (p + 10) rest with
      | error e' =>
        rw [hrest] at h
        cases h
        obtain ⟨k, hinfo, hfault⟩ := ih hrest
        refine ⟨10 + k, by omega, ?_⟩
        have hrecord := hfault.tokenRecord_append ⟨le32 o0 o1 o2 o3, le32 l0 l1 l2 l3, x⟩
        rwa [tokenRecord_of_recordNext hx] at hrecord
      | ok us =>
        rw [hrest] at h
        cases h
  | case3 s p hnil hrec =>
    rw [parseRecsFrom] at h
    · cases h
      have hlt := length_lt_of_noRecord hrec
      exact ⟨0, rfl, 0, [], List.length_pos_iff.mpr hnil, rfl, rfl, .inl ⟨by omega, rfl⟩⟩
    · exact hnil
    · exact hrec

/-- Settles O49: the parser reads records and nothing else, and its errors are first faults. -/
theorem recordStreamsRoundTrip : Obligations.RecordStreamsRoundTrip :=
  ⟨rfl, fun _ _ => rfl, fun ts => ⟨parseRecsFrom_recs 0 ts, length_recs ts⟩, fun _ _ h => recs_of_parseRecsFrom h,
    fun s e h => ⟨parseRecs_raisesOnly s e h, by
      obtain ⟨k, hinfo, hfault⟩ := parseRecsFrom_fault h
      rwa [hinfo, Nat.zero_add]⟩⟩

end Sys2Proof.Machine
end

section
/-! SUPPORT. The tokens of `lz77` (41_lz77.md R200 to R202): the match that the search keeps at a position, and the bounds of
30_encoding.md R142. -/

namespace Sys2Proof.Machine

/-! ### The search at a position -/

theorem commonStart_le_length (as bs : Bytes) : commonStart as bs ≤ bs.length := by
  induction as, bs using commonStart.induct <;> simp [commonStart, *]

/-- A match ends in the input (R200). -/
theorem matchLen_le (s : Bytes) (i j : Nat) : matchLen s i j ≤ s.length - i := by
  simpa [matchLen] using commonStart_le_length (s.drop j) (s.drop i)

/-- What is better than the best match so far has a length (R202). -/
theorem pos_of_better {tie : LzTie} {k off bestLen bestOff : Nat} (h : better tie k off bestLen bestOff = true) : 0 < k := by
  cases tie with
  | firstScanned => exact Nat.zero_lt_of_lt (of_decide_eq_true h)
  | nearest =>
    simp only [better, Bool.or_eq_true, Bool.and_eq_true, decide_eq_true_eq] at h
    omega

/-- The match `(length, offset)` of position `i` in the window (R201). -/
structure WindowMatch (s : Bytes) (i : Nat) (m : Nat × Nat) : Prop where
  length_pos : 0 < m.1
  offset_pos : 0 < m.2
  offset_le : m.2 ≤ i
  offset_le_window : m.2 ≤ 32768
  length_eq : m.1 = matchLen s i (i - m.2)

/-- The search keeps a match in the window, or the initial `(0, 0)` (R201). -/
theorem searchMatch_cases (tie : LzTie) (s : Bytes) (i : Nat) :
    searchMatch tie s i = (0, 0) ∨ WindowMatch s i (searchMatch tie s i) := by
  rw [searchMatch]
  refine List.foldlRecOn _ _ (motive := fun m => m = (0, 0) ∨ WindowMatch s i m) (.inl rfl) fun best hbest j hj => ?_
  have hwindow : i - 32768 ≤ j ∧ j < i := by
    have := List.mem_range'_1.mp hj
    rw [Config.window] at this
    omega
  dsimp only
  split
  next hbetter =>
    refine .inr ⟨pos_of_better hbetter, ?_, ?_, ?_, ?_⟩ <;> dsimp only
    · omega
    · omega
    · omega
    · rw [Nat.sub_sub_self hwindow.2.le]
  · exact hbest

theorem WindowMatch.add_length_le {s : Bytes} {i : Nat} {m : Nat × Nat} (h : WindowMatch s i m) : i + m.1 ≤ s.length := by
  have hle := matchLen_le s i (i - m.2)
  have := h.length_eq
  have := h.length_pos
  omega

/-! ### The tokens -/

/-- The token of position `i` (R201). -/
def tokenAt (tie : LzTie) (s : Bytes) (i : Nat) : Token :=
  ⟨BitVec.ofNat 32 (searchMatch tie s i).2, BitVec.ofNat 32 (searchMatch tie s i).1, s[i + (searchMatch tie s i).1]?⟩

theorem lz77From_of_lt (tie : LzTie) (s : Bytes) (fuel : Nat) {i : Nat} (h : i < s.length) :
    lz77From tie s (fuel + 1) i = tokenAt tie s i :: lz77From tie s fuel (i + (searchMatch tie s i).1 + 1) := by
  rw [lz77From, if_pos h]
  rfl

theorem lz77From_of_le (tie : LzTie) (s : Bytes) (fuel : Nat) {i : Nat} (h : s.length ≤ i) : lz77From tie s fuel i = [] := by
  cases fuel with
  | zero => rfl
  | succ fuel => rw [lz77From, if_neg (Nat.not_lt.mpr h)]

theorem length_lz77From_le (tie : LzTie) (s : Bytes) (fuel i : Nat) : (lz77From tie s fuel i).length ≤ fuel := by
  induction fuel generalizing i with
  | zero => exact le_rfl
  | succ fuel ih =>
    by_cases h : i < s.length
    · rw [lz77From_of_lt tie s fuel h]
      exact Nat.succ_le_succ (ih _)
    · simp [lz77From_of_le tie s _ (Nat.not_lt.mp h)]

/-- Every token is that of a position of the input, and ends the sequence if it ends the input. -/
theorem lz77From_getElem? {tie : LzTie} {s : Bytes} {fuel i k : Nat} {t : Token}
    (h : (lz77From tie s fuel i)[k]? = some t) :
    ∃ j < s.length, t = tokenAt tie s j ∧
      (s.length ≤ j + (searchMatch tie s j).1 → k + 1 = (lz77From tie s fuel i).length) := by
  induction fuel generalizing i k with
  | zero => cases h
  | succ fuel ih =>
    by_cases hi : i < s.length
    · rw [lz77From_of_lt tie s fuel hi] at h ⊢
      cases k with
      | zero =>
        rw [List.getElem?_cons_zero] at h
        refine ⟨i, hi, (Option.some.inj h).symm, fun hend => ?_⟩
        rw [lz77From_of_le tie s fuel (Nat.le_succ_of_le hend)]
        rfl
      | succ k =>
        obtain ⟨j, hj, ht, hlast⟩ := ih h
        exact ⟨j, hj, ht, fun hend => congrArg (· + 1) (hlast hend)⟩
    · rw [lz77From_of_le tie s _ (Nat.not_lt.mp hi)] at h
      cases h

/-- The numbers of a token are those of its match: they fit `u32` in an input that fits `DMEM` (R142). -/
theorem tokenAt_bounds (tie : LzTie) {s : Bytes} {i : Nat} (hs : s.length ≤ 2147483647) (hi : i < s.length) :
    (tokenAt tie s i).offset.toNat ≤ 32768 ∧ (tokenAt tie s i).length.toNat + 1 ≤ s.length ∧
      ((tokenAt tie s i).offset.toNat = 0 ↔ (tokenAt tie s i).length.toNat = 0) ∧
      (tokenAt tie s i).length.toNat = (searchMatch tie s i).1 := by
  simp only [tokenAt, BitVec.toNat_ofNat]
  obtain h | h := searchMatch_cases tie s i
  · have hpos : 1 ≤ s.length := Nat.one_le_of_lt hi
    simpa [h] using hpos
  · have hlen := h.add_length_le
    obtain ⟨hlpos, hopos, hole, howin, -⟩ := h
    omega

/-- Settles O46: every token is that of a position of the input. -/
theorem lzTokenBounds : Obligations.LzTokenBounds := by
  intro tie s hs
  refine ⟨fun t ht => ?_, fun k t hk hnone => ?_, length_lz77From_le tie s _ 0⟩
  · obtain ⟨k, hk⟩ := List.mem_iff_getElem?.mp ht
    obtain ⟨i, hi, rfl, -⟩ := lz77From_getElem? hk
    obtain ⟨hoff, hlen, hzero, -⟩ := tokenAt_bounds tie hs hi
    exact ⟨hoff, hlen, hzero⟩
  · obtain ⟨i, hi, rfl, hlast⟩ := lz77From_getElem? hk
    have hend : s.length ≤ i + (searchMatch tie s i).1 := List.getElem?_eq_none_iff.mp hnone
    obtain ⟨-, -, -, hlen⟩ := tokenAt_bounds tie hs hi
    exact ⟨hlast hend, by omega⟩

end Sys2Proof.Machine
end

section
/-! SUPPORT. The life cycle as every command goes through it (40_control.md R170 to R180): acceptance, what always answers, the
checks before operation in their order, and what a completion depends on. -/

namespace Sys2Proof.Machine

/-! ### Acceptance -/

/-- Settles O6: a write to `CMD` while IDLE is an acceptance, which leaves no flag for `IRQ` to follow. -/
theorem acceptanceLatchesTheCommand : Obligations.AcceptanceLatchesTheCommand := by
  intro s w rest hs hi
  have hirq : irqLevel s.ctrl false false = false := Bool.and_false _
  rw [step_of_idle hs, hostTurn_writeReg_idle (r := .cmd) hs hi]
  simp only [State.writeRegIdle, State.accept, State.latch, hirq]

/-! ### Illegal words and NOP -/

/-- The word of a command is well formed (R120, R121). -/
theorem commandWordWf_encodeWord (i : Instr) : commandWordWf (encodeWord i) = true := by cases i <;> rfl

/-- A word that decodes has `RSVD` 0 and one of the fifteen opcodes (R120 to R122). -/
theorem fields_of_decodeWord {w : Word} {i : Instr} (h : decodeWord w = .ok i) :
    w.toNat / 256 = 0 ∧ w.toNat % 256 ≤ 0x0E := by
  obtain rfl := decodeWord_eq_ok_iff.mp h
  simpa [commandWordWf] using commandWordWf_encodeWord i

/-- A detail that is a word is reported as that word (R36). -/
theorem infoWord_toNat (w : Word) : infoWord w.toNat = w :=
  BitVec.eq_of_toNat_eq (infoWord_of_fits (Nat.le_of_lt_succ w.isLt))

/-- Settles O3: a word with reserved contents does not decode, and the completion of ILLEGAL_CMD is that of a check. -/
theorem reservedWordsEndAsIllegalCommand : Obligations.ReservedWordsEndAsIllegalCommand := by
  intro s c hs hw
  cases hd : decodeWord c.word with
  | ok i =>
    have := fields_of_decodeWord hd
    omega
  | error e =>
    exact ⟨_, step_of_illegal hs hd, failed_errorCompletion s _ c _, infoWord_toNat c.word, rfl, rfl⟩

/-- Settles O30: NOP uses no descriptor, so its operands are legal, and its operation returns no output. -/
theorem nopCompletes : Obligations.NopCompletes := by
  refine ⟨fun w => decodeWord_eq_ok_iff, fun s c hr => ?_⟩
  have hok : OperandsOk s.params.memBytes (usesOf .nop) c.desc :=
    ⟨nofun, nofun, nofun, nofun, nofun, nofun, nofun, nofun, nofun⟩
  obtain ⟨hexec, succeeded⟩ := exec_of_result hr hok (r := {}) rfl nofun nofun (fun _ => rfl) fun _ => rfl
  exact ⟨_, hexec, succeeded, rfl, rfl, rfl, rfl, rfl, rfl⟩

/-! ### What always answers -/

/-- Settles O21: both completions leave the engine IDLE, and each sets one flag. -/
theorem everyCommandCompletes : Obligations.EveryCommandCompletes := by
  intro i s c hr hdone herr
  refine ⟨_, exec_of_runs hr i, ?_⟩
  obtain ⟨e, heq⟩ | ⟨r, -, heq⟩ := s.complete_error_or_success (usesOf i) c (operationOf i) <;> rw [heq]
  · exact ⟨rfl, hdone⟩
  · exact ⟨rfl, by rw [State.successCompletion_err, herr]; rfl⟩

/-- A step whose delay has run out answers, whatever word was accepted (R171, R179). -/
theorem State.stepsOn_of_busy {s : State} {c : Context} (h : s.seq = .busy c 0) : s.stepsOn := by
  cases hw : decodeWord c.word with
  | ok i => exact ⟨_, (step_of_word h hw).trans (exec_of_busy h i)⟩
  | error e => exact ⟨_, step_of_illegal h hw⟩

/-- A turn of the host answers when its next input is no bus transaction. -/
theorem hostTurn_of_no_access {s : State} (hread : ∀ size addr rest, s.inputs ≠ .read size addr :: rest)
    (hwrite : ∀ size addr v rest, s.inputs ≠ .write size addr v :: rest) : ∃ t, s.hostTurn = .next t := by
  cases hi : s.inputs with
  | nil => exact ⟨s, by rw [State.hostTurn, hi]⟩
  | cons x rest =>
    cases x with
    | read size addr => exact absurd hi (hread size addr rest)
    | write size addr v => exact absurd hi (hwrite size addr v rest)
    | waitPoll => exact ⟨_, hostTurn_waitPoll hi⟩
    | waitIrq => exact ⟨_, hostTurn_waitIrq hi⟩
    | reset => exact ⟨State.resetInput { s with inputs := rest }, by rw [State.hostTurn, hi]; rfl⟩

/-- Settles O22: a completion answers, and so does a turn of the host that makes no access. -/
theorem onlyHostAccessesStop : Obligations.OnlyHostAccessesStop := by
  rintro s (⟨c, hs⟩ | ⟨hread, hwrite⟩)
  · exact State.stepsOn_of_busy hs
  · cases hs : s.seq with
    | idle =>
      obtain ⟨t, ht⟩ := hostTurn_of_no_access hread hwrite
      exact ⟨t, (step_of_idle hs).trans ht⟩
    | busy c n =>
      cases n with
      | zero => exact State.stepsOn_of_busy hs
      | succ n =>
        obtain ⟨t, ht⟩ := hostTurn_of_no_access (s := { s with seq := .busy c n }) hread hwrite
        exact ⟨t, (step_of_delay hs).trans ht⟩

/-! ### The checks before operation -/

/-- What a list of checks answers: the error of the first one that fails, none when all pass. -/
inductive FirstFailure : List (Prop × EngineError) → Option EngineError → Prop where
  | none : FirstFailure [] none
  | here {bad : Prop} {e : EngineError} {checks : List (Prop × EngineError)} (fails : bad) :
      FirstFailure ((bad, e) :: checks) (some e)
  | later {bad : Prop} {e : EngineError} {checks : List (Prop × EngineError)} {r : Option EngineError}
      (passes : ¬bad) (rest : FirstFailure checks r) : FirstFailure ((bad, e) :: checks) r

/-- A test that raises an error is a check before the ones after it. -/
theorem FirstFailure.ite {bad : Prop} {e : EngineError} {checks : List (Prop × EngineError)} {r : Option EngineError}
    {test : Bool} (htest : test = true ↔ bad) (h : FirstFailure checks r) :
    FirstFailure ((bad, e) :: checks) (if test then some e else r) := by
  split
  next hbad => exact .here (htest.mp hbad)
  next hgood => exact .later (mt htest.mpr hgood) h

theorem FirstFailure.append {checks checks' : List (Prop × EngineError)} {r r' : Option EngineError}
    (h : FirstFailure checks r) (h' : FirstFailure checks' r') : FirstFailure (checks ++ checks') (r.or r') := by
  induction h with
  | none => exact h'
  | here fails => exact .here fails
  | later passes _ ih => exact .later passes ih

/-- The check that fails with none before it failing gives the answer. -/
theorem FirstFailure.eq_some {checks : List (Prop × EngineError)} {r : Option EngineError} (h : FirstFailure checks r)
    {k : Nat} {bad : Prop} {e : EngineError} (hk : checks[k]? = some (bad, e)) (hbad : bad)
    (hbefore : ∀ j bad' e', j < k → checks[j]? = some (bad', e') → ¬bad') : r = some e := by
  induction h generalizing k with
  | none => simp at hk
  | here fails =>
    cases k with
    | zero =>
      cases hk
      rfl
    | succ k => exact absurd fails (hbefore 0 _ _ (Nat.succ_pos k) rfl)
  | later passes _ ih =>
    cases k with
    | zero =>
      cases hk
      exact absurd hbad passes
    | succ k => exact ih hk fun j bad' e' hj => hbefore (j + 1) bad' e' (Nat.succ_lt_succ hj)

/-- The test of one range (R86, R172). -/
theorem rangeTest_iff (used : Bool) (m : Nat) (addr len : Word) :
    (used && !inRange m addr len) = true ↔ used = true ∧ ¬DescriptorOk m addr len := by
  simp [← inRange_iff]

/-- The test of one pair (R87, R173). -/
theorem overlapTest_iff (used1 used2 : Bool) (addr1 len1 addr2 len2 : Word) :
    (used1 && used2 && overlaps addr1 len1 addr2 len2) = true ↔
      used1 = true ∧ used2 = true ∧ ¬NoCommonByte addr1 len1 addr2 len2 := by
  simp [← overlaps_iff, and_assoc]

/-- The four checks of range stand first (R172). -/
theorem rangeError_firstFailure (m : Nat) (u : Uses) (d : Descriptors) :
    FirstFailure ((operandChecks m u d).take 4) (rangeError m u d) :=
  .ite (rangeTest_iff ..) (.ite (rangeTest_iff ..) (.ite (rangeTest_iff ..) (.ite (rangeTest_iff ..) .none)))

/-- The five checks of overlap stand after them (R173). -/
theorem overlapError_firstFailure (m : Nat) (u : Uses) (d : Descriptors) :
    FirstFailure ((operandChecks m u d).drop 4) (overlapError u d) :=
  .ite (overlapTest_iff ..) (.ite (overlapTest_iff ..) (.ite (overlapTest_iff ..) (.ite (overlapTest_iff ..)
    (.ite (overlapTest_iff ..) .none))))

theorem operandError_eq_or (m : Nat) (u : Uses) (d : Descriptors) :
    operandError m u d = (rangeError m u d).or (overlapError u d) := by
  rw [operandError]
  cases rangeError m u d <;> rfl

/-- The checks before operation raise the error of the first one that fails (R172, R173, R352). -/
theorem operandError_firstFailure (m : Nat) (u : Uses) (d : Descriptors) :
    FirstFailure (operandChecks m u d) (operandError m u d) := by
  rw [operandError_eq_or]
  exact (rangeError_firstFailure m u d).append (overlapError_firstFailure m u d)

/-! ### Errors that end a command -/

/-- A command whose completion is the error completion of `e` ends with `e` (R177). -/
theorem failsWith_of_complete {i : Instr} {s : State} {c : Context} {e : EngineError} (hr : s.runs c)
    (h : s.complete (usesOf i) c (operationOf i) = s.errorCompletion (usesOf i) c e) : FailsWith i s c e :=
  ⟨_, (exec_of_runs hr i).trans (congrArg _ h), failed_errorCompletion s _ c e⟩

/-- Settles O23: the checks before operation are tests one after another, each of what the statement says. -/
theorem operandChecksInOrder : Obligations.OperandChecksInOrder :=
  ⟨fun i => by cases i <;> rfl, operandError_eq_none_iff,
    fun m u d _ _ _ hk hbad hbefore => (operandError_firstFailure m u d).eq_some hk hbad hbefore,
    fun _ _ _ hr _ he => failsWith_of_complete hr (State.complete_of_operandError he)⟩

/-- Settles O24: legal operands raise no error before the operation's own. -/
theorem operationErrorsEndTheCommand : Obligations.OperationErrorsEndTheCommand :=
  fun _ _ _ _ hr hok hop => failsWith_of_complete hr (State.complete_of_error (operandError_of_ok hok) hop)

/-- An output too long for DST0 (R175). -/
theorem capacityError_dst0 {u : Uses} {d : Descriptors} {r : OpResult} (hu : u.dst0 = true)
    (h : d.dst0Cap.toNat < r.out0.length) :
    capacityError u d r = some ⟨.capDst0, min r.out0.length Config.maxU32⟩ := by
  simp [capacityError, hu, h]

/-- An output too long for DST1, when that of DST0 is not (R175). -/
theorem capacityError_dst1 {u : Uses} {d : Descriptors} {r : OpResult}
    (h0 : u.dst0 = true → r.out0.length ≤ d.dst0Cap.toNat) (hu : u.dst1 = true) (h : d.dst1Cap.toNat < r.out1.length) :
    capacityError u d r = some ⟨.capDst1, min r.out1.length Config.maxU32⟩ := by
  simpa [capacityError, hu, h] using h0

/-- Settles O25: with legal operands and a result, the capacity check has the first word. -/
theorem capacityErrorsReportTheLength : Obligations.CapacityErrorsReportTheLength := by
  intro i s c r hr hok hop
  have ends : ∀ e, capacityError (usesOf i) c.desc r = some e → FailsWith i s c e := fun e he =>
    failsWith_of_complete hr (State.complete_of_capacity (operandError_of_ok hok) hop he)
  exact ⟨fun hu h => ends _ (capacityError_dst0 hu h), fun h0 hu h => ends _ (capacityError_dst1 h0 hu h)⟩

/-! ### What a completion depends on -/

/-- What an operation reads is the same in two states that agree on the parameters, `T` and the bytes of the used sources
(R174, R180). -/
theorem State.opInput_congr {s1 s2 : State} {u : Uses} {c : Context} (hparams : s1.params = s2.params)
    (htree : s1.tree = s2.tree) (hsrc : ∀ a, inUsedSrc u c.desc a = true → s1.mem.byte a = s2.mem.byte a) :
    s1.opInput u c = s2.opInput u c := by
  have source : ∀ (used : Bool) (addr len : Word),
      (∀ a, used = true → inDescriptor addr len a = true → s1.mem.byte a = s2.mem.byte a) →
      (if used then s1.mem.readBytes addr.toNat len.toNat else []) =
        if used then s2.mem.readBytes addr.toNat len.toNat else [] := fun used addr len h =>
    if_ctx_congr Iff.rfl
      (fun hu => Memory.readBytes_congr fun a h1 h2 => h a hu ((inDescriptor_iff ..).mpr ⟨h1, h2⟩)) fun _ => rfl
  rw [State.opInput, State.opInput, hparams, htree,
    source u.src0 c.desc.src0Addr c.desc.src0Len fun a hu ha => hsrc a (by simp [inUsedSrc, hu, ha]),
    source u.src1 c.desc.src1Addr c.desc.src1Len fun a hu ha => hsrc a (by simp [inUsedSrc, hu, ha])]

/-- The command completes without error, over the result `r` of its operation (R177). -/
structure CompletesOver (i : Instr) (s : State) (c : Context) (r : OpResult) : Prop where
  eq : s.complete (usesOf i) c (operationOf i) = s.successCompletion (usesOf i) c r
  succeeded : Succeeded c s (s.successCompletion (usesOf i) c r) r.out0 r.out1

/-- A command completes over a result when its operands are legal and the result fits (R172 to R175). -/
theorem completesOver_of_ok {i : Instr} {s : State} {c : Context} {r : OpResult}
    (hop : operandError s.params.memBytes (usesOf i) c.desc = none)
    (hr : operationOf i (s.opInput (usesOf i) c) = .ok r) (hcap : capacityError (usesOf i) c.desc r = none) :
    CompletesOver i s c r where
  eq := State.complete_of_ok hop hr hcap
  succeeded :=
    have hused := operationOf_outputsUsed i _ r hr
    have hok := (operandError_eq_none_iff ..).mp hop
    succeeded_successCompletion s _ c r hused.out0 hused.out1 hcap hok.dst0dst1

/-- Two states in which the operation reads the same complete alike: with the same error, or over the same result (R180). -/
theorem State.complete_alike {s1 s2 : State} {c : Context} {i : Instr}
    (hin : s1.opInput (usesOf i) c = s2.opInput (usesOf i) c) :
    (∃ e, s1.complete (usesOf i) c (operationOf i) = s1.errorCompletion (usesOf i) c e ∧
      s2.complete (usesOf i) c (operationOf i) = s2.errorCompletion (usesOf i) c e) ∨
    ∃ r, operationOf i (s1.opInput (usesOf i) c) = .ok r ∧
      CompletesOver i s1 c r ∧ CompletesOver i s2 c r := by
  have hparams : s1.params = s2.params := congrArg OpInput.params hin
  obtain ⟨e, he, heq⟩ | ⟨hop, ⟨e, he, heq⟩ | ⟨r, hr, ⟨e, he, heq⟩ | ⟨hcap, -⟩⟩⟩ :=
    s1.complete_cases (usesOf i) c (operationOf i)
  · exact .inl ⟨e, heq, State.complete_of_operandError (hparams ▸ he)⟩
  · exact .inl ⟨e, heq, State.complete_of_error (hparams ▸ hop) (hin ▸ he)⟩
  · exact .inl ⟨e, heq, State.complete_of_capacity (hparams ▸ hop) (hin ▸ hr) he⟩
  · exact .inr ⟨r, hr, completesOver_of_ok hop hr hcap, completesOver_of_ok (hparams ▸ hop) (hin ▸ hr) hcap⟩

/-- Reads that agree agree byte by byte. -/
theorem Memory.byte_eq_of_readBytes_eq {m m' : Memory} {a n x : Nat} (h : m.readBytes a n = m'.readBytes a n)
    (hx : a ≤ x ∧ x < a + n) : m.byte x = m'.byte x :=
  List.map_inj_left.mp h x (List.mem_range'_1.mpr hx)

/-- A command that writes `BITCNT` always returns a count (R39, R174). -/
theorem operationOf_returnsBitcnt {i : Instr} (hi : writesBitcnt i) (x : OpInput) :
    ReturnsOnly (fun r => ∃ b, r.bitcnt = some b) (operationOf i x) := by
  obtain rfl | rfl := hi
  · exact .andThen fun _ => .ok ⟨_, rfl⟩
  · exact .andThen fun _ => .andThen fun _ => .andThen fun _ => .andThen fun _ => .andThen fun _ => .ok ⟨_, rfl⟩

/-- Settles O29: the operation reads the same in both states, so they end with the same error or over the same result. -/
theorem completionDependsOnlyOnOperands : Obligations.CompletionDependsOnlyOnOperands := by
  intro i s1 s2 c hr1 hr2 hparams htree hsrc hdone1 hdone2 herr1 herr2 hcode
  refine ⟨_, _, exec_of_runs hr1 i, exec_of_runs hr2 i, ?_⟩
  obtain ⟨e, heq1, heq2⟩ | ⟨r, hr, over1, over2⟩ := State.complete_alike (State.opInput_congr hparams htree hsrc)
  · have hnot : (s1.errorCompletion (usesOf i) c e).done ≠ true := by simp [hdone1]
    rw [heq1, heq2]
    exact ⟨hdone1.trans hdone2.symm, rfl, rfl, rfl, rfl, rfl, htree, fun _ hd => absurd hd hnot,
      fun hd => absurd hd hnot⟩
  · have ok1 := over1.succeeded
    have ok2 := over2.succeeded
    rw [over1.eq, over2.eq]
    refine ⟨rfl, herr1.trans herr2.symm, hcode, rfl, rfl, rfl, by simp [htree], fun hi _ => ?_, fun _ a ha => ?_⟩
    · obtain ⟨b, hb⟩ := operationOf_returnsBitcnt hi _ r hr
      simp [hb]
    · rw [ok1.dst0Len, ok1.dst1Len] at ha
      obtain ha | ha := ha
      · exact Memory.byte_eq_of_readBytes_eq (ok1.dst0.trans ok2.dst0.symm) ha
      · exact Memory.byte_eq_of_readBytes_eq (ok1.dst1.trans ok2.dst1.symm) ha

end Sys2Proof.Machine
end

section
/-! SUPPORT. What the search of `lz77` keeps at a position and which token follows which (41_lz77.md R200 to R202, R207), and that
replaying the tokens gives the input back (R203, R206). -/

namespace Sys2Proof.Machine

/-! ### Match lengths -/

/-- Two byte strings agree within their common start. -/
theorem getElem?_eq_of_lt_commonStart {as bs : Bytes} {k : Nat} (h : k < commonStart as bs) : as[k]? = bs[k]? := by
  induction as, bs using commonStart.induct generalizing k with
  | case1 as b bs ih =>
    rw [commonStart, if_pos rfl] at h
    cases k with
    | zero => rfl
    | succ k => exact ih (Nat.lt_of_succ_lt_succ h)
  | case2 a as b bs hne => simp [commonStart, hne] at h
  | case3 as bs hnil => simp [commonStart] at h

/-- The common start of two byte strings ends where the second one does, or where they differ. -/
theorem commonStart_ends (as bs : Bytes) :
    commonStart as bs = bs.length ∨ as[commonStart as bs]? ≠ bs[commonStart as bs]? := by
  induction as, bs using commonStart.induct with
  | case1 as b bs ih => simpa [commonStart] using ih
  | case2 a as b bs hne => simp [commonStart, hne]
  | case3 as bs hnil =>
    cases bs with
    | nil => simp [commonStart]
    | cons b bs =>
      cases as with
      | nil => simp [commonStart]
      | cons a as => exact absurd rfl (hnil a as b bs rfl)

/-- A match is made of bytes that agree (R200). -/
theorem getElem?_eq_of_lt_matchLen {s : Bytes} {i j k : Nat} (h : k < matchLen s i j) : s[j + k]? = s[i + k]? := by
  simpa using getElem?_eq_of_lt_commonStart h

/-- A match ends at the end of the input or at two bytes that differ (R200). -/
theorem matchLen_ends {s : Bytes} {i : Nat} (j : Nat) (hi : i ≤ s.length) :
    i + matchLen s i j = s.length ∨ s[j + matchLen s i j]? ≠ s[i + matchLen s i j]? := by
  have h := commonStart_ends (s.drop j) (s.drop i)
  rw [List.length_drop, List.getElem?_drop, List.getElem?_drop] at h
  exact h.imp_left fun hend => by
    rw [matchLen, hend]
    omega

/-! ### The order of the search -/

/-- Of two matches of one length, `LZ_TIE` keeps the one of offset `off` and not that of `off'` (R202). -/
def TieKeeps : LzTie → Nat → Nat → Prop
  | .firstScanned, off, off' => off' ≤ off
  | .nearest, off, off' => off ≤ off'

/-- The search at position `i` has scanned the positions from `start` up to `stop` and keeps the match `m` (R201, R202). -/
structure Scanned (tie : LzTie) (s : Bytes) (i start stop : Nat) (m : Nat × Nat) : Prop where
  longest : ∀ j, start ≤ j → j < stop → matchLen s i j ≤ m.1
  kept : 0 < m.1 → ∀ j, start ≤ j → j < stop → matchLen s i j = m.1 → TieKeeps tie m.2 (i - j)
  /-- The scan goes towards smaller offsets. -/
  ahead : 0 < m.1 → ∀ j, stop ≤ j → i - j ≤ m.2

/-- One turn of the search (R201). -/
def scanStep (tie : LzTie) (s : Bytes) (i : Nat) (best : Nat × Nat) (j : Nat) : Nat × Nat :=
  if better tie (matchLen s i j) (i - j) best.1 best.2 then (matchLen s i j, i - j) else best

theorem searchMatch_eq_foldl (tie : LzTie) (s : Bytes) (i : Nat) :
    searchMatch tie s i =
      (List.range' (i - Config.window) (i - (i - Config.window))).foldl (scanStep tie s i) (0, 0) := rfl

/-- A match that is better is longer, or as long and the one `LZ_TIE` keeps (R202). -/
theorem longer_or_kept_of_better {tie : LzTie} {k off bestLen bestOff : Nat} (h : better tie k off bestLen bestOff = true) :
    bestLen < k ∨ k = bestLen ∧ TieKeeps tie off bestOff ∧ tie = .nearest := by
  cases tie <;> simp [better, TieKeeps] at h ⊢ <;> omega

/-- A match that is not better is no longer, and no shorter only if `LZ_TIE` keeps the other one (R202). -/
theorem le_and_kept_of_not_better {tie : LzTie} {k off bestLen bestOff : Nat}
    (h : ¬better tie k off bestLen bestOff = true) (hahead : 0 < bestLen → off ≤ bestOff) :
    k ≤ bestLen ∧ (0 < bestLen → k = bestLen → TieKeeps tie bestOff off) := by
  cases tie <;> simp [better, TieKeeps] at h ⊢ <;> omega

/-- One more position scanned (R201). -/
theorem Scanned.step {tie : LzTie} {s : Bytes} {i start stop : Nat} {m : Nat × Nat} (h : Scanned tie s i start stop m) :
    Scanned tie s i start (stop + 1) (scanStep tie s i m stop) := by
  have hlast : ∀ {j}, j < stop + 1 → j < stop ∨ j = stop := fun hj => Nat.lt_succ_iff_lt_or_eq.mp hj
  rw [scanStep]
  split
  next hbetter =>
    refine ⟨fun j hstart hstop => ?_, fun hpos j hstart hstop heq => ?_, fun _ j hj => by dsimp only; omega⟩
    · obtain hj | rfl := hlast hstop
      · have := h.longest j hstart hj
        obtain _ | _ := longer_or_kept_of_better hbetter <;> dsimp only <;> omega
      · exact le_rfl
    · obtain hj | rfl := hlast hstop
      · have hle := h.longest j hstart hj
        obtain hlonger | ⟨hsame, hkeeps, rfl⟩ := longer_or_kept_of_better hbetter
        · dsimp only at heq
          omega
        · have hold := h.kept (hsame ▸ hpos) j hstart hj (heq.trans hsame)
          exact Nat.le_trans hkeeps hold
      · cases tie <;> exact le_rfl
  next hworse =>
    obtain ⟨hle, hkeeps⟩ := le_and_kept_of_not_better hworse fun hpos => h.ahead hpos stop le_rfl
    refine ⟨fun j hstart hstop => ?_, fun hpos j hstart hstop heq => ?_, fun hpos j hj => h.ahead hpos j (by omega)⟩
    · obtain hj | rfl := hlast hstop
      · exact h.longest j hstart hj
      · exact hle
    · obtain hj | rfl := hlast hstop
      · exact h.kept hpos j hstart hj heq
      · exact hkeeps hpos heq

theorem scanned_foldl (tie : LzTie) (s : Bytes) (i start n : Nat) :
    Scanned tie s i start (start + n) ((List.range' start n).foldl (scanStep tie s i) (0, 0)) := by
  induction n with
  | zero => exact ⟨fun j _ _ => by omega, nofun, nofun⟩
  | succ n ih =>
    rw [List.range'_1_concat, List.foldl_append]
    exact ih.step

/-- The search scans the window (R201). -/
theorem scanned_searchMatch (tie : LzTie) (s : Bytes) (i : Nat) :
    Scanned tie s i (i - 32768) i (searchMatch tie s i) := by
  have h := scanned_foldl tie s i (i - 32768) (i - (i - 32768))
  rwa [Nat.add_sub_cancel' (Nat.sub_le ..)] at h

/-! ### The sequence of the tokens -/

/-- The tokens from position `i` on: none at the end of the input, else that of `i` and those from the end of its match on. Every
token advances the position, so fuel for the rest of the input is enough (R201). -/
theorem lz77From_induction {tie : LzTie} {s : Bytes} {motive : Nat → List Token → Prop}
    (done : ∀ i, s.length ≤ i → motive i [])
    (token : ∀ i ts, i < s.length → motive (i + (searchMatch tie s i).1 + 1) ts → motive i (tokenAt tie s i :: ts))
    (fuel i : Nat) (hfuel : s.length ≤ i + fuel) : motive i (lz77From tie s fuel i) := by
  induction fuel generalizing i with
  | zero => exact done i hfuel
  | succ fuel ih =>
    by_cases hi : i < s.length
    · rw [lz77From_of_lt tie s fuel hi]
      exact token i _ hi (ih _ (by omega))
    · rw [lz77From_of_le tie s _ (Nat.not_lt.mp hi)]
      exact done i (Nat.not_lt.mp hi)

/-- From position `i` on, every token of `ts` is that of the position where the tokens before it end (R201). -/
def TokensFrom (tie : LzTie) (s : Bytes) (i : Nat) (ts : List Token) : Prop :=
  ∀ k p, p = i + ((ts.take k).map fun t => t.length.toNat + 1).sum →
    ts[k]? = if p < s.length then some (tokenAt tie s p) else none

theorem tokensFrom_nil (tie : LzTie) {s : Bytes} {i : Nat} (hi : s.length ≤ i) : TokensFrom tie s i [] := by
  intro k p hp
  simp [hp, hi]

theorem TokensFrom.cons {tie : LzTie} {s : Bytes} {i : Nat} {ts : List Token} (hs : s.length ≤ 2147483647)
    (hi : i < s.length) (h : TokensFrom tie s (i + (searchMatch tie s i).1 + 1) ts) :
    TokensFrom tie s i (tokenAt tie s i :: ts) := by
  obtain ⟨-, -, -, hlen⟩ := tokenAt_bounds tie hs hi
  intro k p hp
  cases k with
  | zero => simp [hp, hi]
  | succ k => exact h k p (by rw [hp, List.take_succ_cons, List.map_cons, List.sum_cons, hlen]; omega)

theorem tokensFrom_lz77 (tie : LzTie) {s : Bytes} (hs : s.length ≤ 2147483647) : TokensFrom tie s 0 (lz77 tie s) :=
  lz77From_induction (fun _ => tokensFrom_nil tie) (fun _ _ => TokensFrom.cons hs) _ _ (Nat.zero_add _).ge

/-- Settles O45: a match ends where the bytes differ, the scan keeps the best match so far, and the tokens are those of the
positions where the tokens before them end. -/
theorem searchKeepsALongestMatch : Obligations.SearchKeepsALongestMatch := by
  refine ⟨fun s i j _ hi => ⟨?_, fun k => getElem?_eq_of_lt_matchLen, matchLen_ends j hi.le⟩, fun tie s k i hs hsum => ?_,
    fun tie s i _ => ?_⟩
  · have := matchLen_le s i j
    omega
  · exact tokensFrom_lz77 tie hs k i (hsum.trans (Nat.zero_add _).symm)
  · have hscan := scanned_searchMatch tie s i
    obtain hnone | hmatch := searchMatch_cases tie s i
    · have hzero : ¬0 < (searchMatch tie s i).1 := by simp [hnone]
      exact ⟨hscan.longest, fun _ => by rw [hnone], fun hpos => absurd hpos hzero⟩
    · obtain ⟨hlen, hoff, hle, hwindow, heq⟩ := hmatch
      refine ⟨hscan.longest, fun hzero => absurd hzero hlen.ne', fun hpos =>
        ⟨hoff, le_min hle hwindow, heq.symm, fun j hstart hstop hj => ?_⟩⟩
      have hkept := hscan.kept hpos j hstart hstop hj
      cases tie <;> exact hkept

/-! ### Literals -/

/-- The search finds no match for a byte that no byte of the window equals (R207). -/
theorem searchMatch_of_unrepeated (tie : LzTie) {s : Bytes} {i : Nat}
    (h : ∀ j, j < i → i - 32768 ≤ j → s[j]? ≠ s[i]?) : searchMatch tie s i = (0, 0) := by
  obtain hnone | hmatch := searchMatch_cases tie s i
  · exact hnone
  · obtain ⟨hlen, hoff, hle, hwindow, heq⟩ := hmatch
    exact absurd (getElem?_eq_of_lt_matchLen (heq ▸ hlen)) (h _ (by omega) (by omega))

theorem tokenAt_of_no_match {tie : LzTie} {s : Bytes} {i : Nat} (hi : i < s.length) (h : searchMatch tie s i = (0, 0)) :
    tokenAt tie s i = ⟨0, 0, some s[i]⟩ := by
  rw [tokenAt, h, Nat.add_zero, List.getElem?_eq_getElem hi]
  rfl

/-- Settles O48: the search finds no match at any position, so every token is a literal. -/
theorem unrepeatedInputGivesLiterals : Obligations.UnrepeatedInputGivesLiterals := by
  intro tie s h
  refine lz77From_induction (motive := fun i ts => ts = (s.drop i).map fun b => ⟨0, 0, some b⟩) (fun i hi => ?_)
    (fun i ts hi ih => ?_) _ 0 (Nat.zero_add _).ge
  · rw [List.drop_of_length_le hi, List.map_nil]
  · have hnone : searchMatch tie s i = (0, 0) := searchMatch_of_unrepeated tie fun j hj hwindow => by
      rw [List.getElem?_eq_getElem hi]
      exact h i j hj hwindow hi
    rw [tokenAt_of_no_match hi hnone, ih, hnone, List.drop_eq_getElem_cons hi, List.map_cons]
    rfl

/-! ### Replaying -/

/-- The reference of a token lies outside the output so far (R203). -/
def BadReference (out : Bytes) (t : Token) : Prop :=
  0 < t.length.toNat ∧ (t.offset.toNat = 0 ∨ out.length < t.offset.toNat)

/-- The output after a token (R203). -/
def replayToken (out : Bytes) (t : Token) : Bytes :=
  copyRun t.length.toNat (out.length - t.offset.toNat) out ++ t.next.toList

theorem replayFrom_of_bad {out : Bytes} {t : Token} (q : Nat) (ts : List Token) (h : BadReference out t) :
    replayFrom q out (t :: ts) = .error ⟨.badToken, q⟩ := if_pos h

theorem replayFrom_of_good {out : Bytes} {t : Token} (q : Nat) (ts : List Token) (h : ¬BadReference out t) :
    replayFrom q out (t :: ts) = replayFrom (q + 1) (replayToken out t) ts := if_neg h

/-- A copy that repeats what stands in `s` continues a start of `s` (R203). -/
theorem copyRun_take {s : Bytes} {l i j : Nat} (hj : j < i) (hi : i + l ≤ s.length)
    (h : ∀ k < l, s[j + k]? = s[i + k]?) : copyRun l j (s.take i) = s.take (i + l) := by
  induction l generalizing i j with
  | zero => rfl
  | succ l ih =>
    have hbyte : [(s.take i).getD j 0] = s[i]?.toList := by
      have hcopy : (s.take i)[j]? = s[i]? := by simpa [hj] using h 0 (Nat.succ_pos l)
      rw [List.getD_eq_getElem?_getD, hcopy, List.getElem?_eq_getElem (by omega)]
      rfl
    rw [copyRun, hbyte, ← List.take_add_one, ih (by omega) (by omega), Nat.add_assoc, Nat.add_comm 1 l]
    intro k hk
    have := h (k + 1) (Nat.succ_lt_succ hk)
    rwa [← Nat.add_assoc, ← Nat.add_assoc, Nat.add_right_comm, Nat.add_right_comm i] at this

/-- The token of a position adds to the input before it the match and the byte after it (R201, R203). -/
theorem replayToken_tokenAt (tie : LzTie) {s : Bytes} {i : Nat} (hs : s.length ≤ 2147483647) (hi : i < s.length) :
    ¬BadReference (s.take i) (tokenAt tie s i) ∧
      replayToken (s.take i) (tokenAt tie s i) = s.take (i + (searchMatch tie s i).1 + 1) := by
  obtain ⟨-, -, -, hlen⟩ := tokenAt_bounds tie hs hi
  have htake : (s.take i).length = i := by simpa using hi.le
  rw [BadReference, replayToken, hlen, htake, List.take_add_one]
  obtain hnone | hmatch := searchMatch_cases tie s i
  · simp [hnone, copyRun, tokenAt]
  · have hend := hmatch.add_length_le
    obtain ⟨hpos, hoff, hle, hwindow, heq⟩ := hmatch
    have hoffset : (tokenAt tie s i).offset.toNat = (searchMatch tie s i).2 := by
      rw [tokenAt, BitVec.toNat_ofNat, Nat.mod_eq_of_lt (by omega)]
    rw [hoffset, copyRun_take (by omega) hend fun k hk => getElem?_eq_of_lt_matchLen (heq ▸ hk)]
    exact ⟨by omega, rfl⟩

/-- Settles O47: after each token the output is the input up to the position of the next one. -/
theorem lzRoundTrip : Obligations.LzRoundTrip := by
  intro tie s hs
  refine lz77From_induction (motive := fun i ts => ∀ q, replayFrom q (s.take i) ts = .ok s) (fun i hi q => ?_)
    (fun i ts hi ih q => ?_) _ 0 (Nat.zero_add _).ge 0
  · rw [List.take_of_length_le hi, replayFrom]
  · obtain ⟨hgood, htoken⟩ := replayToken_tokenAt tie hs hi
    rw [replayFrom_of_good q ts hgood, htoken]
    exact ih (q + 1)

end Sys2Proof.Machine
end

section
/-! SUPPORT. The commands of the LZ77 family (41_lz77.md R201 to R205): how a command with one output ends, and what a token
adds to the output of a replay. -/

namespace Sys2Proof.Machine

/-! ### Commands with one output -/

theorem checksOperands (i : Instr) {s : State} {c : Context} (hr : s.runs c) : ChecksOperands i s c :=
  fun _ he => failsWith_of_complete hr (State.complete_of_operandError he)

/-- A command of the LZ77 family, whose operation returns `out`, writes it at DST0, or ends with CAP_DST0 when it does not fit
(R174, R175, R177). -/
theorem writes_or_capDst0 {i : Instr} {s : State} {c : Context} {out : Bytes} (hr : s.runs c)
    (hu : usesOf i = ⟨true, false, true, false⟩) (hok : OperandsOk s.params.memBytes (usesOf i) c.desc)
    (hop : operationOf i (s.opInput (usesOf i) c) = .ok { out0 := out }) :
    (out.length ≤ c.desc.dst0Cap.toNat →
      ∃ t, exec i s = .next t ∧ Succeeded c s t out [] ∧ KeepsTreeAndCount s t) ∧
    (c.desc.dst0Cap.toNat < out.length → FailsWith i s c ⟨.capDst0, min out.length 4294967295⟩) := by
  refine ⟨fun hfits => ?_, (capacityErrorsReportTheLength i s c _ hr hok hop).1 (by rw [hu])⟩
  obtain ⟨hexec, succeeded⟩ := exec_of_result hr hok hop (fun _ => hfits) (by simp [hu]) (by simp [hu]) fun _ => rfl
  exact ⟨_, hexec, succeeded, rfl, rfl, rfl⟩

/-- The same for a command that writes token records, of ten bytes each (R140). -/
theorem writesRecords_or_capDst0 {i : Instr} {s : State} {c : Context} {ts : List Token} (hr : s.runs c)
    (hu : usesOf i = ⟨true, false, true, false⟩) (hok : OperandsOk s.params.memBytes (usesOf i) c.desc)
    (hop : operationOf i (s.opInput (usesOf i) c) = .ok { out0 := recs ts }) :
    (10 * ts.length ≤ c.desc.dst0Cap.toNat →
      ∃ t, exec i s = .next t ∧ Succeeded c s t (recs ts) [] ∧ t.dst0Len.toNat = 10 * ts.length ∧
        KeepsTreeAndCount s t) ∧
    (c.desc.dst0Cap.toNat < 10 * ts.length → FailsWith i s c ⟨.capDst0, min (10 * ts.length) 4294967295⟩) := by
  obtain ⟨writes, fails⟩ := writes_or_capDst0 hr hu hok hop
  rw [length_recs] at writes fails
  refine ⟨fun hfits => ?_, fails⟩
  obtain ⟨t, hexec, succeeded, keeps⟩ := writes hfits
  exact ⟨t, hexec, succeeded, succeeded.dst0Len.trans (length_recs ts), keeps⟩

/-- Settles O32: the operation returns the records, whatever the source. -/
theorem lzCompressWritesRecords : Obligations.LzCompressWritesRecords := fun _ _ hr =>
  ⟨checksOperands _ hr, fun hok => writesRecords_or_capDst0 hr rfl hok rfl⟩

/-! ### Token strings -/

/-- An error of the record parser is FORMAT at the first fault (R141). -/
theorem parseRecs_error {s : Bytes} {e : EngineError} (h : parseRecs s = .error e) :
    e.code = .format ∧ RecordFaultAt s e.info := by
  obtain ⟨-, -, -, -, herror⟩ := recordStreamsRoundTrip
  exact herror s e h

/-- An error of the text parser is FORMAT at the first fault (R147). -/
theorem parseText_error {s : Bytes} {e : EngineError} (h : parseText s = .error e) :
    e.code = .format ∧ TextFaultAt s e.info := by
  obtain ⟨-, -, -, -, -, herror⟩ := textRoundTrip
  exact herror s e h

/-- Settles O34: records that are read are the source's bytes again, so BINARY copies it. -/
theorem tokSerializeWritesTheTokenString : Obligations.TokSerializeWritesTheTokenString := by
  refine fun s c hr => ⟨checksOperands _ hr, fun hok => ⟨fun e he => ?_, fun ts out hts htext hbinary => ?_⟩⟩
  · obtain ⟨hcode, hfault⟩ := parseRecs_error he
    exact ⟨hcode, hfault, operationErrorsEndTheCommand .tokSerialize s c e hr hok (opTokSerialize_format he)⟩
  · have hout : tokenString (tokfmtOf c.ctrl) ts = out := by
      rw [tokenString, tokfmtOf]
      cases hfmt : c.ctrl.getLsbD 0 with
      | false => exact (htext hfmt).symm
      | true => exact (recs_of_parseRecsFrom hts).trans (hbinary hfmt).symm
    exact writes_or_capDst0 hr rfl hok (hout ▸ opTokSerialize_ok hts)

/-- Settles O35: `CTRL.TOKFMT` chooses the parser, and each parser's errors are its first faults. -/
theorem tokParseWritesRecords : Obligations.TokParseWritesRecords := by
  intro s c parsed hr htext hbinary
  have hparsed : parseTokenString (tokfmtOf c.ctrl) (s.source0 c) = parsed := by
    rw [parseTokenString, tokfmtOf]
    cases hfmt : c.ctrl.getLsbD 0 with
    | false => exact (htext hfmt).symm
    | true => exact (hbinary hfmt).symm
  refine ⟨checksOperands _ hr, fun hok => ⟨fun e he => ?_, fun ts hts => ?_⟩⟩
  · refine ⟨parseTokenString_raisesOnly _ _ e (hparsed.trans he), fun hfmt => ?_, fun hfmt => ?_,
      operationErrorsEndTheCommand .tokParse s c e hr hok (opTokParse_format (hparsed.trans he))⟩
    · exact (parseText_error ((htext hfmt).symm.trans he)).2
    · exact (parseRecs_error ((hbinary hfmt).symm.trans he)).2
  · exact writesRecords_or_capDst0 hr rfl hok (opTokParse_ok (hparsed.trans hts))

/-! ### Replaying a token -/

/-- A copy appends its bytes, each the one that stands at the copied index by then (R203). -/
theorem copyRun_eq_append {l st : Nat} {out : Bytes} (h : 0 < l → st < out.length) :
    ∃ run, copyRun l st out = out ++ run ∧ run.length = l ∧
      ∀ k < l, (out ++ run)[out.length + k]? = (out ++ run)[st + k]? := by
  induction l generalizing st out with
  | zero => exact ⟨[], (List.append_nil out).symm, rfl, nofun⟩
  | succ l ih =>
    have hst := h (Nat.succ_pos l)
    obtain ⟨run, heq, hlen, hcopy⟩ := ih (st := st + 1) (out := out ++ [out.getD st 0])
      fun _ => by rw [List.length_append]; exact Nat.succ_lt_succ hst
    rw [List.append_assoc, List.singleton_append] at heq hcopy
    refine ⟨_, heq, congrArg (· + 1) hlen, fun k hk => ?_⟩
    cases k with
    | zero => simp [List.getElem?_append_left hst, List.getElem?_eq_getElem hst]
    | succ k => simpa [Nat.add_assoc, Nat.add_comm 1] using hcopy k (Nat.lt_of_succ_lt_succ hk)

/-- What a good token adds to the output (R203): its copied bytes, each the one `offset` before it, and its next byte. -/
theorem replayToken_eq_append {out : Bytes} {t : Token} (h : ¬BadReference out t) :
    ∃ run, replayToken out t = out ++ run ++ t.next.toList ∧ run.length = t.length.toNat ∧
      ∀ k < t.length.toNat, (out ++ run)[out.length + k]? = (out ++ run)[out.length - t.offset.toNat + k]? := by
  rw [BadReference] at h
  obtain ⟨run, heq, hlen, hcopy⟩ :=
    copyRun_eq_append (l := t.length.toNat) (st := out.length - t.offset.toNat) (out := out) (by omega)
  exact ⟨run, by rw [replayToken, heq], hlen, hcopy⟩

/-- Tokens replay one part after the other, over the output of the first. -/
theorem replayFrom_append (q : Nat) (out : Bytes) (ts us : List Token) :
    replayFrom q out (ts ++ us) = replayFrom q out ts >>= fun out' => replayFrom (q + ts.length) out' us := by
  induction ts generalizing q out with
  | nil => rfl
  | cons t ts ih =>
    rw [List.cons_append]
    by_cases hbad : BadReference out t
    · rw [replayFrom_of_bad q _ hbad, replayFrom_of_bad q _ hbad]
      rfl
    · rw [replayFrom_of_good q _ hbad, replayFrom_of_good q _ hbad, ih, List.length_cons, Nat.add_assoc,
        Nat.add_comm 1]

/-- After the output of the tokens before it, the rest replays as it stands. -/
theorem replay_append_of_ok {ts : List Token} {out : Bytes} (us : List Token) (h : replay ts = .ok out) :
    replay (ts ++ us) = replayFrom ts.length out us := by
  rw [replay] at h
  rw [replay, replayFrom_append, h, Nat.zero_add]
  rfl

/-- One token more in a replay that answers is good, and answers what it adds (R203). -/
theorem replay_snoc_ok {ts : List Token} {t : Token} {out out' : Bytes} (h : replay ts = .ok out)
    (h' : replay (ts ++ [t]) = .ok out') : ¬BadReference out t ∧ out' = replayToken out t := by
  rw [replay_append_of_ok [t] h] at h'
  by_cases hbad : BadReference out t
  · rw [replayFrom_of_bad _ _ hbad] at h'
    cases h'
  · rw [replayFrom_of_good _ _ hbad] at h'
    cases h'
    exact ⟨hbad, rfl⟩

theorem firstBadToken_iff (ts : List Token) (q : Nat) :
    FirstBadToken ts q ↔ ∃ t out, ts[q]? = some t ∧ replay (ts.take q) = .ok out ∧ BadReference out t := Iff.rfl

/-- A bad token after good ones is BAD_TOKEN with its ordinal (R203). -/
theorem replay_of_firstBadToken {ts : List Token} {q : Nat} (h : FirstBadToken ts q) :
    replay ts = .error ⟨.badToken, q⟩ := by
  obtain ⟨t, out, hq, hgood, hbad⟩ := (firstBadToken_iff ts q).mp h
  obtain ⟨hlt, rfl⟩ := List.getElem?_eq_some_iff.mp hq
  rw [← List.take_append_drop q ts, replay_append_of_ok _ hgood, List.drop_eq_getElem_cons hlt,
    replayFrom_of_bad _ _ hbad, List.length_take_of_le hlt.le]

/-- The error of a replay from token `q` on is that of a bad token after good ones (R203). -/
theorem replayFrom_error {q : Nat} {out : Bytes} {ts : List Token} {e : EngineError} (h : replayFrom q out ts = .error e) :
    ∃ k t out', e = ⟨.badToken, q + k⟩ ∧ ts[k]? = some t ∧ replayFrom q out (ts.take k) = .ok out' ∧
      BadReference out' t := by
  induction ts generalizing q out with
  | nil => cases h
  | cons t ts ih =>
    by_cases hbad : BadReference out t
    · rw [replayFrom_of_bad q ts hbad] at h
      cases h
      exact ⟨0, t, out, rfl, rfl, rfl, hbad⟩
    · rw [replayFrom_of_good q ts hbad] at h
      obtain ⟨k, t', out', rfl, hk, hgood, hbad'⟩ := ih h
      refine ⟨k + 1, t', out', by rw [Nat.add_assoc, Nat.add_comm 1], hk, ?_, hbad'⟩
      rwa [List.take_succ_cons, replayFrom_of_good q _ hbad]

/-- The error of a replay is BAD_TOKEN with the ordinal of the first bad token (R203). -/
theorem replay_error {ts : List Token} {e : EngineError} (h : replay ts = .error e) :
    e.code = .badToken ∧ FirstBadToken ts e.info := by
  obtain ⟨k, t, out, rfl, hk, hgood, hbad⟩ := replayFrom_error h
  rw [Nat.zero_add]
  exact ⟨rfl, t, out, hk, hgood, hbad⟩

/-- Settles O33: the parse comes first, and a replay that does not end at a bad token appends what each token adds. -/
theorem lzDecompressReplaysTokens : Obligations.LzDecompressReplaysTokens := by
  refine ⟨rfl, fun ts t out out' hout hout' => ?_, fun s c hr => ⟨checksOperands _ hr, fun hok =>
    ⟨fun e he => ?_, fun ts hts => ⟨fun e he => ?_, fun out hout => ?_⟩⟩⟩⟩
  · obtain ⟨hgood, rfl⟩ := replay_snoc_ok hout hout'
    obtain ⟨run, heq, hlen, hcopy⟩ := replayToken_eq_append hgood
    rw [heq, ← hlen]
    refine ⟨by simp [Nat.add_assoc], by simp, fun k hk => ?_, ?_⟩
    · have hin : ∀ n ≤ out.length, (out ++ run ++ t.next.toList)[n + k]? = (out ++ run)[n + k]? := fun n hn =>
        List.getElem?_append_left (by rw [List.length_append]; omega)
      rw [hin _ le_rfl, hin _ (Nat.sub_le ..)]
      exact hcopy k (hlen ▸ hk)
    · rw [← List.length_append, List.drop_left]
  · obtain ⟨hcode, hfault⟩ := parseRecs_error he
    exact ⟨hcode, hfault, operationErrorsEndTheCommand .lzDecompress s c e hr hok (opLzDecompress_format he)⟩
  · obtain ⟨hcode, hfirst⟩ := replay_error he
    refine ⟨hcode, hfirst, operationErrorsEndTheCommand .lzDecompress s c e hr hok ?_⟩
    exact (opLzDecompress_replay hts).trans (congrArg _ he)
  · refine ⟨fun q hq => ?_, writes_or_capDst0 hr rfl hok ((opLzDecompress_replay hts).trans (congrArg _ hout))⟩
    rw [replay_of_firstBadToken hq] at hout
    cases hout

end Sys2Proof.Machine
end

section
/-! SUPPORT. The codes of a tree (42_huffman.md R252): they are the paths to its leaves, so that none starts another. -/

namespace Sys2Proof.Machine

/-! ### Paths -/

section Paths

variable {v u : Byte} {n : Node} {p rest : List Bit}

theorem Node.PathTo.child {b : Bit} (h : Node.PathTo v n (b :: p)) : Node.PathTo v (n.child b) p := by
  cases h <;> assumption

theorem Node.pathTo_leaf_iff {f : Word} : Node.PathTo v (.leaf u f) p ↔ u = v ∧ p = [] := by
  constructor
  · rintro ⟨⟩
    exact ⟨rfl, rfl⟩
  · rintro ⟨rfl, rfl⟩
    exact .here f

/-- A path leads below the root exactly when the root is internal. -/
theorem Node.PathTo.ne_nil {f : Word} {l r : Node} (h : Node.PathTo v (.internal f l r) p) : p ≠ [] := by
  rintro rfl
  cases h

theorem Node.PathTo.mem_leafValues (h : Node.PathTo v n p) : v ∈ n.leafValues := by
  induction h with
  | here f => exact List.mem_singleton_self v
  | left f l r p _ ih => exact List.mem_append_left _ ih
  | right f l r p _ ih => exact List.mem_append_right _ ih

/-- Each internal node on a path has a leaf beside it (R252). -/
theorem Node.PathTo.length_lt (h : Node.PathTo v n p) : p.length < n.leafValues.length := by
  have pos : ∀ m : Node, 0 < m.leafValues.length := fun m => by
    have := m.count_add_one
    omega
  induction h with
  | here f => exact Nat.one_pos
  | left f l r p _ ih =>
    have := pos r
    simp only [List.length_cons, Node.leafValues, List.length_append]
    omega
  | right f l r p _ ih =>
    have := pos l
    simp only [List.length_cons, Node.leafValues, List.length_append]
    omega

/-- Two paths of which one starts the other are one path, to one leaf (R262). -/
theorem Node.PathTo.eq_of_append (hu : Node.PathTo u n p) (hv : Node.PathTo v n (p ++ rest)) : u = v ∧ rest = [] := by
  induction p generalizing n with
  | nil =>
    cases hu
    exact pathTo_leaf_iff.mp hv
  | cons b p ih => exact ih hu.child hv.child

theorem Node.pathTo_of_path (h : n.path v = some p) : Node.PathTo v n p := by
  induction n generalizing p with
  | leaf u f =>
    rw [Node.path, Option.ite_none_right_eq_some, Option.some.injEq] at h
    obtain ⟨rfl, rfl⟩ := h
    exact .here f
  | internal f l r ihl ihr =>
    rw [Node.path] at h
    split at h
    next q hq =>
      cases h
      exact .left f l r q (ihl hq)
    next =>
      obtain ⟨q, hq, rfl⟩ := Option.map_eq_some_iff.mp h
      exact .right f l r q (ihr hq)

theorem Node.path_eq_none_iff : n.path v = none ↔ v ∉ n.leafValues := by
  induction n with
  | leaf u f => simp [Node.path, Node.leafValues, eq_comm]
  | internal f l r ihl ihr =>
    rw [Node.path, Node.leafValues, List.mem_append, not_or, ← ihl, ← ihr]
    cases l.path v <;> simp

/-- When no value stands at two leaves, the path found is the only one (R252). -/
theorem Node.path_eq_some_iff (hn : n.leafValues.Nodup) : n.path v = some p ↔ Node.PathTo v n p := by
  refine ⟨pathTo_of_path, fun h => ?_⟩
  induction h with
  | here f => simp [Node.path]
  | left f l r p _ ih => rw [Node.path, ih (List.nodup_append.mp hn).1]
  | right f l r p hp ih =>
    obtain ⟨-, hr, hdisjoint⟩ := List.nodup_append'.mp hn
    rw [Node.path, Node.path_eq_none_iff.mpr (List.disjoint_right.mp hdisjoint hp.mem_leafValues), ih hr]
    rfl

end Paths

/-! ### Codes -/

/-- What has a code (R252): the value of a single leaf, and every value a path leads to from an internal root. -/
theorem code_eq_some_cases {t : Tree} {v : Byte} {c : List Bit} (h : code t v = some c) :
    (∃ f, t = .node (.leaf v f) ∧ c = [false]) ∨
      ∃ f l r, t = .node (.internal f l r) ∧ Node.PathTo v (.internal f l r) c := by
  match t with
  | .empty => cases h
  | .node (.leaf u f) =>
    rw [code, Option.ite_none_right_eq_some, Option.some.injEq] at h
    obtain ⟨rfl, rfl⟩ := h
    exact .inl ⟨f, rfl, rfl⟩
  | .node (.internal f l r) => exact .inr ⟨f, l, r, rfl, Node.pathTo_of_path h⟩

/-- Exactly the values of the leaves have a code (R252). -/
theorem code_ne_none_iff {t : Tree} {v : Byte} : code t v ≠ none ↔ v ∈ t.leafValues := by
  match t with
  | .empty => simp [code, Tree.leafValues]
  | .node (.leaf u f) => simp [code, Tree.leafValues, Node.leafValues, eq_comm]
  | .node (.internal f l r) => exact (not_congr Node.path_eq_none_iff).trans not_not

/-- Settles O52: the codes are paths, and two paths of which one starts the other end at one leaf. -/
theorem builtCodesArePrefixFree : Obligations.BuiltCodesArePrefixFree := by
  refine ⟨fun v => rfl, fun u v f => rfl, fun f l r v c hn => Node.path_eq_some_iff hn, ?_⟩
  rintro s u v cu cv huv hu hv rest rfl
  obtain ⟨f, ht, -⟩ | ⟨f, l, r, ht, hpu⟩ := code_eq_some_cases hu <;>
    obtain ⟨g, ht', hcv⟩ | ⟨g, l', r', ht', hpv⟩ := code_eq_some_cases hv <;> rw [ht] at ht' <;> cases ht'
  · exact huv rfl
  · exact huv (hpu.eq_of_append hpv).1

end Sys2Proof.Machine
end

section
/-! SUPPORT. Encoding with a tree (42_huffman.md R254), decoding of whole codes and of a beginning of one (R255), and that
decoding undoes encoding (R263). -/

namespace Sys2Proof.Machine

/-! ### Encoding -/

section Encoding

variable {t : Tree} {v : Byte} {s : Bytes}

theorem hufEncodeFrom_cons_some {c : List Bit} (h : code t v = some c) (k : Nat) (s : Bytes) :
    hufEncodeFrom t k (v :: s) = (c ++ ·) <$> hufEncodeFrom t (k + 1) s := by
  rw [hufEncodeFrom, h]

theorem hufEncodeFrom_cons_none (h : code t v = none) (k : Nat) (s : Bytes) :
    hufEncodeFrom t k (v :: s) = .error ⟨.encodeMiss, k⟩ := by
  rw [hufEncodeFrom, h]

theorem hufEncodeFrom_of_codes (h : ∀ v ∈ s, code t v ≠ none) (k : Nat) :
    hufEncodeFrom t k s = .ok (s.flatMap fun v => (code t v).getD []) := by
  induction s generalizing k with
  | nil => rfl
  | cons v s ih =>
    rw [List.forall_mem_cons] at h
    obtain ⟨c, hc⟩ := Option.ne_none_iff_exists'.mp h.1
    rw [hufEncodeFrom_cons_some hc, ih h.2, List.flatMap_cons, hc]
    rfl

/-- Encoding misses at the first byte with no code (R254). -/
theorem hufEncodeFrom_miss {k : Nat} (hv : s[k]? = some v) (hmiss : code t v = none)
    (hbefore : ∀ u ∈ s.take k, code t u ≠ none) (j : Nat) : hufEncodeFrom t j s = .error ⟨.encodeMiss, j + k⟩ := by
  induction s generalizing j k with
  | nil => cases hv
  | cons u s ih =>
    cases k with
    | zero =>
      cases hv
      exact hufEncodeFrom_cons_none hmiss j s
    | succ k =>
      rw [List.take_succ_cons, List.forall_mem_cons] at hbefore
      obtain ⟨c, hc⟩ := Option.ne_none_iff_exists'.mp hbefore.1
      rw [hufEncodeFrom_cons_some hc, ih hv hbefore.2, Nat.add_right_comm]
      rfl

/-- What an encoding that succeeds is made of. -/
theorem hufEncodeFrom_cons_ok {k : Nat} {bs : List Bit} (h : hufEncodeFrom t k (v :: s) = .ok bs) :
    ∃ c cs, code t v = some c ∧ hufEncodeFrom t (k + 1) s = .ok cs ∧ bs = c ++ cs := by
  cases hc : code t v with
  | none =>
    rw [hufEncodeFrom_cons_none hc] at h
    cases h
  | some c =>
    rw [hufEncodeFrom_cons_some hc] at h
    cases hcs : hufEncodeFrom t (k + 1) s with
    | error e =>
      rw [hcs] at h
      cases h
    | ok cs =>
      rw [hcs] at h
      cases h
      exact ⟨c, cs, rfl, rfl, rfl⟩

end Encoding

/-! ### Decoding -/

section Decoding

variable (root : Node) (exact : Bool) (total : Nat)

theorem hufDecode_internal (f : Word) (l r : Node) (bs : List Bit) : hufDecode bs (.node (.internal f l r)) exact =
    walkBits (.internal f l r) exact bs.length (.internal f l r) false bs := rfl

/-- A whole code emits its value and returns the cursor to the root (R255). -/
theorem walkBits_pathTo {v : Byte} {n : Node} {c : List Bit} (h : Node.PathTo v n c) (hc : c ≠ []) (mid : Bool)
    (bs : List Bit) :
    walkBits root exact total n mid (c ++ bs) = (v :: ·) <$> walkBits root exact total root false bs := by
  induction c generalizing n mid with
  | nil => exact absurd rfl hc
  | cons b c ih =>
    have hbelow := h.child
    rw [List.cons_append, walkBits]
    split
    next u f hchild =>
      rw [hchild] at hbelow
      obtain ⟨rfl, rfl⟩ := Node.pathTo_leaf_iff.mp hbelow
      rfl
    next f l r hchild =>
      rw [hchild] at hbelow
      exact ih hbelow hbelow.ne_nil true

/-- The beginning of a code emits nothing, and leaves the cursor below the root (R255). -/
theorem walkBits_partial {v : Byte} {n : Node} {tail rest : List Bit} (h : Node.PathTo v n (tail ++ rest))
    (hrest : rest ≠ []) (mid : Bool) (hmid : mid = true ∨ tail ≠ []) :
    walkBits root exact total n mid tail = if exact then .error ⟨.badBits, total⟩ else .ok [] := by
  induction tail generalizing n mid with
  | nil =>
    obtain rfl := hmid.resolve_right (not_not.mpr rfl)
    rfl
  | cons b tail ih =>
    have hbelow := h.child
    rw [walkBits]
    split
    next u f hchild =>
      rw [hchild] at hbelow
      exact absurd (List.append_eq_nil_iff.mp (Node.pathTo_leaf_iff.mp hbelow).2).2 hrest
    next f l r hchild =>
      rw [hchild] at hbelow
      exact ih hbelow true (.inl rfl)

/-- The codes of some bytes decode to the bytes, whatever follows them (R255). -/
theorem walkBits_of_hufEncodeFrom {f : Word} {l r : Node} {vs : Bytes} {k : Nat} {bs : List Bit}
    (h : hufEncodeFrom (.node (.internal f l r)) k vs = .ok bs) (tail : List Bit) :
    walkBits (.internal f l r) exact total (.internal f l r) false (bs ++ tail) =
      (vs ++ ·) <$> walkBits (.internal f l r) exact total (.internal f l r) false tail := by
  induction vs generalizing k bs with
  | nil =>
    cases h
    exact (id_map _).symm
  | cons v vs ih =>
    obtain ⟨c, cs, hc, hcs, rfl⟩ := hufEncodeFrom_cons_ok h
    have hpath : Node.PathTo v (.internal f l r) c := Node.pathTo_of_path hc
    rw [List.append_assoc, walkBits_pathTo _ _ _ hpath hpath.ne_nil, ih hcs, ← comp_map]
    rfl

end Decoding

/-- Encoding with a single leaf gives a bit a byte, and every byte is its value (R252, R254). -/
theorem hufEncodeFrom_leaf_ok {u : Byte} {f : Word} {vs : Bytes} {k : Nat} {bs : List Bit}
    (h : hufEncodeFrom (.node (.leaf u f)) k vs = .ok bs) : vs = List.replicate bs.length u := by
  induction vs generalizing k bs with
  | nil =>
    cases h
    rfl
  | cons v vs ih =>
    obtain ⟨c, cs, hc, hcs, rfl⟩ := hufEncodeFrom_cons_ok h
    obtain ⟨g, ht, rfl⟩ | ⟨g, l, r, ht, -⟩ := code_eq_some_cases hc <;> cases ht
    exact congrArg (u :: ·) (ih hcs)

/-- Decoding undoes encoding, with any tree and in both modes (R263). -/
theorem hufDecode_of_hufEncode {t : Tree} {vs : Bytes} {bs : List Bit} (h : hufEncode vs t = .ok bs) (exact : Bool) :
    hufDecode bs t exact = .ok vs := by
  match t with
  | .empty =>
    cases vs <;> cases h
    rfl
  | .node (.leaf u f) => exact congrArg _ (hufEncodeFrom_leaf_ok h).symm
  | .node (.internal f l r) => simpa [walkBits, hufDecode_internal] using walkBits_of_hufEncodeFrom exact bs.length h []

theorem mem_allBytes (v : Byte) : v ∈ allBytes := List.mem_map.mpr ⟨v.toNat, List.mem_range.mpr v.isLt, by simp⟩

/-- The leaves of a built tree hold exactly the bytes of the string (R251). -/
theorem mem_leafValues_build_iff {s : Bytes} {v : Byte} : v ∈ (build s).leafValues ↔ v ∈ s := by
  rw [(leafValues_build_perm s).mem_iff, List.mem_filter, decide_eq_true_eq, freqOf, gt_iff_lt, List.count_pos_iff]
  exact and_iff_right (mem_allBytes v)

/-- Settles O53: every byte of the string has a code in its tree, and decoding undoes encoding. -/
theorem huffmanRoundTrip : Obligations.HuffmanRoundTrip := by
  refine ⟨fun s t h => hufEncodeFrom_of_codes h 0, fun s t k v hv hmiss hbefore => ?_, fun s exact => ?_⟩
  · exact (hufEncodeFrom_miss hv hmiss hbefore 0).trans (by rw [Nat.zero_add])
  · have hcodes : ∀ v ∈ s, code (build s) v ≠ none := fun v hv =>
      code_ne_none_iff.mpr (mem_leafValues_build_iff.mpr hv)
    have hbits := hufEncodeFrom_of_codes hcodes 0
    exact ⟨_, hbits, hufDecode_of_hufEncode hbits exact⟩

/-- Settles O54: after the codes of whole bytes the cursor stands at the root, and below it after a part of a code. -/
theorem partialPathsByMode : Obligations.PartialPathsByMode := by
  refine ⟨fun bs exact => rfl, fun v f bs exact => ⟨_, rfl, List.length_replicate, fun u => List.eq_of_mem_replicate⟩,
    fun f l r vs bs tail _ henc => ⟨⟨hufDecode_of_hufEncode henc true, hufDecode_of_hufEncode henc false⟩, ?_⟩⟩
  rintro htail ⟨v, c, rest, hc, rfl, hrest⟩
  have hdecode : ∀ exact, hufDecode (bs ++ tail) (.node (.internal f l r)) exact =
      (vs ++ ·) <$> if exact then .error ⟨.badBits, (bs ++ tail).length⟩ else .ok [] := fun exact => by
    rw [hufDecode_internal, walkBits_of_hufEncodeFrom _ _ henc,
      walkBits_partial _ _ _ (Node.pathTo_of_path hc) hrest false (.inr htail)]
  exact ⟨hdecode true, (hdecode false).trans (congrArg _ (List.append_nil vs))⟩

end Sys2Proof.Machine
end

section
/-! SUPPORT. The priority queue of the construction of a tree (42_huffman.md R251): it stays in its order, so that the entries
merge as R251 has it, and their weights are the counts of their leaves (R250). -/

namespace Sys2Proof.Machine

/-! ### The queue -/

theorem QueueEntry.before_iff (x y : QueueEntry) : x.before y = true ↔ x.Precedes y := by
  simp [QueueEntry.before, QueueEntry.Precedes]

theorem QueueEntry.Precedes.trans {x y z : QueueEntry} (hxy : x.Precedes y) (hyz : y.Precedes z) : x.Precedes z := by
  rw [QueueEntry.Precedes] at *
  omega

/-- The queue is held in its order, and the next sequence number is above those in it (R251). -/
structure QueueOrdered (seq : Nat) (q : List QueueEntry) : Prop where
  sorted : q.Pairwise QueueEntry.Precedes
  below : ∀ x ∈ q, x.seq < seq

theorem enqueue_perm (x : QueueEntry) (q : List QueueEntry) : (enqueue x q).Perm (x :: q) := by
  induction q with
  | nil => exact .refl _
  | cons y ys ih =>
    rw [enqueue]
    split
    · exact .refl _
    · exact (ih.cons y).trans (.swap x y ys)

/-- A new entry stands before those it precedes, and after the others, which were inserted earlier (R251). -/
theorem sorted_enqueue {x : QueueEntry} {q : List QueueEntry} (hq : q.Pairwise QueueEntry.Precedes)
    (hx : ∀ y ∈ q, y.seq < x.seq) : (enqueue x q).Pairwise QueueEntry.Precedes := by
  induction q with
  | nil => exact List.pairwise_singleton _ _
  | cons y ys ih =>
    obtain ⟨hy, hys⟩ := List.pairwise_cons.mp hq
    obtain ⟨hyx, hysx⟩ := List.forall_mem_cons.mp hx
    rw [enqueue]
    split
    next h =>
      have hxy := (QueueEntry.before_iff x y).mp h
      exact .cons (List.forall_mem_cons.mpr ⟨hxy, fun z hz => hxy.trans (hy z hz)⟩) hq
    next h =>
      have hyx : y.Precedes x := by
        rw [QueueEntry.before_iff, QueueEntry.Precedes] at h
        rw [QueueEntry.Precedes]
        omega
      refine .cons (fun z hz => ?_) (ih hys hysx)
      obtain rfl | hz := List.mem_cons.mp ((enqueue_perm x ys).mem_iff.mp hz)
      · exact hyx
      · exact hy z hz

theorem QueueOrdered.enqueue {x : QueueEntry} {q : List QueueEntry} (h : QueueOrdered x.seq q) :
    QueueOrdered (x.seq + 1) (enqueue x q) where
  sorted := sorted_enqueue h.sorted h.below
  below y hy := by
    obtain rfl | hy := List.mem_cons.mp ((enqueue_perm x q).mem_iff.mp hy)
    · exact Nat.lt_succ_self _
    · exact Nat.lt_succ_of_lt (h.below y hy)

/-! ### The leaves -/

/-- The entry of a byte of `s` with the sequence number `x.2` (R251). -/
def leafEntry (s : Bytes) (x : Byte × Nat) : QueueEntry := ⟨s.count x.1, x.2, .leaf x.1 (freqWord (s.count x.1))⟩

/-- The bytes of `vs` that occur in `s`, as R251 inserts them when the next sequence number is `seq`. -/
def leafEntriesFrom (s vs : Bytes) (seq : Nat) : List QueueEntry :=
  ((vs.filter fun v => decide (v ∈ s)).zipIdx seq).map (leafEntry s)

theorem leafEntries_eq (s : Bytes) : leafEntries s = leafEntriesFrom s allBytes 0 := rfl

theorem leafEntriesFrom_cons_of_mem {s : Bytes} {v : Byte} (hv : v ∈ s) (vs : Bytes) (seq : Nat) :
    leafEntriesFrom s (v :: vs) seq = leafEntry s (v, seq) :: leafEntriesFrom s vs (seq + 1) := by
  rw [leafEntriesFrom, List.filter_cons_of_pos (by simpa using hv)]
  rfl

theorem leafEntriesFrom_cons_of_not_mem {s : Bytes} {v : Byte} (hv : v ∉ s) (vs : Bytes) (seq : Nat) :
    leafEntriesFrom s (v :: vs) seq = leafEntriesFrom s vs seq := by
  rw [leafEntriesFrom, List.filter_cons_of_neg (by simpa using hv)]
  rfl

theorem freqOf_pos_iff {s : Bytes} {v : Byte} : freqOf s v > 0 ↔ v ∈ s := List.count_pos_iff

/-- Inserting leaves adds their entries to the queue, which stays in its order, and counts them (R251). -/
theorem enqueueLeaves_spec (s vs : Bytes) (seq : Nat) (q : List QueueEntry) (hq : QueueOrdered seq q) :
    (enqueueLeaves s vs seq q).1 = seq + (leafEntriesFrom s vs seq).length ∧
      (enqueueLeaves s vs seq q).2.Perm (leafEntriesFrom s vs seq ++ q) ∧
      QueueOrdered (enqueueLeaves s vs seq q).1 (enqueueLeaves s vs seq q).2 := by
  induction vs, seq, q using enqueueLeaves.induct s with
  | case1 seq q => exact ⟨rfl, .refl _, hq⟩
  | case2 v vs seq q hv ih =>
    obtain ⟨hnext, hperm, hordered⟩ := ih (QueueOrdered.enqueue (x := leafEntry s (v, seq)) hq)
    rw [enqueueLeaves, if_pos hv, leafEntriesFrom_cons_of_mem (freqOf_pos_iff.mp hv)]
    refine ⟨hnext.trans (by rw [List.length_cons]; omega), hperm.trans ?_, hordered⟩
    exact ((enqueue_perm _ q).append_left _).trans List.perm_middle
  | case3 v vs seq q hv ih =>
    rw [enqueueLeaves, if_neg hv, leafEntriesFrom_cons_of_not_mem (mt freqOf_pos_iff.mpr hv)]
    exact ih hq

theorem leafEntries_ne_nil {s : Bytes} (hs : s ≠ []) : leafEntries s ≠ [] := by
  obtain ⟨v, hv⟩ := List.exists_mem_of_ne_nil s hs
  rw [leafEntries_eq, leafEntriesFrom, Ne, List.map_eq_nil_iff, List.zipIdx_eq_nil_iff]
  exact List.ne_nil_of_mem (List.mem_filter.mpr ⟨mem_allBytes v, decide_eq_true hv⟩)

/-! ### Merging -/

/-- The order in which the entries are listed does not matter to how they merge (R251). -/
theorem MergesTo.perm {seq : Nat} {q q' : List QueueEntry} {root : Node} (h : MergesTo seq q root) (hq : q.Perm q') :
    MergesTo seq q' root := by
  cases h with
  | last seq x =>
    obtain rfl := List.singleton_perm.mp hq
    exact .last seq x
  | pop seq q rest a b root hperm ha hb hrest => exact .pop seq q' rest a b root (hq.symm.trans hperm) ha hb hrest

theorem mergesTo_mergeQueue {fuel seq : Nat} {q : List QueueEntry} (hq : QueueOrdered seq q) (hne : q ≠ [])
    (hf : q.length ≤ fuel + 1) : ∃ root, mergeQueue fuel seq q = .node root ∧ MergesTo seq q root := by
  induction fuel, seq, q using mergeQueue.induct with
  | case1 fuel seq => exact absurd rfl hne
  | case2 fuel seq x => exact ⟨x.node, by rw [mergeQueue], .last seq x⟩
  | case3 seq a b q => simp at hf
  | case4 fuel seq a b q ih =>
    obtain ⟨ha, hbq⟩ := List.pairwise_cons.mp hq.sorted
    obtain ⟨hb, hsorted⟩ := List.pairwise_cons.mp hbq
    have hrest : QueueOrdered seq q := ⟨hsorted, fun x hx => hq.below x (by simp [hx])⟩
    obtain ⟨root, hroot, hmerges⟩ := ih
      (QueueOrdered.enqueue (x := ⟨a.fr + b.fr, seq, .internal (freqWord (a.fr + b.fr)) a.node b.node⟩) hrest)
      (List.ne_nil_of_length_pos (by rw [length_enqueue]; exact Nat.succ_pos _))
      (by rw [length_enqueue]; exact Nat.le_of_succ_le_succ hf)
    exact ⟨root, by rw [mergeQueue, hroot], .pop seq _ q a b root (.refl _) ha hb (hmerges.perm (enqueue_perm _ q))⟩

/-- The leaf entries of a string merge to the root of its tree (R251). -/
theorem mergesTo_build {s : Bytes} (hs : s ≠ []) :
    ∃ root, build s = .node root ∧ MergesTo (leafEntries s).length (leafEntries s) root := by
  obtain ⟨hnext, hperm, hordered⟩ := enqueueLeaves_spec s allBytes 0 [] ⟨.nil, nofun⟩
  rw [List.append_nil, ← leafEntries_eq] at hperm
  rw [Nat.zero_add, ← leafEntries_eq] at hnext
  obtain ⟨root, hroot, hmerges⟩ := mergesTo_mergeQueue hordered
    (fun hnil => leafEntries_ne_nil hs (hnil ▸ hperm).nil_eq.symm) (Nat.le_succ _)
  exact ⟨root, hroot, hnext ▸ hmerges.perm hperm⟩

/-! ### Weights -/

/-- The entry's `fr` is the sum of the counts of its leaves, and so are the frequencies below it (R250, R251). -/
structure QueueEntry.Weighs (s : Bytes) (x : QueueEntry) : Prop where
  fr : x.fr = (x.node.leafValues.map fun v => s.count v).sum
  node : x.node.Weighted s

theorem weighs_leafEntry (s : Bytes) (x : Byte × Nat) : (leafEntry s x).Weighs s where
  fr := by simp [leafEntry, Node.leafValues]
  node := rfl

/-- A parent with the sum of two weights weighs what its leaves do. -/
theorem QueueEntry.Weighs.parent {s : Bytes} {a b : QueueEntry} (ha : a.Weighs s) (hb : b.Weighs s) (seq : Nat) :
    QueueEntry.Weighs s ⟨a.fr + b.fr, seq, .internal (freqWord (a.fr + b.fr)) a.node b.node⟩ := by
  have hsum : a.fr + b.fr = ((a.node.leafValues ++ b.node.leafValues).map fun v => s.count v).sum := by
    rw [List.map_append, List.sum_append, ha.fr, hb.fr]
  exact ⟨hsum, congrArg freqWord hsum, ha.node, hb.node⟩

theorem MergesTo.weighted {s : Bytes} {seq : Nat} {q : List QueueEntry} {root : Node} (h : MergesTo seq q root)
    (hq : ∀ x ∈ q, x.Weighs s) : root.Weighted s := by
  induction h with
  | last seq x => exact (hq x (List.mem_singleton_self x)).node
  | pop seq q rest a b root hperm _ _ _ ih =>
    simp only [hperm.mem_iff, List.forall_mem_cons] at hq
    obtain ⟨ha, hb, hrest⟩ := hq
    exact ih (List.forall_mem_cons.mpr ⟨ha.parent hb seq, hrest⟩)

theorem toNat_freqWord {n : Nat} (hn : n ≤ 2147483647) : (freqWord n).toNat = n := by
  rw [freqWord, if_pos hn, BitVec.toNat_ofNat]
  omega

/-! ### Built trees -/

theorem build_nil : build [] = .empty := by
  have hleaves : (build []).leafValues = [] :=
    List.eq_nil_iff_forall_not_mem.mpr fun v hv => List.not_mem_nil (mem_leafValues_build_iff.mp hv)
  cases h : build [] with
  | empty => rfl
  | node root =>
    have hcount := root.count_add_one
    rw [h, Tree.leafValues] at hleaves
    rw [hleaves] at hcount
    cases hcount

/-- A code of a legal tree has 1 to 255 bits (R9, R252). -/
theorem length_code {t : Tree} {v : Byte} {c : List Bit} (ht : t.wf = true) (hc : code t v = some c) :
    1 ≤ c.length ∧ c.length ≤ 255 := by
  have hleaves := length_le_of_nodup_bytes ((Tree.wf_iff_nodup t).mp ht)
  obtain ⟨f, rfl, rfl⟩ | ⟨f, l, r, rfl, hpath⟩ := code_eq_some_cases hc
  · decide
  · have hlt := hpath.length_lt
    rw [Tree.leafValues] at hleaves
    exact ⟨List.length_pos_of_ne_nil hpath.ne_nil, by omega⟩

/-- A built tree has `2L - 1` nodes for `L` distinct bytes (R253). -/
theorem count_build (s : Bytes) : (build s).count = if s = [] then 0 else 2 * s.dedup.length - 1 := by
  have hleaves : (build s).leafValues.length = s.dedup.length :=
    ((List.perm_ext_iff_of_nodup ((Tree.wf_iff_nodup _).mp (build_wf s)) s.nodup_dedup).mpr fun v => by
      rw [mem_leafValues_build_iff, List.mem_dedup]).length_eq
  split
  next hs =>
    rw [hs, build_nil]
    rfl
  next hs =>
    obtain ⟨root, hroot, -⟩ := mergesTo_build hs
    have := root.count_add_one
    rw [hroot, Tree.leafValues] at hleaves
    rw [hroot, Tree.count]
    omega

/-- Settles O51: the queue stays in its order, its entries weigh what their leaves do, and a path has a leaf beside each
internal node. -/
theorem builtTreesAreLegal : Obligations.BuiltTreesAreLegal := by
  refine ⟨build_nil, fun n hn => toNat_freqWord hn, fun s => ⟨fun hs => ?_, build_wf s,
    fun v => mem_leafValues_build_iff, fun v => ?_, fun v c hc => length_code (build_wf s) hc⟩⟩
  · obtain ⟨root, hroot, hmerges⟩ := mergesTo_build hs
    refine ⟨root, hroot, hmerges, hmerges.weighted fun x hx => ?_⟩
    obtain ⟨y, -, rfl⟩ := List.mem_map.mp hx
    exact weighs_leafEntry s y
  · exact (code_ne_none_iff.trans mem_leafValues_build_iff).symm

end Sys2Proof.Machine
end

section
/-! SUPPORT. Tree blobs (42_huffman.md R257 to R260): the bytes of a blob, that they are read back, and that a reader stands
after good records, until its blob is a tree's or has its first fault there. -/

namespace Sys2Proof.Machine

/-! ### The bytes of a blob -/

theorem Node.records_eq_flatMap (n : Node) : n.records = n.preorder.flatMap BlobRecord.bytes := by
  induction n with
  | leaf v f => simp [Node.records, Node.preorder, BlobRecord.bytes]
  | internal f l r ihl ihr => simp [Node.records, Node.preorder, BlobRecord.bytes, ihl, ihr]

theorem Node.length_preorder (n : Node) : n.preorder.length = n.count := by
  induction n with
  | leaf v f => rfl
  | internal f l r ihl ihr =>
    rw [Node.preorder, List.length_cons, List.length_append, ihl, ihr, Node.count]
    omega

/-- A leaf takes six bytes and an internal node five, of which there is one less (R150, R258). -/
theorem Node.length_records (n : Node) : n.records.length + 5 = 11 * n.leafValues.length := by
  induction n with
  | leaf v f => rfl
  | internal f l r ihl ihr =>
    simp only [Node.records, Node.leafValues, bytesLe32, List.length_append, List.length_cons, List.length_nil]
    omega

theorem treeBlob_empty : treeBlob .empty = [0x00#8, 0x00#8, 0x00#8, 0x00#8] := by decide

theorem treeBlob_node (n : Node) :
    treeBlob (.node n) = bytesLe32 (BitVec.ofNat 32 n.count) ++ n.preorder.flatMap BlobRecord.bytes :=
  congrArg (bytesLe32 (BitVec.ofNat 32 n.count) ++ ·) n.records_eq_flatMap

theorem length_treeBlob (t : Tree) : (treeBlob t).length =
    if t = .empty then 4 else 4 + 6 * t.leafValues.length + 5 * (t.leafValues.length - 1) := by
  cases t with
  | empty => rfl
  | node n =>
    have hcount := n.count_add_one
    have hlen := n.length_records
    simp only [treeBlob, bytesLe32, List.length_append, List.length_cons, List.length_nil, reduceCtorEq, if_false,
      Tree.leafValues]
    omega

/-- A blob starts with the number of its nodes (R257). -/
theorem take_treeBlob (t : Tree) : (treeBlob t).take 4 = bytesLe32 (BitVec.ofNat 32 t.count) := by
  cases t <;> rfl

/-- The node count of a legal tree fits a register (R38, R50). -/
theorem toNat_count {t : Tree} (ht : t.wf = true) : (BitVec.ofNat 32 t.count).toNat = t.count := by
  rw [Tree.wf, Bool.and_eq_true, decide_eq_true_eq] at ht
  rw [BitVec.toNat_ofNat]
  omega

/-! ### The reader by its cases -/

/-- Bytes that do not start with a record: none, a truncated record, or another tag (R259). -/
def NoRecord (s : Bytes) : Prop :=
  s = [] ∨ s[0]? = some 0x01#8 ∧ s.length < 6 ∨ s[0]? = some 0x00#8 ∧ s.length < 5 ∨
    s[0]? ≠ some 0x00#8 ∧ s[0]? ≠ some 0x01#8

theorem record_or_noRecord (s : Bytes) : (∃ r rest, s = BlobRecord.bytes r ++ rest) ∨ NoRecord s := by
  match s with
  | [] => exact .inr (.inl rfl)
  | tag :: body =>
    by_cases hleaf : tag = 0x01#8
    · subst hleaf
      match body with
      | v :: f0 :: f1 :: f2 :: f3 :: rest =>
        exact .inl ⟨.leaf v (le32 f0 f1 f2 f3), rest, by simp [BlobRecord.bytes, bytesLe32_le32]⟩
      | [] | [_] | [_, _] | [_, _, _] | [_, _, _, _] => exact .inr (.inr (.inl ⟨rfl, by simp⟩))
    · by_cases hinternal : tag = 0x00#8
      · subst hinternal
        match body with
        | f0 :: f1 :: f2 :: f3 :: rest =>
          exact .inl ⟨.internal (le32 f0 f1 f2 f3), rest, by simp [BlobRecord.bytes, bytesLe32_le32]⟩
        | [] | [_] | [_, _] | [_, _, _] => exact .inr (.inr (.inr (.inl ⟨rfl, by simp⟩)))
      · exact .inr (.inr (.inr (.inr ⟨by simpa using hinternal, by simpa using hleaf⟩)))

section Reader

variable (fuel budget p : Nat) (seen : List Byte)

theorem readNode_leaf (rest : Bytes) (v : Byte) (f : Word) :
    readNode (fuel + 1) ⟨budget + 1, p, seen, BlobRecord.bytes (.leaf v f) ++ rest⟩ =
      if v ∈ seen then corruptTree (p + 1) else .ok (.leaf v f, ⟨budget, p + 6, v :: seen, rest⟩) := by
  simp [readNode, BlobRecord.bytes, bytesLe32, le32_bytesLe32]

theorem readNode_internal (rest : Bytes) (f : Word) :
    readNode (fuel + 1) ⟨budget + 1, p, seen, BlobRecord.bytes (.internal f) ++ rest⟩ =
      readNode fuel ⟨budget, p + 5, seen, rest⟩ >>= fun x => readNode fuel x.2 >>= fun y =>
        .ok (.internal f x.1 y.1, y.2) := by
  simp [readNode, BlobRecord.bytes, bytesLe32, le32_bytesLe32]

theorem readNode_noRecord {rest : Bytes} (h : NoRecord rest) :
    readNode (fuel + 1) ⟨budget + 1, p, seen, rest⟩ = corruptTree p := by
  cases rest with
  | nil => rfl
  | cons tag body =>
    rw [readNode, if_neg (Nat.succ_ne_zero budget)]
    dsimp only
    split
    next hleaf =>
      split
      · simp [NoRecord, hleaf] at h
        omega
      · rfl
    next =>
      split
      next hinternal =>
        split
        · simp [NoRecord, hinternal] at h
          omega
        · rfl
      next => rfl

end Reader

/-- The count of a blob is read as an `s32`; within the bound it is the number the bytes hold (R259). -/
theorem parseTreeBlob_bytesLe32 (w : Word) (rest : Bytes) : parseTreeBlob (bytesLe32 w ++ rest) =
    if 511 < w.toNat then corruptTree 0
    else if w.toNat = 0 then if rest = [] then .ok .empty else corruptTree 4
    else readNode w.toNat ⟨w.toNat, 4, [], rest⟩ >>= fun x =>
      if x.2.budget ≠ 0 then corruptTree x.2.p
      else if x.2.rest ≠ [] then corruptTree x.2.p
      else .ok (.node x.1) := by
  have hsmall : w.toNat ≤ 511 → w.toInt = w.toNat := fun h => BitVec.toInt_eq_toNat_of_lt (by omega)
  have hout : (w.toInt < 0 ∨ w.toInt > 511) ↔ 511 < w.toNat := by
    have := w.isLt
    rw [BitVec.toInt_eq_toNat_cond]
    split <;> omega
  simp only [bytesLe32, List.cons_append, List.nil_append, parseTreeBlob, le32_bytesLe32, hout]
  split
  next => rfl
  next hw =>
    rw [hsmall (not_lt.mp hw)]
    simp only [Int.natCast_eq_zero, Int.toNat_natCast]

/-! ### Reading a blob back -/

/-- The records of a node whose leaves differ, and from those seen before, are read back (R264). -/
theorem readNode_records {fuel : Nat} {n : Node} {seen : List Byte} (hfuel : n.count ≤ fuel)
    (hnodup : (n.leafValues.reverse ++ seen).Nodup) (budget p : Nat) (rest : Bytes) :
    readNode fuel ⟨n.count + budget, p, seen, n.records ++ rest⟩ =
      .ok (n, ⟨budget, p + n.records.length, n.leafValues.reverse ++ seen, rest⟩) := by
  induction n generalizing fuel seen budget p rest with
  | leaf v f =>
    obtain ⟨fuel, rfl⟩ := Nat.exists_eq_add_of_le' hfuel
    have hv : v ∉ seen := (List.nodup_cons.mp hnodup).1
    rw [Node.count, Nat.add_comm 1]
    exact (readNode_leaf fuel budget p seen rest v f).trans (if_neg hv)
  | internal f l r ihl ihr =>
    rw [Node.count] at hfuel
    obtain ⟨fuel, rfl⟩ := Nat.exists_eq_add_of_le' (show 1 ≤ fuel by omega)
    rw [Node.leafValues, List.reverse_append, List.append_assoc] at hnodup ⊢
    have hcount : (Node.internal f l r).count + budget = l.count + (r.count + budget) + 1 := by
      rw [Node.count]
      omega
    have hrecords : (Node.internal f l r).records =
        BlobRecord.bytes (.internal f) ++ (l.records ++ r.records) := by
      simp [Node.records, BlobRecord.bytes]
    have hlen : (BlobRecord.bytes (.internal f)).length = 5 := rfl
    have hleft := ihl (fuel := fuel) (by omega) hnodup.of_append_right (r.count + budget) (p + 5) (r.records ++ rest)
    have hright := ihr (fuel := fuel) (by omega) hnodup budget (p + 5 + l.records.length) rest
    rw [hcount, hrecords, List.append_assoc, List.append_assoc, readNode_internal]
    simp only [hleft, hright, bind, Except.bind]
    simp only [List.length_append, hlen, Nat.add_assoc]

/-- The blob of a legal tree is read back (R264). -/
theorem parseTreeBlob_treeBlob {t : Tree} (ht : t.wf = true) : parseTreeBlob (treeBlob t) = .ok t := by
  cases t with
  | empty => rfl
  | node n =>
    have hsmall : n.count ≤ 511 := by
      rw [Tree.wf, Bool.and_eq_true, decide_eq_true_eq] at ht
      exact ht.1
    have hpos : n.count ≠ 0 := by
      have := n.count_add_one
      omega
    have hnodup : (n.leafValues.reverse ++ []).Nodup := by
      simpa [Tree.leafValues] using (Tree.wf_iff_nodup _).mp ht
    have hread := readNode_records (Nat.le_refl n.count) hnodup 0 4 []
    have hcount : (BitVec.ofNat 32 n.count).toNat = n.count := toNat_count ht
    rw [treeBlob, parseTreeBlob_bytesLe32, hcount, if_neg (not_lt.mpr hsmall), if_neg hpos,
      ← List.append_nil n.records]
    exact congrArg (· >>= _) hread

/-- Settles O55: the reader takes the records of a node one by one, and meets no leaf twice. -/
theorem treeBlobRoundTrip : Obligations.TreeBlobRoundTrip :=
  ⟨treeBlob_empty, treeBlob_node, fun _ => parseTreeBlob_treeBlob⟩

/-! ### What the reader has read -/

/-- A computation answers a value of which `p` holds, or raises an error with a detail of which `q` holds. -/
def AnswersOrFaults {α : Type} (p : α → Prop) (q : Nat → Prop) : Except EngineError α → Prop
  | .ok a => p a
  | .error e => q e.info

theorem AnswersOrFaults.bind {α β : Type} {p : α → Prop} {p' : β → Prop} {q : Nat → Prop} {x : Except EngineError α}
    {f : α → Except EngineError β} (hx : AnswersOrFaults p q x) (hf : ∀ a, p a → AnswersOrFaults p' q (f a)) :
    AnswersOrFaults p' q (x >>= f) := by
  cases x with
  | error e => exact hx
  | ok a => exact hf a hx

theorem AnswersOrFaults.ite {α : Type} {p : α → Prop} {q : Nat → Prop} {x y : Except EngineError α} {c : Prop}
    [Decidable c] (hx : c → AnswersOrFaults p q x) (hy : ¬c → AnswersOrFaults p q y) :
    AnswersOrFaults p q (if c then x else y) := by
  split
  · exact hx ‹_›
  · exact hy ‹_›

theorem AnswersOrFaults.imp {α : Type} {p : α → Prop} {q q' : Nat → Prop} {x : Except EngineError α}
    (hx : AnswersOrFaults p q x) (hq : ∀ i, q i → q' i) : AnswersOrFaults p q' x := by
  cases x with
  | error e => exact hq _ hx
  | ok a => exact hx

/-- The reader at the cursor `k` has read the records `rs` of the blob `b`, and `need` subtrees are still to be read
(R259). -/
structure ReadSoFar (b : Bytes) (count need : Nat) (rs : List BlobRecord) (k : TreeCursor) : Prop where
  bytes : b.drop 4 = rs.flatMap BlobRecord.bytes ++ k.rest
  index : k.p + k.rest.length = b.length
  seen : k.seen = (recordValues rs).reverse
  nodup : (recordValues rs).Nodup
  budget : rs.length + k.budget = count
  need : 2 * (recordValues rs).length + need = rs.length + 1
  before : ∀ j < rs.length, TreeOpen (rs.take j)

section ReadSoFar

variable {b : Bytes} {count need : Nat} {rs : List BlobRecord} {k : TreeCursor}

theorem ReadSoFar.treeOpen_iff (h : ReadSoFar b count need rs k) : TreeOpen rs ↔ need ≠ 0 := by
  have := h.need
  rw [TreeOpen]
  omega

theorem ReadSoFar.treeOpen (h : ReadSoFar b count (need + 1) rs k) : TreeOpen rs :=
  h.treeOpen_iff.mpr (Nat.succ_ne_zero _)

theorem recordValues_append (rs rs' : List BlobRecord) :
    recordValues (rs ++ rs') = recordValues rs ++ recordValues rs' := List.filterMap_append

variable {budget p : Nat} {seen : List Byte} {rest : Bytes}

/-- One record more of an open tree. -/
theorem ReadSoFar.snoc {r : BlobRecord} {need' : Nat} {seen' : List Byte}
    (h : ReadSoFar b count (need + 1) rs ⟨budget + 1, p, seen, r.bytes ++ rest⟩)
    (hseen : seen' = (recordValues (rs ++ [r])).reverse) (hnodup : (recordValues (rs ++ [r])).Nodup)
    (hneed : 2 * (recordValues (rs ++ [r])).length + need' = (rs ++ [r]).length + 1) :
    ReadSoFar b count need' (rs ++ [r]) ⟨budget, p + r.bytes.length, seen', rest⟩ where
  bytes := by simpa [List.flatMap_append] using h.bytes
  index := by simpa [Nat.add_assoc] using h.index
  seen := hseen
  nodup := hnodup
  budget := by simpa [Nat.add_assoc, Nat.add_comm 1] using h.budget
  need := hneed
  before j hj := by
    rw [List.length_append, List.length_singleton, Nat.lt_succ_iff] at hj
    rw [List.take_append_of_le_length hj]
    obtain hj | rfl := hj.lt_or_eq
    · exact h.before j hj
    · rw [List.take_length]
      exact h.treeOpen

theorem ReadSoFar.leaf {v : Byte} {f : Word}
    (h : ReadSoFar b count (need + 1) rs ⟨budget + 1, p, seen, BlobRecord.bytes (.leaf v f) ++ rest⟩)
    (hv : v ∉ seen) :
    ReadSoFar b count need (rs ++ [.leaf v f]) ⟨budget, p + 6, v :: seen, rest⟩ := by
  have hvalues : recordValues (rs ++ [.leaf v f]) = recordValues rs ++ [v] := recordValues_append ..
  have hneed := h.need
  have hseen : seen = (recordValues rs).reverse := h.seen
  rw [hseen, List.mem_reverse] at hv
  refine h.snoc ?_ ?_ ?_ <;> rw [hvalues]
  · simp [hseen]
  · exact List.nodup_append'.mpr ⟨h.nodup, List.nodup_singleton v, List.disjoint_singleton.mpr hv⟩
  · simp only [List.length_append, List.length_singleton]
    omega

theorem ReadSoFar.internal {f : Word}
    (h : ReadSoFar b count (need + 1) rs ⟨budget + 1, p, seen, BlobRecord.bytes (.internal f) ++ rest⟩) :
    ReadSoFar b count (need + 2) (rs ++ [.internal f]) ⟨budget, p + 5, seen, rest⟩ := by
  have hvalues : recordValues (rs ++ [.internal f]) = recordValues rs :=
    (recordValues_append ..).trans (List.append_nil _)
  have hneed := h.need
  refine h.snoc ?_ ?_ ?_ <;> rw [hvalues]
  · exact h.seen
  · exact h.nodup
  · rw [List.length_append, List.length_singleton]
    omega

/-- A fault where the reader stands, after the records read (R259). -/
theorem ReadSoFar.faultAt {i : Nat} (h : ReadSoFar b count need rs k)
    (hfault : ¬TreeOpen rs ∧ (rs.length < count ∨ k.rest ≠ []) ∧ i = k.p ∨
      TreeOpen rs ∧ rs.length = count ∧ i = k.p ∨
      TreeOpen rs ∧ rs.length < count ∧ NoRecord k.rest ∧ i = k.p ∨
      TreeOpen rs ∧ rs.length < count ∧ k.rest[0]? = some 0x01#8 ∧ 6 ≤ k.rest.length ∧
        (∃ v ∈ recordValues rs, k.rest[1]? = some v) ∧ i = k.p + 1) : RecordsFaultAt b count i :=
  ⟨rs, k.p, k.rest, h.bytes, h.index, h.nodup, h.budget ▸ Nat.le_add_right .., h.before, hfault⟩

end ReadSoFar

/-- Reading a node reads its records, or ends at a fault after good records (R259). -/
theorem readNode_readSoFar {fuel : Nat} {k : TreeCursor} {b : Bytes} {count need : Nat} {rs : List BlobRecord}
    (h : ReadSoFar b count (need + 1) rs k) (hfuel : k.budget ≤ fuel) :
    AnswersOrFaults (fun x => ReadSoFar b count need (rs ++ x.1.preorder) x.2) (RecordsFaultAt b count)
      (readNode fuel k) := by
  induction fuel generalizing rs k need with
  | zero =>
    obtain ⟨budget, p, seen, s⟩ := k
    obtain rfl := Nat.eq_zero_of_le_zero hfuel
    exact h.faultAt (.inr (.inl ⟨h.treeOpen, h.budget, rfl⟩))
  | succ fuel ih =>
    obtain ⟨budget, p, seen, s⟩ := k
    have hopen := h.treeOpen
    cases budget with
    | zero => exact h.faultAt (.inr (.inl ⟨hopen, h.budget, rfl⟩))
    | succ budget =>
      have hleft : rs.length < count := by
        have := h.budget
        dsimp only at this
        omega
      obtain ⟨r, rest, rfl⟩ | hno := record_or_noRecord s
      · cases r with
        | leaf v f =>
          rw [readNode_leaf]
          refine .ite (fun hv => ?_) fun hv => h.leaf hv
          have hlen : 6 ≤ (BlobRecord.bytes (.leaf v f) ++ rest).length := Nat.le_add_left ..
          have hv : v ∈ recordValues rs := List.mem_reverse.mp (h.seen ▸ hv : v ∈ (recordValues rs).reverse)
          exact h.faultAt (.inr (.inr (.inr ⟨hopen, hleft, rfl, hlen, ⟨v, hv, rfl⟩, rfl⟩)))
        | internal f =>
          rw [readNode_internal]
          have hinternal := h.internal
          have hbudget := Nat.le_of_succ_le_succ hfuel
          refine (ih hinternal hbudget).bind fun ⟨l, k⟩ hl => ?_
          have hk : k.budget ≤ fuel := by
            have h1 := hinternal.budget
            have h2 := hl.budget
            rw [List.length_append] at h2
            dsimp only at h1 h2
            omega
          refine (ih hl hk).bind fun ⟨r, k'⟩ hr => ?_
          simpa [AnswersOrFaults, Node.preorder] using hr
      · rw [readNode_noRecord _ _ _ _ hno]
        exact h.faultAt (.inr (.inr (.inl ⟨hopen, hleft, hno, rfl⟩)))

theorem short_or_counted (b : Bytes) : b.length < 4 ∨ ∃ w rest, b = bytesLe32 w ++ rest := by
  match b with
  | [] | [_] | [_, _] | [_, _, _] => exact .inl (by simp)
  | c0 :: c1 :: c2 :: c3 :: rest => exact .inr ⟨le32 c0 c1 c2 c3, rest, by rw [bytesLe32_le32]; rfl⟩

theorem parseTreeBlob_of_short {b : Bytes} (h : b.length < 4) : parseTreeBlob b = corruptTree 0 := by
  match b with
  | [] | [_] | [_, _] | [_, _, _] => rfl
  | _ :: _ :: _ :: _ :: rest => exact absurd h (Nat.not_lt.mpr (Nat.le_add_left 4 rest.length))

/-- Where the fault of a blob with the count `w` is found (R259). -/
theorem blobFaultAt_iff (w : Word) (rest : Bytes) (i : Nat) : BlobFaultAt (bytesLe32 w ++ rest) i ↔
    511 < w.toNat ∧ i = 0 ∨ rest ≠ [] ∧ w.toNat = 0 ∧ i = 4 ∨
      1 ≤ w.toNat ∧ w.toNat ≤ 511 ∧ RecordsFaultAt (bytesLe32 w ++ rest) w.toNat i := by
  have hvalue : leValue ((bytesLe32 w ++ rest).take 4) = w := le32_bytesLe32 w
  have hlen : (bytesLe32 w ++ rest).length = 4 + rest.length := List.length_append
  rw [BlobFaultAt, hvalue, hlen, ← List.length_pos_iff]
  simp

/-- A blob is that of the tree it is read as, or it has its first fault where the reader ends (R257, R259). -/
theorem parseTreeBlob_spec (b : Bytes) :
    AnswersOrFaults (fun t => treeBlob t = b) (BlobFaultAt b) (parseTreeBlob b) := by
  obtain hshort | ⟨w, rest, rfl⟩ := short_or_counted b
  · rw [parseTreeBlob_of_short hshort]
    exact .inl ⟨.inl hshort, rfl⟩
  have hfault := fun i => (blobFaultAt_iff w rest i).mpr
  have hlen : (bytesLe32 w ++ rest).length = 4 + rest.length := List.length_append
  rw [parseTreeBlob_bytesLe32]
  refine .ite (fun hbig => hfault 0 (.inl ⟨hbig, rfl⟩)) fun hsmall => .ite (fun hzero => ?empty) fun hpos => ?root
  case empty =>
    obtain rfl : w = 0 := BitVec.eq_of_toNat_eq hzero
    refine .ite (fun hrest => ?_) fun hrest => hfault 4 (.inr (.inl ⟨hrest, rfl, rfl⟩))
    rw [hrest]
    rfl
  case root =>
    have hstart : ReadSoFar (bytesLe32 w ++ rest) w.toNat 1 [] ⟨w.toNat, 4, [], rest⟩ :=
      ⟨rfl, hlen.symm, rfl, .nil, Nat.zero_add _, rfl, nofun⟩
    have hrecords : ∀ i, RecordsFaultAt (bytesLe32 w ++ rest) w.toNat i → BlobFaultAt (bytesLe32 w ++ rest) i :=
      fun i hi => hfault i (.inr (.inr ⟨Nat.pos_of_ne_zero hpos, Nat.le_of_not_lt hsmall, hi⟩))
    refine ((readNode_readSoFar hstart (Nat.le_refl w.toNat)).imp hrecords).bind fun ⟨root, k⟩ h => ?_
    rw [List.nil_append] at h
    have hwhole : ¬TreeOpen root.preorder := fun hopen => h.treeOpen_iff.mp hopen rfl
    have hcount : root.count + k.budget = w.toNat := root.length_preorder ▸ h.budget
    refine .ite (fun hbudget => ?_) fun hbudget => .ite (fun hrest => ?_) fun hrest => ?_
    · have hmore : root.preorder.length < w.toNat := by
        rw [root.length_preorder]
        dsimp only at hbudget
        omega
      exact hrecords k.p (h.faultAt (.inl ⟨hwhole, .inl hmore, rfl⟩))
    · exact hrecords k.p (h.faultAt (.inl ⟨hwhole, .inr hrest, rfl⟩))
    · have hw : BitVec.ofNat 32 root.count = w := by
        rw [← Nat.add_zero root.count, ← not_not.mp hbudget, hcount, BitVec.ofNat_toNat, BitVec.setWidth_eq]
      have hbytes : rest = root.preorder.flatMap BlobRecord.bytes := by
        rw [← List.append_nil (root.preorder.flatMap _), ← not_not.mp hrest]
        exact h.bytes
      rw [AnswersOrFaults, treeBlob_node, hw, hbytes]

/-- Settles O56: the reader keeps the leaves apart, and what it has read of a blob is the whole blob when it answers. -/
theorem acceptedBlobsAreLegalTrees : Obligations.AcceptedBlobsAreLegalTrees := by
  intro b t ht
  have hspec := parseTreeBlob_spec b
  rw [ht] at hspec
  exact ⟨parseTreeBlob_returnsOnly b t ht, hspec⟩

end Sys2Proof.Machine
end

section
/-! SUPPORT. The commands of the Huffman family (42_huffman.md R253 to R261): the ones that write the tree store, and the bit
arrays that HUF_ENCODE writes and HUF_DECODE reads. -/

namespace Sys2Proof.Machine

/-! ### Commands that write the tree store alone -/

/-- `t` is `s` after a command that wrote the tree `loaded` into the tree store, and no byte (R177). -/
structure TreeLoaded (c : Context) (s t : State) (loaded : Tree) : Prop where
  succeeded : Succeeded c s t [] []
  mem : t.mem = s.mem
  dst0Len : t.dst0Len = 0
  dst1Len : t.dst1Len = 0
  tree : t.tree = loaded
  treeNodes : t.treeNodes = BitVec.ofNat 32 loaded.count
  bitcnt : t.bitcnt = s.bitcnt

/-- A command with no destination, whose operation returns a tree alone, loads it (R174, R177). -/
theorem loadsTree {i : Instr} {s : State} {c : Context} {tree : Tree} (hr : s.runs c) (h0 : (usesOf i).dst0 = false)
    (h1 : (usesOf i).dst1 = false) (hok : OperandsOk s.params.memBytes (usesOf i) c.desc)
    (hop : operationOf i (s.opInput (usesOf i) c) = .ok { tree := some tree }) :
    ∃ t, exec i s = .next t ∧ TreeLoaded c s t tree := by
  obtain ⟨hexec, succeeded⟩ := exec_of_result hr hok hop (by simp [h0]) (by simp [h1]) (fun _ => rfl) fun _ => rfl
  exact ⟨_, hexec, succeeded, by simp [writeOutputs, h0, h1], by simp [h0], by simp [h1], rfl, rfl, rfl⟩

/-- Settles O31: TREE_RESET uses no descriptor, so its operands are legal. -/
theorem treeResetEmptiesTheStore : Obligations.TreeResetEmptiesTheStore := by
  refine ⟨fun w => decodeWord_eq_ok_iff, fun s c hr => ?_⟩
  have hok : OperandsOk s.params.memBytes (usesOf .treeReset) c.desc :=
    ⟨nofun, nofun, nofun, nofun, nofun, nofun, nofun, nofun, nofun⟩
  obtain ⟨t, hexec, h⟩ := loadsTree hr rfl rfl hok rfl
  exact ⟨t, hexec, h.succeeded, h.mem, h.tree, h.treeNodes, h.bitcnt⟩

/-- Settles O36: a built tree is legal, so its node count fits TREE_NODES. -/
theorem hufBuildReplacesTheTree : Obligations.HufBuildReplacesTheTree := by
  refine fun s c hr => ⟨checksOperands _ hr, fun hok => ?_⟩
  obtain ⟨t, hexec, h⟩ := loadsTree (tree := build (s.source0 c)) hr rfl rfl hok rfl
  have hnodes : t.treeNodes.toNat = (build (s.source0 c)).count := h.treeNodes ▸ toNat_count (build_wf _)
  exact ⟨t, hexec, h.succeeded, h.mem, h.dst0Len, h.dst1Len, h.tree, hnodes, count_build _, h.bitcnt⟩

/-- Settles O40: what a blob that is read starts with is the node count of its tree. -/
theorem treeDeserializeLoadsTheTree : Obligations.TreeDeserializeLoadsTheTree := by
  refine fun s c hr => ⟨checksOperands _ hr, fun hok => ⟨fun e he => ?_, fun tree htree => ?_⟩⟩
  · have hspec := parseTreeBlob_spec (s.source0 c)
    rw [he] at hspec
    exact ⟨parseTreeBlob_raisesOnly _ e he, hspec,
      operationErrorsEndTheCommand .treeDeserialize s c e hr hok (opTreeDeserialize_corrupt he)⟩
  · obtain ⟨hwf, hblob⟩ := acceptedBlobsAreLegalTrees _ _ htree
    obtain ⟨t, hexec, h⟩ := loadsTree hr rfl rfl hok (opTreeDeserialize_ok htree)
    have hnodes : t.treeNodes.toNat = tree.count := h.treeNodes ▸ toNat_count hwf
    have hcount : bytesLe32 t.treeNodes = (s.source0 c).take 4 := by rw [h.treeNodes, ← hblob, take_treeBlob]
    exact ⟨t, hexec, h.succeeded, h.mem, h.tree, hnodes, hcount, h.bitcnt⟩

/-! ### TREE_SERIALIZE -/

/-- Settles O39: a leaf takes six bytes, an internal node five, and there is one less of these. -/
theorem treeSerializeWritesTheBlob : Obligations.TreeSerializeWritesTheBlob := by
  refine fun s c hr => ⟨checksOperands _ hr, length_treeBlob _, fun hok => ⟨fun hfits => ?_, ?_⟩⟩
  · obtain ⟨hexec, succeeded⟩ := exec_of_result hr hok (i := .treeSerialize) (r := { out0 := treeBlob s.tree }) rfl
      (fun _ => hfits) nofun nofun fun _ => rfl
    exact ⟨_, hexec, succeeded, rfl, rfl, rfl⟩
  · exact (capacityErrorsReportTheLength .treeSerialize s c _ hr hok rfl).1 rfl

/-! ### Bit arrays -/

theorem length_bytesOf (bs : List Bit) : (bytesOf bs).length = bs.length := List.length_map ..

/-- A bit array is read back (R160). -/
theorem bitsFrom_bytesOf (k : Nat) (bs : List Bit) : bitsFrom k (bytesOf bs) = .ok bs := by
  induction bs generalizing k with
  | nil => rfl
  | cons b bs ih => cases b <;> exact congrArg (_ <$> ·) (ih (k + 1))

/-- The first byte that is no bit is BAD_BITS with its index (R160). -/
theorem bitsFrom_badBits {s : Bytes} {k : Nat} {v : Byte} (hv : s[k]? = some v) (hbad : ¬IsBitByte v)
    (hbefore : ∀ u ∈ s.take k, IsBitByte u) (j : Nat) : bitsFrom j s = .error ⟨.badBits, j + k⟩ := by
  induction s generalizing j k with
  | nil => cases hv
  | cons u s ih =>
    rw [bitsFrom]
    cases k with
    | zero =>
      cases hv
      obtain ⟨h0, h1⟩ := not_or.mp hbad
      rw [if_neg h0, if_neg h1]
      rfl
    | succ k =>
      rw [List.take_succ_cons, List.forall_mem_cons] at hbefore
      rw [ih hv hbefore.2, Nat.add_right_comm]
      obtain ⟨rfl | rfl, -⟩ := hbefore <;> rfl

/-! ### HUF_ENCODE and HUF_DECODE -/

/-- Settles O37: the codes take a byte a bit, and encoding ends at the first byte with no code. -/
theorem hufEncodeWritesTheCodes : Obligations.HufEncodeWritesTheCodes := by
  obtain ⟨hcodes, hmisses, -⟩ := huffmanRoundTrip
  refine ⟨fun bs => rfl, fun s c hr => ⟨checksOperands _ hr, fun hok => ⟨fun k v hv hmiss hbefore => ?_, ?_⟩⟩⟩
  · have hmiss := hmisses _ _ k v hv hmiss hbefore
    exact operationErrorsEndTheCommand .hufEncode s c _ hr hok (opHufEncode_miss hmiss)
  · rintro bs hhave rfl
    obtain ⟨writes, fails⟩ := writes_or_capDst0 (i := .hufEncode) hr rfl hok (opHufEncode_ok (hcodes _ _ hhave))
    rw [length_bytesOf] at writes fails
    refine ⟨fun hfits => ?_, fails⟩
    obtain ⟨t, hexec, succeeded, keeps⟩ := writes hfits
    exact ⟨t, hexec, succeeded, succeeded.dst0Len.trans (length_bytesOf _), keeps⟩

/-- The walk fails only at the end of the bits, with their number (R255). -/
theorem walkBits_error {root cur : Node} {exact mid : Bool} {total : Nat} {bs : List Bit} {e : EngineError}
    (h : walkBits root exact total cur mid bs = .error e) : e = ⟨.badBits, total⟩ := by
  induction bs generalizing cur mid with
  | nil =>
    rw [walkBits] at h
    split at h <;> cases h
    rfl
  | cons b bs ih =>
    rw [walkBits] at h
    split at h
    next =>
      cases hrest : walkBits root exact total root false bs with
      | error e' =>
        rw [hrest] at h
        cases h
        exact ih hrest
      | ok out =>
        rw [hrest] at h
        cases h
    next => exact ih h

/-- An error of the decoding is BAD_BITS with the number of bits, or with 0 when there is no tree (R255). -/
theorem hufDecode_error {bs : List Bit} {t : Tree} {exact : Bool} {e : EngineError}
    (h : hufDecode bs t exact = .error e) : e = ⟨.badBits, if t = .empty then 0 else bs.length⟩ := by
  match t with
  | .empty =>
    rw [hufDecode] at h
    split at h <;> cases h
    rfl
  | .node (.leaf v f) => cases h
  | .node (.internal f l r) => exact walkBits_error h

/-- Settles O38: a bit array is read as its bits, and every byte of it is checked before the decoding begins. -/
theorem hufDecodeWritesTheBytes : Obligations.HufDecodeWritesTheBytes := by
  refine fun s c hr => ⟨checksOperands _ hr, fun hok => ⟨fun k v hv hbad hbefore => ?_, fun bs hbs => ?_⟩⟩
  · have hbits : bitsOf (s.source0 c) = .error ⟨.badBits, k⟩ :=
      (bitsFrom_badBits hv hbad hbefore 0).trans (by rw [Nat.zero_add])
    exact operationErrorsEndTheCommand .hufDecode s c _ hr hok (opHufDecode_badBits hbits)
  · have hbits : bitsOf (s.source0 c) = .ok bs := hbs ▸ bitsFrom_bytesOf 0 bs
    have hfails : ∀ e, hufDecode bs s.tree (exactOf c.ctrl) = .error e → FailsWith .hufDecode s c e := fun e he =>
      operationErrorsEndTheCommand .hufDecode s c e hr hok ((opHufDecode_decode hbits).trans (congrArg _ he))
    refine ⟨fun hempty hne => hfails _ ?_, fun e he => ⟨hufDecode_error he, hfails e he⟩, fun out hout => ?_⟩
    · rw [hempty]
      exact if_neg hne
    · exact writes_or_capDst0 hr rfl hok ((opHufDecode_decode hbits).trans (congrArg _ hout))

end Sys2Proof.Machine
end

section
/-! SUPPORT. The bit packer family (43_bitpack.md R300 to R303): unpacking by its cases, that it undoes packing, and the two
commands. -/

namespace Sys2Proof.Machine

/-! ### Unpacking -/

/-- Pad mode keeps every bit of the bytes (R301). -/
theorem unpack_pad (p : Bytes) (x : Nat) : unpack p false x = .ok (p.flatMap bitsMsbFirst) := rfl

/-- A count that names bits of the last byte is the number of bits kept (R301). -/
theorem unpack_exact {p : Bytes} {x : Nat} (hle : x ≤ 8 * p.length) (hlast : 8 * p.length ≤ x + 7) :
    unpack p true x = .ok ((p.flatMap bitsMsbFirst).take x) := by
  have hnamed : ¬(8 * p.length < x ∨ x + 7 < 8 * p.length) := by omega
  exact if_neg hnamed

theorem unpack_badBitcnt {p : Bytes} {x : Nat} (h : 8 * p.length < x ∨ x + 7 < 8 * p.length) :
    unpack p true x = .error ⟨.badBitcnt, x⟩ := if_pos h

/-- Exact mode keeps as many bits as the count says, and pad mode eight a byte (R301). -/
theorem length_of_unpack {p : Bytes} {exact : Bool} {x : Nat} {bs : List Bit} (h : unpack p exact x = .ok bs) :
    bs.length = if exact then x else 8 * p.length := by
  cases exact with
  | false =>
    cases h
    exact length_flatMap_bitsMsbFirst p
  | true =>
    by_cases hbad : 8 * p.length < x ∨ x + 7 < 8 * p.length
    · rw [unpack_badBitcnt hbad] at h
      cases h
    · obtain ⟨hle, hlast⟩ : x ≤ 8 * p.length ∧ 8 * p.length ≤ x + 7 := by omega
      rw [unpack_exact hle hlast] at h
      cases h
      rw [List.length_take, length_flatMap_bitsMsbFirst, Nat.min_eq_left hle, if_pos rfl]

/-- The number of bits of a packed sequence names bits of its last byte, and they are the sequence (R303). -/
theorem unpack_pack_exact (bs : List Bit) : unpack (pack bs) true bs.length = .ok bs := by
  have hbytes := length_pack bs
  rw [unpack_exact (by omega) (by omega), flatMap_bits_pack, List.take_left]

/-- Settles O58: unpacking by its cases, and the bits of the packed bytes. -/
theorem packRoundTrip : Obligations.PackRoundTrip :=
  ⟨fun _ => rfl, fun p x => ⟨unpack_pad p x, unpack_exact, unpack_badBitcnt⟩,
    fun bs _ => ⟨congrArg Except.ok (flatMap_bits_pack bs), unpack_pack_exact bs⟩⟩

/-! ### BIT_PACK and BIT_UNPACK -/

/-- The first byte that is no bit is BAD_BITS with its index (R160). -/
theorem bitsOf_badBits {s : Bytes} {k : Nat} {v : Byte} (hv : s[k]? = some v) (hbad : ¬IsBitByte v)
    (hbefore : ∀ u ∈ s.take k, IsBitByte u) : bitsOf s = .error ⟨.badBits, k⟩ := by
  rw [bitsOf, bitsFrom_badBits hv hbad hbefore, Nat.zero_add]

/-- Settles O41: a bit array has a byte a bit, so the number of its bits fits BITCNT. -/
theorem bitPackWritesThePayload : Obligations.BitPackWritesThePayload := by
  refine fun s c hr => ⟨checksOperands _ hr, fun hok => ⟨fun k v hv hbad hbefore => ?_, fun bs hbs => ?_⟩⟩
  · exact operationErrorsEndTheCommand .bitPack s c _ hr hok (opBitPack_badBits (bitsOf_badBits hv hbad hbefore))
  · have hop : operationOf .bitPack (s.opInput (usesOf .bitPack) c) = .ok { out0 := pack bs, bitcnt := some bs.length } :=
      opBitPack_ok (hbs ▸ bitsFrom_bytesOf 0 bs : bitsOf (s.source0 c) = .ok bs)
    refine ⟨length_pack bs, fun hfits => ?_, (capacityErrorsReportTheLength _ s c _ hr hok hop).1 rfl⟩
    have hlen : bs.length = c.desc.src0Len.toNat := by rw [← length_bytesOf, ← hbs, length_source0]
    have hcount : (BitVec.ofNat 32 bs.length).toNat = bs.length := by rw [hlen, BitVec.ofNat_toNat, BitVec.setWidth_eq]
    obtain ⟨hexec, succeeded⟩ := exec_of_result hr hok hop (fun _ => hfits) nofun nofun fun _ => rfl
    exact ⟨_, hexec, succeeded, hcount, rfl, rfl⟩

/-- Settles O42: the two modes differ in what unpacking returns, and in nothing after it. -/
theorem bitUnpackWritesTheBits : Obligations.BitUnpackWritesTheBits := by
  refine fun s c hr => ⟨checksOperands _ hr, fun hok => ?_⟩
  rw [← length_source0 s c]
  refine ⟨fun hexact hbad => ?_, fun bs hpad hexact => ?_⟩
  · have hunpack : unpack (s.source0 c) (exactOf c.ctrl) c.bitcnt.toNat = .error ⟨.badBitcnt, c.bitcnt.toNat⟩ := by
      rw [exactOf, hexact, unpack_badBitcnt hbad]
    exact operationErrorsEndTheCommand .bitUnpack s c _ hr hok (opBitUnpack_badBitcnt hunpack)
  · have hunpack : unpack (s.source0 c) (exactOf c.ctrl) c.bitcnt.toNat = .ok bs := by
      rw [exactOf]
      cases hmode : c.ctrl.getLsbD 1 with
      | false => rw [unpack_pad, hpad hmode]
      | true =>
        obtain ⟨⟨hle, hlast⟩, rfl⟩ := hexact hmode
        exact unpack_exact hle hlast
    have ends := writes_or_capDst0 (i := .bitUnpack) hr rfl hok (opBitUnpack_ok hunpack)
    rw [length_bytesOf] at ends
    exact ⟨length_of_unpack hunpack, ends⟩

end Sys2Proof.Machine
end

section
/-! SUPPORT. What bytes after a token string make of it (30_encoding.md R141, R147): the spurious bytes that a pad-mode
decoding leaves there (44_pipeline.md R324). -/

namespace Sys2Proof.Machine

/-! ### Token strings -/

/-- Both token strings are read back (R141, R148). -/
theorem parseTokenString_tokenString (binary : Bool) (ts : List Token) :
    parseTokenString binary (tokenString binary ts) = .ok ts := by
  cases binary with
  | false => exact parseTextFrom_text _ 0 ts (length_le_length_text ts)
  | true => exact parseRecsFrom_recs 0 ts

/-! ### Bytes after a text -/

/-- No `)` follows an absent last token, so that the text stands for its tokens whatever else follows (R147). -/
def KeepsLastToken (ts : List Token) (s : Bytes) : Prop :=
  ∀ t, ts.getLast? = some t → t.next = none → s.head? ≠ some chClose

/-- The tokens of a text are read before what follows it (R147). -/
theorem parseTextFrom_text_append {ts : List Token} {s : Bytes} (h : KeepsLastToken ts s) (fuel p : Nat) :
    parseTextFrom (ts.length + fuel) p (text ts ++ s) =
      (ts ++ ·) <$> parseTextFrom fuel (p + (text ts).length) s := by
  induction ts generalizing p with
  | nil => simp
  | cons t ts ih =>
    have hrest : KeepsLastToken ts s ∧ (t.next = none → (text ts ++ s).head? ≠ some chClose) := by
      cases ts with
      | nil => exact ⟨nofun, h t rfl⟩
      | cons u ts => exact ⟨h, fun _ => text_head?_ne_chClose (u :: ts)⟩
    have htoken := parseToken_tokenText p t _ hrest.2
    have hstep : parseTextFrom ((t :: ts).length + fuel) p (text (t :: ts) ++ s) =
        parseToken p (text (t :: ts) ++ s) >>= fun x => parseTextFrom (ts.length + fuel) x.2.1 x.2.2 >>= fun us =>
          .ok (x.1 :: us) := by
      rw [List.length_cons, Nat.add_right_comm, text_cons, tokenText_eq]
      rfl
    rw [hstep, text_cons, List.append_assoc, htoken, List.length_append, ← Nat.add_assoc]
    change parseTextFrom (ts.length + fuel) (p + (tokenText t).length) (text ts ++ s) >>= (fun us => .ok (t :: us)) = _
    rw [ih hrest.1]
    cases parseTextFrom fuel (p + (tokenText t).length + (text ts).length) s <;> rfl

theorem parseText_text_append {ts : List Token} {s : Bytes} (h : KeepsLastToken ts s) :
    ∃ fuel, s.length ≤ fuel ∧
      parseText (text ts ++ s) = (ts ++ ·) <$> parseTextFrom fuel (text ts).length s := by
  have hlen := length_le_length_text ts
  refine ⟨(text ts ++ s).length - ts.length, by rw [List.length_append]; omega, ?_⟩
  rw [← Nat.zero_add (text ts).length, ← parseTextFrom_text_append h,
    Nat.add_sub_cancel' (by rw [List.length_append]; omega)]
  rfl

/-- A byte after a text that starts no token is FORMAT at the end of the text (R147). -/
theorem parseText_text_append_other {ts : List Token} {c : Byte} {s : Bytes} (h : KeepsLastToken ts (c :: s))
    (hc : c ≠ chOpen) : parseText (text ts ++ c :: s) = .error ⟨.format, (text ts).length⟩ := by
  obtain ⟨fuel, hfuel, hparse⟩ := parseText_text_append h
  obtain ⟨fuel, rfl⟩ := Nat.exists_eq_add_of_le' (Nat.zero_lt_of_lt hfuel)
  have htoken : parseToken (text ts).length (c :: s) = formatError (text ts).length := if_neg hc
  rw [hparse, parseTextFrom_succ, htoken]
  rfl

/-- A `(` after a text, with no digit after it, is FORMAT one byte further (R147). -/
theorem parseText_text_append_open {ts : List Token} {s : Bytes} (h : startsWithDigit s = false) :
    parseText (text ts ++ chOpen :: s) = .error ⟨.format, (text ts).length + 1⟩ := by
  obtain ⟨fuel, hfuel, hparse⟩ := parseText_text_append (ts := ts) (s := chOpen :: s) fun _ _ _ => nofun
  obtain ⟨fuel, rfl⟩ := Nat.exists_eq_add_of_le' (Nat.zero_lt_of_lt hfuel)
  have hnumber : parseNumber ((text ts).length + 1) s = formatError ((text ts).length + 1) := by
    cases s with
    | nil => rfl
    | cons c s => exact parseNumber_other _ h s
  have htoken : parseToken (text ts).length (chOpen :: s) = formatError ((text ts).length + 1) := by
    rw [parseToken, if_pos rfl, hnumber]
    rfl
  rw [hparse, parseTextFrom_succ, htoken]
  rfl

/-- Copies of a byte other than `)` after a text are FORMAT at its end, or one further when the byte is `(` (R147). -/
theorem parseText_text_append_copies (ts : List Token) {v : Byte} {n : Nat} (hn : 0 < n) (hv : v ≠ chClose) :
    parseText (text ts ++ List.replicate n v) = .error ⟨.format, (text ts).length + if v = chOpen then 1 else 0⟩ := by
  obtain ⟨n, rfl⟩ := Nat.exists_eq_add_of_le' hn
  rw [List.replicate_succ]
  split
  next hopen =>
    subst hopen
    exact parseText_text_append_open (by cases n <;> rfl)
  next hopen => exact parseText_text_append_other (fun _ _ _ h => hv (Option.some.inj h)) hopen

/-! ### Bytes after a record stream -/

theorem parseRecsFrom_recs_append (p : Nat) (ts : List Token) (s : Bytes) :
    parseRecsFrom p (recs ts ++ s) = (ts ++ ·) <$> parseRecsFrom (p + (recs ts).length) s := by
  induction ts generalizing p with
  | nil => simp [recs]
  | cons t ts ih =>
    rw [recs_cons, List.append_assoc, parseRecsFrom_tokenRecord, ih, List.length_append, length_tokenRecord, Nat.add_assoc,
      ← comp_map]
    rfl

theorem parseRecsFrom_truncated {s : Bytes} (hne : s ≠ []) (hlen : s.length < 10) (p : Nat) :
    parseRecsFrom p s = formatError p := by
  rw [parseRecsFrom]
  · exact hne
  · rintro o0 o1 o2 o3 l0 l1 l2 l3 flag value rest rfl
    simp only [List.length_cons] at hlen
    omega

/-- Copies of a byte after a record stream, fewer than a record takes, are FORMAT at its end (R141). -/
theorem parseRecs_recs_append_copies {ts : List Token} {v : Byte} {n : Nat} (hn : 0 < n) (hfew : n < 10) :
    parseRecs (recs ts ++ List.replicate n v) = .error ⟨.format, (recs ts).length⟩ := by
  have hlen : (List.replicate n v).length = n := List.length_replicate
  rw [parseRecs, parseRecsFrom_recs_append, parseRecsFrom_truncated (List.ne_nil_of_length_pos (by omega)) (by omega),
    Nat.zero_add]
  rfl

/-! ### An absent last token with a `)` after it -/

/-- The token with the next byte `)`. -/
def Token.closed (t : Token) : Token := { t with next := some chClose }

/-- A `)` after an absent last token is read as its next byte (R147). -/
theorem text_append_chClose {ts : List Token} {t : Token} (h : t.next = none) :
    text (ts ++ [t]) ++ [chClose] = text (ts ++ [t.closed]) := by
  simp [text, Token.closed, tokenText, h]

/-- A `)` after a last token that is not absent is FORMAT at the end of the text (R147). -/
theorem parseText_close_present {ts : List Token} {t : Token} (ht : ts.getLast? = some t) (hnext : t.next ≠ none)
    (s : Bytes) : parseText (text ts ++ chClose :: s) = .error ⟨.format, (text ts).length⟩ := by
  refine parseText_text_append_other (fun u hu hnone => ?_) (by decide)
  rw [ht] at hu
  cases hu
  exact absurd hnone hnext

/-- Closing brackets after an absent last token: the first one is its next byte, and a second one starts no token (R147). -/
theorem parseText_closes_absent {ts : List Token} {t : Token} (h : t.next = none) (n : Nat) :
    parseText (text (ts ++ [t]) ++ List.replicate (n + 1) chClose) =
      if n = 0 then .ok (ts ++ [t.closed]) else .error ⟨.format, (text (ts ++ [t])).length + 1⟩ := by
  rw [List.replicate_succ, List.append_cons, text_append_chClose h]
  cases n with
  | zero => exact (congrArg parseText (List.append_nil _)).trans (parseTokenString_tokenString false _)
  | succ n =>
    have hclosed := parseText_close_present (t := t.closed) (List.getLast?_concat (l := ts)) (Option.some_ne_none _)
    rw [List.replicate_succ, hclosed, ← text_append_chClose h, List.length_append]
    rfl

/-- The next byte of the last token is the last byte of the output (R203). -/
theorem replay_closed {ts : List Token} {t : Token} {out : Bytes} (h : t.next = none)
    (hreplay : replay (ts ++ [t]) = .ok out) : replay (ts ++ [t.closed]) = .ok (out ++ [chClose]) := by
  have hbegin := hreplay
  rw [replay, replayFrom_append] at hbegin
  obtain ⟨before, hbefore, -⟩ := bind_eq_ok hbegin
  obtain ⟨hgood, rfl⟩ := replay_snoc_ok hbefore hreplay
  rw [replay_append_of_ok _ hbefore, replayFrom_of_good _ _ (t := t.closed) hgood, replayFrom]
  simp [replayToken, Token.closed, h]

end Sys2Proof.Machine
end

section
/-! SUPPORT. Decoding the padding zeros of a payload in pad mode (42_huffman.md R255, 44_pipeline.md R324), and that the token
string of an input is never the string of a single leaf (R320). -/

namespace Sys2Proof.Machine

/-! ### Padding zeros -/

/-- The left steps of the leftmost leaf are its path. -/
theorem pathTo_leftmostLeaf (n : Node) :
    Node.PathTo (leftmostLeaf n).1 n (List.replicate (leftmostLeaf n).2 false) := by
  induction n with
  | leaf v f => exact .here f
  | internal f l r ihl _ => exact .left f l r _ ihl

/-- From the root, zeros decode to as many copies of the leftmost leaf as its depth goes into their number; the rest of them is
a partial path, which pad mode drops (R324). -/
theorem walkBits_zeros {root : Node} (hd : 0 < (leftmostLeaf root).2) (total k : Nat) :
    walkBits root false total root false (List.replicate k false) =
      .ok (List.replicate (k / (leftmostLeaf root).2) (leftmostLeaf root).1) := by
  have hpath := pathTo_leftmostLeaf root
  induction k using Nat.strong_induction_on with
  | _ k ih =>
    obtain hlt | hle := Nat.lt_or_ge k (leftmostLeaf root).2
    · rw [Nat.div_eq_of_lt hlt]
      obtain rfl | hk := Nat.eq_zero_or_pos k
      · rfl
      · rw [← Nat.add_sub_cancel' hlt.le, List.replicate_add] at hpath
        exact walkBits_partial _ _ _ hpath (by simp; omega) false (.inr (by simp; omega))
    · rw [← Nat.add_sub_cancel' hle, List.replicate_add, walkBits_pathTo _ _ _ hpath (by simp; omega),
        ih _ (by omega), Nat.add_div_left _ hd]
      rfl

/-- The codes of some bytes, and zeros after them, decode in pad mode to the bytes and copies of the leftmost leaf (R324). -/
theorem hufDecode_append_zeros {root : Node} {vs : Bytes} {bs : List Bit} (hd : 0 < (leftmostLeaf root).2)
    (h : hufEncode vs (.node root) = .ok bs) (k : Nat) :
    hufDecode (bs ++ List.replicate k false) (.node root) false =
      .ok (vs ++ List.replicate (k / (leftmostLeaf root).2) (leftmostLeaf root).1) := by
  match root with
  | .leaf v f => cases hd
  | .internal f l r =>
    rw [hufDecode_internal, walkBits_of_hufEncodeFrom _ _ h, walkBits_zeros hd]
    rfl

/-! ### Trees of token strings -/

/-- With two distinct leaves the leftmost one lies below the root. -/
theorem leftmostLeaf_pos {root : Node} {u v : Byte} (hu : u ∈ root.leafValues) (hv : v ∈ root.leafValues) (huv : u ≠ v) :
    0 < (leftmostLeaf root).2 := by
  match root with
  | .leaf w f => exact absurd ((List.mem_singleton.mp hu).trans (List.mem_singleton.mp hv).symm) huv
  | .internal f l r => exact Nat.succ_pos _

/-- An input that is not empty has tokens. -/
theorem lz77_ne_nil (tie : LzTie) {s : Bytes} (hs : s ≠ []) : lz77 tie s ≠ [] := by
  have hpos := List.length_pos_iff.mpr hs
  obtain ⟨fuel, hfuel⟩ := Nat.exists_eq_add_of_le' hpos
  rw [lz77, hfuel, lz77From_of_lt tie s fuel hpos]
  nofun

/-- The record of a token of `lz77` has the last byte of its offset, which is 0, and a byte that is not: its flag, or a byte of
its length (R320). -/
theorem tokenRecord_two_bytes {t : Token} (hoff : t.offset.toNat ≤ 32768) (hnext : t.next = none → 1 ≤ t.length.toNat) :
    0x00#8 ∈ tokenRecord t ∧ ∃ b ∈ tokenRecord t, b ≠ 0x00#8 := by
  obtain ⟨offset, length, next⟩ := t
  have hlast : offset.extractLsb' 24 8 = 0x00#8 := by
    rw [← BitVec.toNat_inj, BitVec.extractLsb'_toNat, Nat.shiftRight_eq_div_pow,
      Nat.div_eq_of_lt (hoff.trans_lt (by decide))]
    rfl
  refine ⟨by simp [tokenRecord, bytesLe32, hlast], ?_⟩
  cases next with
  | some b => exact ⟨0x01#8, by simp [tokenRecord], by decide⟩
  | none =>
    by_contra! hzero
    have hbytes : ∀ b ∈ bytesLe32 length, b = 0x00#8 := fun b hb => hzero b (by simp [tokenRecord, hb])
    simp only [bytesLe32, List.forall_mem_cons] at hbytes
    obtain ⟨h0, h1, h2, h3, -⟩ := hbytes
    have hlength : length = 0 := by
      rw [← le32_bytesLe32 length, h0, h1, h2, h3]
      rfl
    have := hnext rfl
    simp [hlength] at this

/-- The token string of an input that is not empty has two distinct bytes: brackets, or those of its first record (R320). -/
theorem tokenString_two_bytes (binary : Bool) (tie : LzTie) {s : Bytes} (hne : s ≠ []) (hs : s.length ≤ 2147483647) :
    ∃ u ∈ tokenString binary (lz77 tie s), ∃ v ∈ tokenString binary (lz77 tie s), u ≠ v := by
  obtain ⟨t, ts, htoks⟩ := List.exists_cons_of_ne_nil (lz77_ne_nil tie hne)
  cases binary with
  | false =>
    exact ⟨chOpen, by simp [tokenString, htoks, text_cons, tokenText], chClose,
      by simp [tokenString, htoks, text_cons, tokenText], by decide⟩
  | true =>
    obtain ⟨hbounds, habsent, -⟩ := lzTokenBounds tie s hs
    obtain ⟨hoff, -⟩ := hbounds t (htoks ▸ List.mem_cons_self)
    obtain ⟨hzero, b, hb, hbne⟩ := tokenRecord_two_bytes hoff fun hnext => (habsent 0 t (by rw [htoks]; rfl) hnext).2
    exact ⟨b, by simp [tokenString, htoks, recs_cons, hb], 0x00#8, by simp [tokenString, htoks, recs_cons, hzero], hbne⟩

end Sys2Proof.Machine
end

section
/-! SUPPORT. The pipeline family (44_pipeline.md R320 to R324): what the two operations make of each other's results, and how the
two commands end. -/

namespace Sys2Proof.Machine

/-! ### Stages -/

/-- A composition whose first part answers goes on with the answer. -/
theorem bind_of_ok {α β : Type} {x : Except EngineError α} {f : α → Except EngineError β} {a : α} (h : x = .ok a) :
    x >>= f = f a := by
  rw [h]
  rfl

theorem bind_of_error {α β : Type} {x : Except EngineError α} {f : α → Except EngineError β} {e : EngineError}
    (h : x = .error e) : x >>= f = .error e := by
  rw [h]
  rfl

theorem scratchCheck_ok_iff {capacity : Option Nat} {n : Nat} {u : Unit} :
    scratchCheck capacity n = .ok u ↔ FitsScratch capacity n := by
  refine ⟨fun h => ?_, scratchCheck_ok⟩
  by_contra hfits
  rw [scratchCheck_error hfits] at h
  cases h

theorem bitCountCheck_ok_iff {m : Nat} {u : Unit} : bitCountCheck m = .ok u ↔ m ≤ 4294967295 := by
  simp [bitCountCheck, Config.maxU32]

theorem bitCountCheck_error {m : Nat} (h : 4294967295 < m) : bitCountCheck m = .error ⟨.scratch, min m 4294967295⟩ := by
  rw [Nat.min_eq_right h.le]
  exact if_pos h

/-! ### COMPRESS -/

/-- The bits of a string: the codes of its bytes in its own tree (R254). -/
def codeBits (s : Bytes) : List Bit := s.flatMap fun v => (code (build s) v).getD []

/-- A string never misses a code in its own tree (R263). -/
theorem hufEncode_build (s : Bytes) : hufEncode s (build s) = .ok (codeBits s) :=
  hufEncodeFrom_of_codes (fun _ hv => code_ne_none_iff.mpr (mem_leafValues_build_iff.mpr hv)) 0

/-- What COMPRESS returns for the token string `s` (R320). -/
def compressedResult (s : Bytes) : OpResult where
  out0 := treeBlob (build s)
  out1 := pack (codeBits s)
  tree := some (build s)
  bitcnt := some (codeBits s).length

/-- The token string of a COMPRESS (R320). -/
def OpInput.tokenString (x : OpInput) : Bytes := Machine.tokenString (tokfmtOf x.ctrl) (lz77 x.params.lzTie x.src0)

theorem OpInput.tokenString_text {x : OpInput} (h : x.ctrl.getLsbD 0 = false) :
    x.tokenString = text (lz77 x.params.lzTie x.src0) := by
  rw [OpInput.tokenString, tokfmtOf, h]
  rfl

theorem OpInput.tokenString_binary {x : OpInput} (h : x.ctrl.getLsbD 0 = true) :
    x.tokenString = recs (lz77 x.params.lzTie x.src0) := by
  rw [OpInput.tokenString, tokfmtOf, h]
  rfl

/-- The token string is read back in its own format (R141, R148). -/
theorem OpInput.parse_tokenString (x : OpInput) :
    parseTokenString (x.ctrl.getLsbD 0) x.tokenString = .ok (lz77 x.params.lzTie x.src0) :=
  parseTokenString_tokenString _ _

/-- COMPRESS is its checks, and then a result that cannot fail (R320). -/
theorem opCompress_eq (x : OpInput) : opCompress x =
    scratchCheck x.params.scratchBytes (10 * (lz77 x.params.lzTie x.src0).length) >>= fun _ =>
    scratchCheck x.params.scratchBytes x.tokenString.length >>= fun _ =>
    scratchCheck x.params.scratchBytes (packedLength (codeBits x.tokenString).length) >>= fun _ =>
    bitCountCheck (codeBits x.tokenString).length >>= fun _ => .ok (compressedResult x.tokenString) := by
  simp only [opCompress, OpInput.tokenString, compressedResult, bind_of_ok (hufEncode_build _)]

theorem opCompress_of_fits {x : OpInput} (htoks : FitsScratch x.params.scratchBytes (10 * (lz77 x.params.lzTie x.src0).length))
    (hstring : FitsScratch x.params.scratchBytes x.tokenString.length)
    (hbits : FitsScratch x.params.scratchBytes (packedLength (codeBits x.tokenString).length))
    (hcount : (codeBits x.tokenString).length ≤ 4294967295) : opCompress x = .ok (compressedResult x.tokenString) := by
  rw [opCompress_eq, bind_of_ok (scratchCheck_ok htoks), bind_of_ok (scratchCheck_ok hstring),
    bind_of_ok (scratchCheck_ok hbits), bind_of_ok (bitCountCheck_ok_iff (u := ()).mpr hcount)]

/-- What a COMPRESS that returns has returned, and which checks it has passed (R320). -/
theorem opCompress_ok {x : OpInput} {r : OpResult} (h : opCompress x = .ok r) :
    FitsScratch x.params.scratchBytes (10 * (lz77 x.params.lzTie x.src0).length) ∧
      FitsScratch x.params.scratchBytes x.tokenString.length ∧
      FitsScratch x.params.scratchBytes (packedLength (codeBits x.tokenString).length) ∧
      (codeBits x.tokenString).length ≤ 4294967295 ∧ r = compressedResult x.tokenString := by
  rw [opCompress_eq] at h
  obtain ⟨_, htoks, h⟩ := bind_eq_ok h
  obtain ⟨_, hstring, h⟩ := bind_eq_ok h
  obtain ⟨_, hbits, h⟩ := bind_eq_ok h
  obtain ⟨_, hcount, h⟩ := bind_eq_ok h
  cases h
  exact ⟨scratchCheck_ok_iff.mp htoks, scratchCheck_ok_iff.mp hstring, scratchCheck_ok_iff.mp hbits,
    bitCountCheck_ok_iff.mp hcount, rfl⟩

/-! ### DECOMPRESS over what COMPRESS returns -/

/-- Once the payload is decoded, DECOMPRESS parses and replays (R322). -/
theorem opDecompress_of_decoded {y : OpInput} {t : Tree} {bs : List Bit} {ts : Bytes} (hblob : parseTreeBlob y.src0 = .ok t)
    (hbits : unpack y.src1 (exactOf y.ctrl) y.bitcnt.toNat = .ok bs)
    (hbitsFit : FitsScratch y.params.scratchBytes (packedLength bs.length))
    (hstring : hufDecode bs t (exactOf y.ctrl) = .ok ts) (hstringFits : FitsScratch y.params.scratchBytes ts.length) :
    opDecompress y = parseTokenString (tokfmtOf y.ctrl) ts >>= fun toks =>
      scratchCheck y.params.scratchBytes (10 * toks.length) >>= fun _ => replay toks >>= fun out =>
      .ok { out0 := out, tree := some t } := by
  rw [opDecompress, bind_of_ok hblob, bind_of_ok hbits, bind_of_ok (scratchCheck_ok hbitsFit), bind_of_ok hstring,
    bind_of_ok (scratchCheck_ok hstringFits)]

/-- Settles O59: each stage of DECOMPRESS undoes the stage of COMPRESS, and its intermediates are those that did fit. -/
theorem pipelineRoundTrip : Obligations.PipelineRoundTrip := by
  intro x y r m hs hr hm hparams hsrc0 hsrc1 hbitcnt hexact hformat
  obtain ⟨htoks, hstring, hbits, hcount, rfl⟩ := opCompress_ok hr
  cases hm
  have hblob : parseTreeBlob y.src0 = .ok (build x.tokenString) := by
    rw [hsrc0]
    exact parseTreeBlob_treeBlob (build_wf _)
  have hunpack : unpack y.src1 (exactOf y.ctrl) y.bitcnt.toNat = .ok (codeBits x.tokenString) := by
    rw [hsrc1, exactOf, hexact, hbitcnt, BitVec.toNat_ofNat, Nat.mod_eq_of_lt (by omega)]
    exact unpack_pack_exact _
  rw [← hparams] at hstring hbits
  rw [opDecompress_of_decoded hblob hunpack hbits (hufDecode_of_hufEncode (hufEncode_build _) _) hstring, tokfmtOf, hformat,
    bind_of_ok x.parse_tokenString, hparams, bind_of_ok (scratchCheck_ok htoks), bind_of_ok (lzRoundTrip _ _ hs)]
  rfl

/-! ### Pad mode -/

/-- The number of padding zeros of a payload of `m` bits (R161). -/
def paddingBits (m : Nat) : Nat := (8 - m % 8) % 8

/-- In pad mode DECOMPRESS parses what the payload of COMPRESS decodes to with its padding zeros (R322). -/
theorem opDecompress_padded {x y : OpInput} {ts : Bytes} (hscratch : y.params.scratchBytes = none)
    (hsrc0 : y.src0 = (compressedResult x.tokenString).out0) (hsrc1 : y.src1 = (compressedResult x.tokenString).out1)
    (hpad : y.ctrl.getLsbD 1 = false) (hstring : hufDecode (codeBits x.tokenString ++
      List.replicate (paddingBits (codeBits x.tokenString).length) false) (build x.tokenString) false = .ok ts) :
    opDecompress y = parseTokenString (tokfmtOf y.ctrl) ts >>= fun toks => replay toks >>= fun out =>
      .ok { out0 := out, tree := some (build x.tokenString) } := by
  have hmode : exactOf y.ctrl = false := hpad
  have hblob : parseTreeBlob y.src0 = .ok (build x.tokenString) := hsrc0 ▸ parseTreeBlob_treeBlob (build_wf _)
  have hunpack : unpack y.src1 (exactOf y.ctrl) y.bitcnt.toNat =
      .ok (codeBits x.tokenString ++ List.replicate (paddingBits (codeBits x.tokenString).length) false) := by
    rw [hsrc1, hmode, unpack_pad]
    exact congrArg Except.ok (flatMap_bits_pack _)
  have hfits : ∀ n, FitsScratch y.params.scratchBytes n := hscratch ▸ fun n => nofun
  rw [opDecompress_of_decoded hblob hunpack (hfits _) (by rw [hmode, hstring]) (hfits _), hscratch]
  rfl

/-- The empty input has no tokens, and so the empty token string. -/
theorem OpInput.tokenString_of_empty {x : OpInput} (h : x.src0 = []) : x.tokenString = [] := by
  rw [OpInput.tokenString, h]
  cases tokfmtOf x.ctrl <;> rfl

/-- The input of a tree that is not `EMPTY` is not empty, and the leftmost leaf lies below the root (R320). -/
theorem leftmostLeaf_build_pos {x : OpInput} {root : Node} (hs : x.src0.length ≤ 2147483647)
    (htree : build x.tokenString = .node root) : 0 < (leftmostLeaf root).2 := by
  have hne : x.src0 ≠ [] := fun hempty => by
    rw [x.tokenString_of_empty hempty, build_nil] at htree
    cases htree
  obtain ⟨u, hu, v, hv, huv⟩ := tokenString_two_bytes (tokfmtOf x.ctrl) x.params.lzTie hne hs
  have hleaf : ∀ w ∈ x.tokenString, w ∈ root.leafValues := fun w hw => by
    rw [← mem_leafValues_build_iff, htree] at hw
    exact hw
  exact leftmostLeaf_pos (hleaf u hu) (hleaf v hv) huv

/-- Settles O60: without a spurious byte the token string is the one of COMPRESS; else each clause says what the first one is
to the parser. Only a `)` after an absent token is read, as its next byte. -/
theorem padModeOutcome : Obligations.PadModeOutcome := by
  intro x y r m hs hscratch hr hm hparams hsrc0 hsrc1 hpad hformat
  obtain ⟨-, -, -, -, rfl⟩ := opCompress_ok hr
  cases hm
  have hdecompress {ts : Bytes} := opDecompress_padded (ts := ts) (hparams ▸ hscratch) hsrc0 hsrc1 hpad
  refine ⟨fun hempty => ?_, fun hne => ?_, fun root k hroot hk => ?_⟩
  · have hstring := x.tokenString_of_empty hempty
    rw [hstring] at hdecompress ⊢
    rw [build_nil] at hdecompress
    refine ⟨rfl, congrArg some build_nil, (hdecompress rfl).trans ?_⟩
    cases tokfmtOf y.ctrl <;> rfl
  · obtain ⟨u, hu, -⟩ := tokenString_two_bytes (tokfmtOf x.ctrl) x.params.lzTie hne hs
    obtain ⟨root, htree, -⟩ := mergesTo_build (List.ne_nil_of_mem hu)
    exact ⟨root, congrArg some htree⟩
  · have htree : build x.tokenString = .node root := Option.some.inj hroot
    have hd := leftmostLeaf_build_pos hs htree
    have hcodes : hufEncode x.tokenString (.node root) = .ok (codeBits x.tokenString) := htree ▸ hufEncode_build _
    have hdecompress := hdecompress (htree ▸ hufDecode_append_zeros hd hcodes _)
    rw [paddingBits, ← hk, tokfmtOf, hformat, htree] at hdecompress
    rw [hroot]
    have hpos : (leftmostLeaf root).2 ≤ k → 0 < k / (leftmostLeaf root).2 := fun hle => Nat.div_pos hle hd
    refine ⟨fun hlt => ?_, fun hle hbinary => ?_, fun hle htext hv => ?_, fun hle htext hv => ⟨fun t ht hnext => ?_, ?_⟩⟩
    · rw [Nat.div_eq_of_lt hlt, List.replicate_zero, List.append_nil, x.parse_tokenString] at hdecompress
      exact hdecompress.trans (bind_of_ok (lzRoundTrip _ _ hs))
    · have hfew : k / (leftmostLeaf root).2 < 10 := (Nat.div_le_self ..).trans_lt (by omega)
      rw [x.tokenString_binary hbinary, hbinary] at hdecompress
      exact hdecompress.trans (bind_of_error (parseRecs_recs_append_copies (hpos hle) hfew))
    · rw [x.tokenString_text htext, htext] at hdecompress
      exact hdecompress.trans (bind_of_error (parseText_text_append_copies _ (hpos hle) hv))
    · obtain ⟨n, hn⟩ := Nat.exists_eq_add_of_le' (hpos hle)
      rw [x.tokenString_text htext, htext, hv, hn, List.replicate_succ] at hdecompress
      exact hdecompress.trans (bind_of_error (parseText_close_present ht hnext _))
    · intro t ht hnext
      obtain ⟨ts, hts⟩ := List.getLast?_eq_some_iff.mp ht
      obtain ⟨n, hn⟩ := Nat.exists_eq_add_of_le' (hpos hle)
      have hone_iff : n = 0 ↔ k < 2 * (leftmostLeaf root).2 := by
        rw [← Nat.div_lt_iff_lt_mul hd]
        omega
      have hparse := parseText_closes_absent (ts := ts) hnext n
      rw [x.tokenString_text htext, htext, hv, hn, hts] at hdecompress
      rw [hts]
      refine ⟨fun hone => ?_, fun htwo => ?_⟩
      · rw [if_pos (hone_iff.mpr hone)] at hparse
        have hreplay := replay_closed hnext (hts ▸ lzRoundTrip _ _ hs)
        exact hdecompress.trans ((bind_of_ok hparse).trans (bind_of_ok hreplay))
      · rw [if_neg (mt hone_iff.mp (Nat.not_lt.mpr htwo))] at hparse
        exact hdecompress.trans (bind_of_error hparse)

/-! ### How the commands end -/

/-- The error of the stage that an operation has reached ends its command (R174, R176). -/
theorem failsWith_of_stage {i : Instr} {s : State} {c : Context} {α : Type} {x : Except EngineError α}
    {f : α → Except EngineError OpResult} {e : EngineError} (hr : s.runs c)
    (hok : OperandsOk s.params.memBytes (usesOf i) c.desc) (hop : operationOf i (s.opInput (usesOf i) c) = x >>= f)
    (h : x = .error e) : FailsWith i s c e :=
  operationErrorsEndTheCommand i s c e hr hok (hop.trans (bind_of_error h))

/-- Settles O43: the operation is a row of checks, and what it returns after them is fixed by the token string. -/
theorem compressWritesBlobAndPayload : Obligations.CompressWritesBlobAndPayload := by
  rintro s c toks ts hr rfl htext hbinary
  obtain rfl : ts = (s.opInput (usesOf .compress) c).tokenString := by
    cases hfmt : c.ctrl.getLsbD 0 with
    | false => exact (htext hfmt).trans (OpInput.tokenString_text (x := s.opInput (usesOf .compress) c) hfmt).symm
    | true => exact (hbinary hfmt).trans (OpInput.tokenString_binary (x := s.opInput (usesOf .compress) c) hfmt).symm
  refine ⟨checksOperands _ hr, _, hufEncode_build _, fun hok => ⟨?_, fun htoks hstring hbits hcount => ?_⟩⟩
  · have hop : operationOf .compress (s.opInput (usesOf .compress) c) = _ := opCompress_eq _
    rintro need (⟨htoks, rfl⟩ | ⟨htoks, hneed⟩)
    · exact failsWith_of_stage hr hok hop (scratchCheck_error htoks)
    have hop := hop.trans (bind_of_ok (scratchCheck_ok htoks))
    obtain ⟨hstring, rfl⟩ | ⟨hstring, hneed⟩ := hneed
    · exact failsWith_of_stage hr hok hop (scratchCheck_error hstring)
    have hop := hop.trans (bind_of_ok (scratchCheck_ok hstring))
    obtain ⟨hbits, rfl⟩ | ⟨hbits, hcount, rfl⟩ := hneed
    · exact failsWith_of_stage hr hok hop (scratchCheck_error hbits)
    · exact failsWith_of_stage hr hok (hop.trans (bind_of_ok (scratchCheck_ok hbits))) (bitCountCheck_error hcount)
  · have hop : operationOf .compress (s.opInput (usesOf .compress) c) = _ :=
      opCompress_of_fits htoks hstring hbits hcount
    obtain ⟨capDst0, capDst1⟩ := capacityErrorsReportTheLength .compress s c _ hr hok hop
    refine ⟨capDst0 rfl, fun hfits0 => capDst1 (fun _ => hfits0) rfl, fun hfits0 hfits1 => ?_⟩
    obtain ⟨hexec, succeeded⟩ := exec_of_result hr hok hop (fun _ => hfits0) (fun _ => hfits1) nofun nofun
    exact ⟨_, hexec, succeeded, rfl, toNat_count (build_wf _), (BitVec.toNat_ofNat ..).trans (Nat.mod_eq_of_lt (by omega))⟩

/-- The payload's error is BAD_BITCNT with the count (R301). -/
theorem unpack_error {p : Bytes} {exact : Bool} {x : Nat} {e : EngineError} (h : unpack p exact x = .error e) :
    e = ⟨.badBitcnt, x⟩ := by
  cases exact with
  | false => cases h
  | true =>
    rw [unpack, if_pos rfl] at h
    split at h <;> cases h
    rfl

/-- An error of a tree blob is CORRUPT_TREE at its fault (R259). -/
theorem parseTreeBlob_error {b : Bytes} {e : EngineError} (h : parseTreeBlob b = .error e) :
    e.code = .corruptTree ∧ BlobFaultAt b e.info := by
  have hspec := parseTreeBlob_spec b
  rw [h] at hspec
  exact ⟨parseTreeBlob_raisesOnly b e h, hspec⟩

/-- An error of a token string is FORMAT at the first fault of its format (R141, R147). -/
theorem parseTokenString_error {binary : Bool} {s : Bytes} {e : EngineError} (h : parseTokenString binary s = .error e) :
    e.code = .format ∧ (binary = false → TextFaultAt s e.info) ∧ (binary = true → RecordFaultAt s e.info) := by
  cases binary with
  | false => exact ⟨(parseText_error h).1, fun _ => (parseText_error h).2, nofun⟩
  | true => exact ⟨(parseRecs_error h).1, nofun, fun _ => (parseRecs_error h).2⟩

/-- Settles O44: the stages of the operation one after the other. An error of one ends the command, and after an answer the
operation is what follows. -/
theorem decompressWritesTheBytes : Obligations.DecompressWritesTheBytes := by
  refine ⟨fun _ => ⟨rfl, rfl⟩, fun s c hr => ⟨checksOperands _ hr, fun hok => ?_⟩⟩
  have fails {α : Type} {x : Except EngineError α} {f : α → Except EngineError OpResult} {e : EngineError} :
      operationOf .decompress (s.opInput (usesOf .decompress) c) = x >>= f → x = .error e → FailsWith .decompress s c e :=
    failsWith_of_stage hr hok
  have hop : operationOf .decompress (s.opInput (usesOf .decompress) c) = parseTreeBlob (s.source0 c) >>= _ := rfl
  refine ⟨fun e he => ?_, fun t1 hblob => ?_⟩
  · obtain ⟨hcode, hfault⟩ := parseTreeBlob_error he
    exact ⟨hcode, hfault, fails hop he⟩
  have hop := hop.trans (bind_of_ok hblob)
  refine ⟨fun e he => ⟨unpack_error he, fails hop he⟩, fun bs hbits => ?_⟩
  have hop := hop.trans (bind_of_ok hbits)
  refine ⟨fun hfits => fails hop (scratchCheck_error hfits), fun hfits => ?_⟩
  have hop := hop.trans (bind_of_ok (scratchCheck_ok hfits))
  refine ⟨fun e he => ⟨hufDecode_error he, fails hop he⟩, fun ts hstring => ?_⟩
  have hop := hop.trans (bind_of_ok hstring)
  refine ⟨fun hfits => fails hop (scratchCheck_error hfits), fun hfits => ?_⟩
  have hop := hop.trans (bind_of_ok (scratchCheck_ok hfits))
  refine ⟨fun e he => ?_, fun toks htoks => ?_⟩
  · obtain ⟨hcode, htext, hbinary⟩ := parseTokenString_error he
    exact ⟨hcode, htext, hbinary, fails hop he⟩
  have hop := hop.trans (bind_of_ok htoks)
  refine ⟨fun hfits => fails hop (scratchCheck_error hfits), fun hfits => ?_⟩
  have hop := hop.trans (bind_of_ok (scratchCheck_ok hfits))
  refine ⟨fun e he => ?_, fun out hout => ?_⟩
  · obtain ⟨hcode, hfirst⟩ := replay_error he
    exact ⟨hcode, hfirst, fails hop he⟩
  have hop := hop.trans (bind_of_ok hout)
  refine ⟨(capacityErrorsReportTheLength .decompress s c _ hr hok hop).1 rfl, fun hfits => ?_⟩
  obtain ⟨hexec, succeeded⟩ := exec_of_result hr hok hop (fun _ => hfits) nofun nofun fun _ => rfl
  exact ⟨_, hexec, succeeded, rfl, toNat_count (acceptedBlobsAreLegalTrees _ _ hblob).1, rfl⟩

end Sys2Proof.Machine
end

section
/-! SUPPORT. Reset (70_reset_and_hazards.md R400 to R403): the state after power-on, and that a reset gives it whatever runs. -/

namespace Sys2Proof.Machine

/-! ### The state after power-on -/

/-- The standard parameters are legal (R8, R10, R81). -/
theorem Params.wf_standard : Params.standard.wf = true := by decide

/-- After power-on no byte is written, so that every byte is the free value of the draw (R401). -/
@[simp] theorem State.powerOn_byte (p : Params) (draw a : Nat) :
    (State.powerOn p draw).mem.byte a = Config.freeByte draw a := rfl

/-- Settles O16: every register by its name, and the offsets with none. -/
theorem resetState : Obligations.ResetState := by
  refine ⟨⟨Params.standard, 0, Params.wf_standard, rfl⟩, fun p draw => ?_⟩
  have hoperands : ∀ r ∈ [RegName.src0Addr, .src0Len, .src1Addr, .src1Len, .dst0Addr, .dst0Cap, .dst1Addr, .dst1Cap,
      .dst0Len, .dst1Len], (State.powerOn p draw).readReg r = 0#32 := by
    simp [State.readReg, State.powerOn]
  exact ⟨rfl, rfl, rfl, rfl, rfl, rfl, rfl, rfl, hoperands, fun _ h1 h2 => State.readOffset_reserved _ h1 h2, rfl, rfl,
    rfl, State.powerOn_byte p draw⟩

/-- Power-on with legal parameters meets the invariant (R400). -/
theorem State.inv_powerOn {p : Params} (hp : p.wf = true) (draw : Nat) : (State.powerOn p draw).Inv where
  params := hp
  ctrlReserved := by simp [State.powerOn, ctrlStored]
  flags := fun ⟨hdone, _⟩ => Bool.false_ne_true hdone
  errCode := iff_of_true rfl rfl
  irq := (Bool.and_false _).symm
  treeNodes := rfl
  tree := rfl
  mem := ⟨List.Pairwise.nil, nofun⟩
  context := State.contextCurrent_of_idle rfl

/-- Settles O18: the reset state is power-on with the standard parameters. -/
theorem resetMeetsTheInvariant : Obligations.ResetMeetsTheInvariant :=
  ⟨State.inv_powerOn Params.wf_standard 0, fun _ draw hp => State.inv_powerOn hp draw⟩

/-! ### The reset input -/

/-- A turn of the host that takes a reset gives the state after power-on, whatever runs (R403). -/
theorem hostTurn_reset {s : State} {rest : List Input} (hi : s.inputs = .reset :: rest) :
    s.hostTurn = .next
      { State.powerOn s.params s.draws with inputs := rest, readLog := s.readLog, delays := s.delays } := by
  rw [State.hostTurn, hi]
  rfl

/-- Settles O17: the host has its turn while IDLE and while a command still takes time, and the turn is the reset. -/
theorem resetAbandonsTheCommand : Obligations.ResetAbandonsTheCommand := by
  intro s rest hi hs
  refine ⟨?_, rfl, rfl, rfl, rfl⟩
  obtain hidle | ⟨c, n, hbusy⟩ := hs
  · exact (step_of_idle hidle).trans (hostTurn_reset hi)
  · exact (step_of_delay hbusy).trans (hostTurn_reset (s := { s with seq := .busy c n }) hi)

end Sys2Proof.Machine
end

section
/-! SUPPORT. The delay of a command (70_reset_and_hazards.md R430): a host that polls or does nothing waits it out, and the command
then completes as it does with none. -/

namespace Sys2Proof.Machine

/-- The host polls `STATUS` for the completion (R166), or has nothing to do. -/
def State.awaits (s : State) : Prop := s.inputs = [] ∨ ∃ rest, s.inputs = .waitPoll :: rest

/-- While a command runs, the turn of a host that awaits its completion changes nothing (R166). -/
theorem hostTurn_of_awaits {s : State} {c : Context} {n : Nat} (hs : s.seq = .busy c n) (hi : s.awaits) :
    s.hostTurn = .next s := by
  obtain hi | ⟨rest, hi⟩ := hi
  · rw [State.hostTurn, hi]
  · rw [hostTurn_waitPoll hi, if_neg (by simp [hs])]

theorem core_run_succ {s t : State} (h : step s = .next t) (k : Nat) : core.run (k + 1) s = core.run k t := by
  simp [Host.Core.run, show core.step = step from rfl, h]

/-- The steps of the delay, and then the completion, give what the command gives with no delay (R430). -/
theorem core_run_of_awaits {s : State} {c : Context} {n : Nat} {i : Instr} (hs : s.seq = .busy c n)
    (hw : decodeWord c.word = .ok i) (hi : s.awaits) :
    core.run (n + 1) s = .next (State.complete { s with seq := .busy c 0 } (usesOf i) c (operationOf i)) := by
  induction n generalizing s with
  | zero =>
    have hstep := (step_of_word hs hw).trans (exec_of_busy hs i)
    rw [core_run_succ hstep, ← hs]
    rfl
  | succ n ih =>
    have hstep : step s = .next { s with seq := .busy c n } := (step_of_delay hs).trans (hostTurn_of_awaits rfl hi)
    rw [core_run_succ hstep]
    exact ih rfl hi

/-- Settles O5, by induction on the delay. -/
theorem delayDoesNotChangeTheCompletion : Obligations.DelayDoesNotChangeTheCompletion :=
  fun _ _ _ i hs hw hi => ⟨_, core_run_of_awaits hs hw hi, exec_of_busy rfl i⟩

end Sys2Proof.Machine
end

section
/-! SUPPORT. The hazards of a host access to `DMEM` while a command runs (70_reset_and_hazards.md R420, 20_memory.md R91): what a
legal access does, by the ranges in use that it touches. -/

namespace Sys2Proof.Machine

/-! ### The ranges in use -/

theorem inUsedSrc_iff (u : Uses) (d : Descriptors) (x : Nat) : inUsedSrc u d x = true ↔
    u.src0 = true ∧ d.src0Addr.toNat ≤ x ∧ x < d.src0Addr.toNat + d.src0Len.toNat ∨
    u.src1 = true ∧ d.src1Addr.toNat ≤ x ∧ x < d.src1Addr.toNat + d.src1Len.toNat := by
  simp only [inUsedSrc, Bool.or_eq_true, Bool.and_eq_true, inDescriptor_iff]

theorem inUsedDst_iff (u : Uses) (d : Descriptors) (x : Nat) : inUsedDst u d x = true ↔
    u.dst0 = true ∧ d.dst0Addr.toNat ≤ x ∧ x < d.dst0Addr.toNat + d.dst0Cap.toNat ∨
    u.dst1 = true ∧ d.dst1Addr.toNat ≤ x ∧ x < d.dst1Addr.toNat + d.dst1Cap.toNat := by
  simp only [inUsedDst, Bool.or_eq_true, Bool.and_eq_true, inDescriptor_iff]

/-! ### Accesses while a command runs -/

section Busy

variable {s : State} {c : Context} {n : Nat} {i : Instr} (hs : s.seq = .busy c n) (hi : decodeWord c.word = .ok i)
include hs hi

/-- An access touches a used range when one of its bytes lies in a used source or destination (R420). -/
theorem touchesUsed_iff_of_busy (a size : Nat) : s.touchesUsed a size = true ↔
    ∃ x, a ≤ x ∧ x < a + size ∧
      (inUsedSrc (usesOf i) c.desc x = true ∨ inUsedDst (usesOf i) c.desc x = true) := by
  simp only [State.touchesUsed, State.runningUses_of_busy hs hi, List.any_eq_true, List.mem_range'_1, Bool.or_eq_true,
    and_assoc]

/-- Outside every used destination the host reads the byte that stands there (R420). -/
theorem State.hostByte_of_busy {x : Nat} (hx : inUsedDst (usesOf i) c.desc x = false) : s.hostByte x = s.mem.byte x := by
  simp [State.hostByte, State.runningUses_of_busy hs hi, hx]

end Busy

/-! ### Legal accesses -/

section Legal

variable {s : State} {size a : Nat} {rest : List Input} (hr : inRegBlock s.params (s.params.dmemBase + a) = false)
  (hw : size = 1 ∨ size = 2 ∨ size = 4) (ha : a % size = 0) (hfits : a + size ≤ s.params.memBytes)
include hr hw ha hfits

/-- A legal write to `DMEM` stores its bytes, unless it touches a used range (R82, R420). -/
theorem hostTurn_writeDmem_of_legal {v : Word} (hi : s.inputs = .write size (s.params.dmemBase + a) v :: rest) :
    s.hostTurn = if s.touchesUsed a size then .fault .hostWritesUsedRange
      else .next { s with inputs := rest, mem := s.mem.writeBytes a ((bytesLe32 v).take size) } := by
  have hok := (dmemAccessOk_iff size a).mpr ⟨hw, ha⟩
  rw [hostTurn_writeDmem hr hi, State.hostWriteDmem, if_pos hok, if_pos hfits]
  rfl

/-- A legal read of `DMEM` while BUSY logs the bytes as the host sees them and takes a draw (R82, R91, R420). -/
theorem hostTurn_readDmem_of_busy (hb : s.isBusy = true) (hi : s.inputs = .read size (s.params.dmemBase + a) :: rest) :
    s.hostTurn = .next
      { s with
        inputs := rest
        readLog := s.readLog ++ [leValue ((List.range' a size).map s.hostByte)]
        draws := s.draws + 1 } := by
  have hok := (dmemAccessOk_iff size a).mpr ⟨hw, ha⟩
  have hb' : State.isBusy { s with inputs := rest } = true := hb
  rw [hostTurn_readDmem hr hi, State.hostReadDmem, if_pos hok, if_pos hfits, if_pos hb']
  rfl

end Legal

/-- Settles O13: the test of a legal write, and the bytes that a legal read returns. -/
theorem busyMemoryHazards : Obligations.BusyMemoryHazards := by
  refine ⟨fun u d x => ⟨inUsedSrc_iff u d x, inUsedDst_iff u d x⟩, fun s c n i size a rest hs hi hr hw ha hfits => ?_⟩
  refine ⟨fun v hwrite => ?_, fun hread => ?_⟩
  · rw [hostTurn_writeDmem_of_legal hr hw ha hfits hwrite]
    refine ⟨fun hused => if_pos ((touchesUsed_iff_of_busy hs hi a size).mpr hused), fun hfree => if_neg fun htouch => ?_⟩
    obtain ⟨x, h1, h2, hx⟩ := (touchesUsed_iff_of_busy hs hi a size).mp htouch
    simp [hfree x h1 h2] at hx
  · rw [hostTurn_readDmem_of_busy hr hw ha hfits (State.isBusy_of_busy hs) hread]
    refine ⟨⟨_, rfl⟩, fun hfree => ?_⟩
    have hbytes : (List.range' a size).map s.hostByte = s.mem.readBytes a size := List.map_congr_left fun x hx => by
      obtain ⟨h1, h2⟩ := List.mem_range'_1.mp hx
      exact State.hostByte_of_busy hs hi (hfree x h1 h2)
    rw [hbytes]

end Sys2Proof.Machine
end
